-- ==== Sys2Proof/Word.lean ====
section
/-! DEFINITION. The value types of the unit (00_scope.md R14), the byte memories' names and the form of an address in
them (20_memory.md R60). -/

namespace Sys2Proof

/-- An unsigned 8-bit value, also read as an element of GF(2^8) (R14). -/
abbrev Byte := BitVec 8

/-- A 32-bit value: a register, or a command word (R14). -/
abbrev Word := BitVec 32

/-- The eight byte memories of 10_state.md R41. The ninth address space of R60, the register block, holds words and is
addressed by register index. -/
inductive Space where
  | shard | temp | matA | matB | matC | idxIn | idxOut | gen
deriving DecidableEq, Repr

/-- An address in a byte memory (R60): `(i, b)` for SHARD, `(r, c)` for MATA, MATB, MATC and GEN. TEMP and the IDX lists
have one index, which is `col`, and `row = 0`. -/
structure Addr where
  row : Nat
  col : Nat
deriving DecidableEq, Repr

end Sys2Proof
end

