-- ==== Sys2Proof/Syntax.lean ====
section
/-! DEFINITION. The commands: one constructor per row of spec/opcode_table.json (30_encoding.md R92). A command carries
no operands (R97); its arguments are the fields LOOP, METHOD and USE_TEMP where R92 allows them. -/

namespace Sys2Proof

/-- The METHOD field (30_encoding.md R93): 0 names the table method, 1 the log/exp method. -/
inductive Method where
  | table
  | exp
deriving DecidableEq, Repr

/-- The six loop-nest orders LOOP can name, outermost axis first (30_encoding.md R93). -/
inductive LoopOrder where
  | iob | ibo | oib | obi | bio | boi
deriving DecidableEq, Repr

/-- A command. `loop` is the LOOP field as the word carries it; WellFormed says which values are legal. -/
inductive Instr where
  | nop
  | gfAdd
  | gfSub
  | gfMul (method : Method)
  | gfDiv
  | gfExp
  | gfLog
  | gfAlog
  | matMul
  | matInv
  | mvCode (loop : BitVec 3) (method : Method)
  | mvCheck (loop : BitVec 3) (method : Method) (useTemp : Bool)
  | rsConfig (loop : BitVec 3) (method : Method)
  | rsEncode
  | rsCheck (useTemp : Bool)
  | rsDecode
deriving DecidableEq, Repr

end Sys2Proof
end

