-- ==== Sys2Proof/WellFormed.lean ====
section
/-! DEFINITION. Which terms of Instr are commands of the unit. The one check a term can fail is 30_encoding.md R94's
LOOP ≤ 5; every other legality rule of R94 concerns bits that no term of Instr has. -/

namespace Sys2Proof

/-- LOOP values 6 and 7 are reserved (R93, R94). -/
def loopLegal (loop : BitVec 3) : Bool := loop.toNat ≤ 5

/-- The check of R94 on a command term. -/
def Instr.wellFormed : Instr → Bool
  | .nop => true
  | .gfAdd => true
  | .gfSub => true
  | .gfMul _ => true
  | .gfDiv => true
  | .gfExp => true
  | .gfLog => true
  | .gfAlog => true
  | .matMul => true
  | .matInv => true
  | .mvCode loop _ => loopLegal loop
  | .mvCheck loop _ _ => loopLegal loop
  | .rsConfig loop _ => loopLegal loop
  | .rsEncode => true
  | .rsCheck _ => true
  | .rsDecode => true

end Sys2Proof
end

