-- ==== Sys2Proof/Decode.lean ====
section
/-! DEFINITION. The command word (30_encoding.md R90 to R95): its fields, the legality predicate of R94, the decoder
(total, rejecting by name) and the encoder. -/

namespace Sys2Proof

/-! ## Fields (R91) -/

/-- A field placed in a word with its lowest bit at `lo`, every other bit 0. -/
def fieldAt {n : Nat} (v : BitVec n) (lo : Nat) : Word := v.setWidth 32 <<< lo

/-- OPC = w[7:0]. -/
def opcOf (w : Word) : BitVec 8 := w.extractLsb' 0 8
/-- LOOP = w[10:8]. -/
def loopOf (w : Word) : BitVec 3 := w.extractLsb' 8 3
/-- METHOD = w[11]. -/
def methodBit (w : Word) : Bool := w.getLsbD 11
/-- USE_TEMP = w[12]. -/
def useTempOf (w : Word) : Bool := w.getLsbD 12
/-- RSV = w[31:13]. -/
def rsvOf (w : Word) : BitVec 19 := w.extractLsb' 13 19

/-- METHOD = 0 is the table method, METHOD = 1 the log/exp method (R93). -/
def Method.ofBit : Bool → Method
  | false => .table
  | true => .exp

/-- The METHOD bit of a method (R93). -/
def Method.bit : Method → Bool
  | .table => false
  | .exp => true

/-- The loop order a legal LOOP value names (R93). -/
def LoopOrder.ofField (loop : BitVec 3) : Option LoopOrder :=
  match loop.toNat with
  | 0 => some .iob
  | 1 => some .ibo
  | 2 => some .oib
  | 3 => some .obi
  | 4 => some .bio
  | 5 => some .boi
  | _ => none

/-! ## Legality (R92, R94) -/

/-- A row of R92: an opcode and the fields it allows. -/
structure OpRow where
  opc        : Nat
  loopOk     : Bool
  methodOk   : Bool
  useTempOk  : Bool
deriving DecidableEq, Repr

/-- The opcode map of R92. -/
def opRows : List OpRow :=
  [ ⟨0x00, false, false, false⟩
  , ⟨0x01, false, false, false⟩
  , ⟨0x02, false, false, false⟩
  , ⟨0x03, false, true, false⟩
  , ⟨0x04, false, false, false⟩
  , ⟨0x05, false, false, false⟩
  , ⟨0x06, false, false, false⟩
  , ⟨0x07, false, false, false⟩
  , ⟨0x10, false, false, false⟩
  , ⟨0x11, false, false, false⟩
  , ⟨0x20, true, true, false⟩
  , ⟨0x21, true, true, true⟩
  , ⟨0x30, true, true, false⟩
  , ⟨0x31, false, false, false⟩
  , ⟨0x32, false, false, true⟩
  , ⟨0x33, false, false, false⟩ ]

/-- `legal(w)` as R94 writes it, over the table of R92. -/
def legalWord (w : Word) : Bool :=
  opRows.any fun row =>
    row.opc == (opcOf w).toNat
      && rsvOf w == 0#19
      && (row.loopOk || loopOf w == 0#3)
      && (!row.loopOk || decide ((loopOf w).toNat ≤ 5))
      && (row.methodOk || !methodBit w)
      && (row.useTempOk || !useTempOf w)

/-! ## Decoder -/

/-- Why a word is no command (R95), one name per clause of R94; `truncated` is the byte-list decoder's. -/
inductive DecodeError where
  | reservedOpcode
  | reservedBits
  | loopReserved
  | loopNotAllowed
  | methodNotAllowed
  | useTempNotAllowed
  | truncated
deriving DecidableEq, Repr

/-- A word whose opcode allows no LOOP field must have it 0 (R94). -/
def withoutLoop (w : Word) (k : Except DecodeError Instr) : Except DecodeError Instr :=
  if loopOf w = 0#3 then k else .error .loopNotAllowed

/-- A word whose opcode allows no METHOD field must have it 0 (R94). -/
def withoutMethod (w : Word) (k : Except DecodeError Instr) : Except DecodeError Instr :=
  if methodBit w then .error .methodNotAllowed else k

/-- A word whose opcode allows no USE_TEMP field must have it 0 (R94). -/
def withoutTemp (w : Word) (k : Except DecodeError Instr) : Except DecodeError Instr :=
  if useTempOf w then .error .useTempNotAllowed else k

/-- A word whose opcode allows a LOOP field must have it at most 5 (R94). -/
def withLoop (w : Word) (k : BitVec 3 → Except DecodeError Instr) : Except DecodeError Instr :=
  if loopLegal (loopOf w) then k (loopOf w) else .error .loopReserved

/-- A word whose opcode allows no field at all. -/
def bare (w : Word) (i : Instr) : Except DecodeError Instr :=
  withoutLoop w (withoutMethod w (withoutTemp w (.ok i)))

/-- The command a word stands for (R92, R94). -/
def decode (w : Word) : Except DecodeError Instr :=
  if rsvOf w = 0#19 then
    match (opcOf w).toNat with
    | 0x00 => bare w .nop
    | 0x01 => bare w .gfAdd
    | 0x02 => bare w .gfSub
    | 0x03 => withoutLoop w (withoutTemp w (.ok (.gfMul (Method.ofBit (methodBit w)))))
    | 0x04 => bare w .gfDiv
    | 0x05 => bare w .gfExp
    | 0x06 => bare w .gfLog
    | 0x07 => bare w .gfAlog
    | 0x10 => bare w .matMul
    | 0x11 => bare w .matInv
    | 0x20 => withLoop w fun l => withoutTemp w (.ok (.mvCode l (Method.ofBit (methodBit w))))
    | 0x21 => withLoop w fun l => .ok (.mvCheck l (Method.ofBit (methodBit w)) (useTempOf w))
    | 0x30 => withLoop w fun l => withoutTemp w (.ok (.rsConfig l (Method.ofBit (methodBit w))))
    | 0x31 => bare w .rsEncode
    | 0x32 => withoutLoop w (withoutMethod w (.ok (.rsCheck (useTempOf w))))
    | 0x33 => bare w .rsDecode
    | _ => .error .reservedOpcode
  else .error .reservedBits

/-- The word of four bytes, lowest byte lane first (20_memory.md R63). -/
def wordOfLanes (b0 b1 b2 b3 : Byte) : Word :=
  fieldAt b0 0 ||| fieldAt b1 8 ||| fieldAt b2 16 ||| fieldAt b3 24

/-- Byte lane `t` of a word: bits [8t+7 : 8t] (20_memory.md R63). -/
def laneOf (w : Word) (t : Nat) : Byte := w.extractLsb' (8 * t) 8

/-- The decoder on a list of bytes: every command is exactly four bytes (R90), and the rest of the list is returned. -/
def decodeBytes : List Byte → Except DecodeError (Instr × List Byte)
  | b0 :: b1 :: b2 :: b3 :: rest =>
    match decode (wordOfLanes b0 b1 b2 b3) with
    | .ok i => .ok (i, rest)
    | .error e => .error e
  | _ => .error .truncated

/-! ## Encoder -/

/-- A command word from its fields (R91), RSV = 0. -/
def cmdWord (opc : BitVec 8) (loop : BitVec 3) (method useTemp : Bool) : Word :=
  fieldAt opc 0 ||| fieldAt loop 8 ||| fieldAt (BitVec.ofBool method) 11 ||| fieldAt (BitVec.ofBool useTemp) 12

/-- The opcode of a command (R92). -/
def Instr.opcode : Instr → BitVec 8
  | .nop => 0x00#8
  | .gfAdd => 0x01#8
  | .gfSub => 0x02#8
  | .gfMul _ => 0x03#8
  | .gfDiv => 0x04#8
  | .gfExp => 0x05#8
  | .gfLog => 0x06#8
  | .gfAlog => 0x07#8
  | .matMul => 0x10#8
  | .matInv => 0x11#8
  | .mvCode _ _ => 0x20#8
  | .mvCheck _ _ _ => 0x21#8
  | .rsConfig _ _ => 0x30#8
  | .rsEncode => 0x31#8
  | .rsCheck _ => 0x32#8
  | .rsDecode => 0x33#8

/-- The word of a command (R91, R92). -/
def encode (i : Instr) : Word :=
  match i with
  | .nop => cmdWord i.opcode 0 false false
  | .gfAdd => cmdWord i.opcode 0 false false
  | .gfSub => cmdWord i.opcode 0 false false
  | .gfMul m => cmdWord i.opcode 0 m.bit false
  | .gfDiv => cmdWord i.opcode 0 false false
  | .gfExp => cmdWord i.opcode 0 false false
  | .gfLog => cmdWord i.opcode 0 false false
  | .gfAlog => cmdWord i.opcode 0 false false
  | .matMul => cmdWord i.opcode 0 false false
  | .matInv => cmdWord i.opcode 0 false false
  | .mvCode l m => cmdWord i.opcode l m.bit false
  | .mvCheck l m t => cmdWord i.opcode l m.bit t
  | .rsConfig l m => cmdWord i.opcode l m.bit false
  | .rsEncode => cmdWord i.opcode 0 false false
  | .rsCheck t => cmdWord i.opcode 0 false t
  | .rsDecode => cmdWord i.opcode 0 false false

/-! ## The opcode table's words -/

/-- The command the decoder reads from an instruction of `nbits` bits with value `w`, numbered as
spec/opcode_table.json numbers them. Bits above `nbits` are 0; the four bytes go to the decoder lowest lane first. -/
def decodeTableWord (nbits w : Nat) : Option Instr :=
  let v : Word := BitVec.ofNat 32 (w % 2 ^ nbits)
  match decodeBytes [laneOf v 0, laneOf v 1, laneOf v 2, laneOf v 3] with
  | .ok (i, _) => some i
  | .error _ => none

end Sys2Proof
end

