-- ==== Sys2Proof/Config.lean ====
section
/-! DEFINITION. The OPEN parameters of the spec (00_scope.md R9, R12, R13; 20_memory.md R66): what an implementation or
its platform fixes. The spec says the model takes them as arguments. `step` takes none, so they stand in State as one
constant field (log 1), and a statement about every state is a statement about every value of them. -/

namespace Sys2Proof

/-- VAND_MODE, the Vandermonde entry rule (R12). -/
inductive VandMode where
  | rowPow
  | genPow
deriving DecidableEq, Repr

/-- One piece of the platform's bus map: bus address `base + r * cols + c` is byte `(row0 + r, col0 + c)` of `space`, for
`r < rows` and `c < cols`. A list of such windows can write any finite map of R66. -/
structure PortWindow where
  base  : Nat
  space : Space
  row0  : Nat
  rows  : Nat
  col0  : Nat
  cols  : Nat
deriving DecidableEq, Repr

/-- REG_BASE and PORT_MAP (R13, R66). -/
structure Platform where
  regBase : Nat
  ports   : List PortWindow
deriving DecidableEq, Repr

/-- LMAX (as `lmaxPred + 1`, so that `1 ≤ LMAX ≤ 2^31 − 1` holds of every value, R9), VAND_MODE (R12) and the platform's
bus map (R13). -/
structure Params where
  lmaxPred : Fin (2 ^ 31 - 1)
  vandMode : VandMode
  platform : Platform
deriving DecidableEq, Repr

/-- LMAX, the capacity in bytes of a shard slot and of the temp buffer (R9). -/
def Params.lmax (p : Params) : Nat := p.lmaxPred.val + 1

/-- R66's illustrative mapping for a given LMAX, with base addresses of the model's own. DESIGN CHOICE (log 3). -/
def Platform.illustrative (lmax : Nat) : Platform where
  regBase := 0x0
  ports :=
    [ ⟨0x100, .idxIn, 0, 1, 0, 256⟩
    , ⟨0x200, .idxOut, 0, 1, 0, 256⟩
    , ⟨0x10000, .matA, 0, 256, 0, 256⟩
    , ⟨0x20000, .matB, 0, 256, 0, 256⟩
    , ⟨0x30000, .matC, 0, 256, 0, 256⟩
    , ⟨0x40000, .gen, 0, 256, 0, 255⟩
    , ⟨0x100000000, .temp, 0, 1, 0, lmax⟩
    , ⟨0x200000000, .shard, 0, 256, 0, lmax⟩ ]

/-- The parameters of `State.reset`: VAND_MODE at the spec's default (R12), LMAX at the largest legal value and R66's
illustrative bus map. LMAX and the map are DESIGN CHOICE (logs 2, 3). -/
def Params.default : Params where
  lmaxPred := ⟨2147483646, by decide⟩
  vandMode := .rowPow
  platform := Platform.illustrative 2147483647

end Sys2Proof
end

