-- ==== Sys2Proof/Machine/State.lean ====
section
/-! DEFINITION. The state of the unit (10_state.md), the reasons a step can stop, and the state after reset. Registers
are held as their named fields: a bit that no rule of R24 to R40 names reads 0 and ignores writes (R23), so it has no
storage, and Operands.lean computes the words. -/

namespace Sys2Proof.Machine

/-! ## Registers (10_state.md R22 to R40) -/

/-- STATUS (R26): BUSY [0], DONE [1], ERR [2], ERRCODE [7:4], CFG_VALID [8]. -/
structure Status where
  busy     : Bool
  done     : Bool
  err      : Bool
  errcode  : BitVec 4
  cfgValid : Bool
deriving DecidableEq, Repr

/-- CFGSTRAT (R33): LOOP [2:0], METHOD [3]. -/
structure Strategy where
  loop   : BitVec 3
  method : Bool
deriving DecidableEq, Repr

/-- MDIMA, MDIMB, MDIMC (R37, R38): ROWS [8:0], COLS [24:16]. -/
structure Dims where
  rows : BitVec 9
  cols : BitVec 9
deriving DecidableEq, Repr

/-- MVCNT (R36): IN_COUNT [8:0], OUT_COUNT [24:16]. -/
structure Counts where
  inCount  : BitVec 9
  outCount : BitVec 9
deriving DecidableEq, Repr

/-- The registers with storage. ID and LMAXR are constants (R24, R40), CMD has no storage (R27). -/
structure Regs where
  /-- CTRL.IRQ_EN (R25). -/
  irqEn    : Bool
  status   : Status
  /-- RESULT.VALUE (R28). -/
  result   : Byte
  /-- OPA.A and OPB.B (R29). -/
  opa      : Byte
  opb      : Byte
  /-- OPN.N (R29). -/
  opn      : Word
  offset   : Word
  count    : Word
  kreq     : Word
  mreq     : Word
  /-- The active k, m and n (R32). -/
  dsc      : BitVec 9
  psc      : BitVec 9
  tsc      : BitVec 9
  cfgstrat : Strategy
  slen     : Word
  tlen     : Word
  mvcnt    : Counts
  mdima    : Dims
  mdimb    : Dims
  mdimc    : Dims
  /-- PRESENT0..PRESENT7 as one mask, shard i at bit i (R39). -/
  present  : BitVec 256
deriving DecidableEq, Repr

/-! ## Memories (10_state.md R41) -/

/-- A byte memory: the bytes that hold a value, by key, in strictly rising order. An unlisted key holds `none` (R41, R50).
Ops.lean gives an address its key and the operations that keep the form. -/
abbrev Memory := List Host.Cell

/-- The eight byte memories of R41. -/
structure Mems where
  shard  : Memory
  temp   : Memory
  matA   : Memory
  matB   : Memory
  matC   : Memory
  idxIn  : Memory
  idxOut : Memory
  gen    : Memory
deriving DecidableEq, Repr

/-! ## Errors and faults (60_exceptions.md) -/

/-- The architectural errors (R270). They are ordinary outcomes of a command: a next state whose STATUS names them. -/
inductive ErrCode where
  | tooManyShards
  | shapeMismatch
  | rangeError
  | notEnoughShards
  | singular
  | divByZero
  | logOfZero
  | notConfigured
  | overlap
  | illegalCommand
deriving DecidableEq, Repr

/-- What a fault record names as the address of an access: a register index, a byte of a memory, or a bus address. -/
inductive Target where
  | reg (j : Nat)
  | mem (space : Space) (addr : Addr)
  | bus (addr : Nat)
deriving DecidableEq, Repr

/-- The model faults (R285): the uses the spec gives no meaning. The machine stops with one; all are safe. -/
inductive Fault where
  /-- A command or a host reads a byte that holds `none`, or GEN outside N × K or unconfigured (00_scope.md R16,
  10_state.md R42). Safe: the hardware reads some byte and goes on. -/
  | unwrittenRead (space : Space) (addr : Addr)
  /-- A host access outside the legal addresses (20_memory.md R60, R61). Safe. -/
  | badAddress (target : Target)
  /-- A host access to the register block that is not 32 bits wide (20_memory.md R64). Safe. -/
  | badAccessWidth (addr size : Nat)
  /-- A host access to the register block at an offset that is no multiple of 4 (20_memory.md R65). Safe. -/
  | misaligned (addr size : Nat)
  /-- A CMD write while BUSY = 1 (40_command_protocol.md R121). Safe. -/
  | cmdWhileBusy
  /-- Any other host access that 70_reset_and_hazards.md R310 does not allow while BUSY = 1. Safe. -/
  | hostAccessWhileBusy (target : Target)
  /-- A matrix primitive called against its precondition (42_matrix.md R172). No command does so. Safe. -/
  | specBug (what : String)
deriving DecidableEq, Repr

/-- Why the model gives a step no meaning. -/
inductive Refusal where
  /-- Raised by `exec` for a command without a meaning; this model has none. Safe. -/
  | notModelled (mnemonic : String)
  /-- Raised by a host program whose `bnz` names a value it has not read (30_encoding.md R100 gives no meaning). Safe. -/
  | hostValueUnbound (name : Nat)
deriving DecidableEq, Repr

/-- Why a command rule ends before its writes: an architectural error, or a model fault (00_scope.md R17). -/
inductive Stop where
  | error (e : ErrCode)
  | fault (f : Fault)
deriving DecidableEq, Repr

/-! ## Hosts -/

/-- What a host can do to the unit: the four primitives of 20_memory.md R61, and an access of `size` bytes at a bus
address (R63 to R67). -/
inductive HostAccess where
  | regRead (j : Nat)
  | regWrite (j : Nat) (w : Word)
  | memRead (space : Space) (addr : Addr)
  | memWrite (space : Space) (addr : Addr) (v : Byte)
  | busRead (addr size : Nat)
  | busWrite (addr size value : Nat)
deriving DecidableEq, Repr

/-- A statement of a host program (30_encoding.md R100). `access name a` makes the access, and a value it reads is kept
under `name`. `bnz name bit target` goes to statement `target` if bit `bit` of the value last read under `name` is 1;
a label is the index of the statement it stands before (log 6). -/
inductive HostStmt where
  | access (name : Nat) (a : HostAccess)
  | bnz (name bit target : Nat)
deriving DecidableEq, Repr

/-- A host: its program, the next statement, every value it has read, newest first, under the name it was read to, and the
bytes a wide bus access in progress has moved so far, first byte first (20_memory.md R67). -/
structure HostProc where
  prog  : List HostStmt
  pc    : Nat
  vals  : List (Nat × Nat)
  moved : List Byte
deriving DecidableEq, Repr

/-- Who takes a step: the Unit, host number `h`, or the platform asserting hardware reset (70_reset_and_hazards.md R300). -/
inductive Turn where
  | unit
  | host (h : Nat)
  | hwReset
deriving DecidableEq, Repr

/-! ## State -/

/-- The machine: the unit's state (10_state.md), the parameters it was built with (00_scope.md R9, R12, R13), and the
agents that act on it (10_state.md R20). -/
structure State where
  /-- The OPEN parameters; no step changes them (log 1). -/
  params : Params
  regs   : Regs
  mems   : Mems
  /-- LATCH (R45): the command word in flight, meaningless while BUSY = 0 (log 4). -/
  latch  : Word
  /-- FAULTS (R48): model-fault records, newest first. A state with a record has no next state (log 7). -/
  faults : List Fault
  /-- The hosts and what is left of their programs (log 6). -/
  hosts  : List HostProc
  /-- Who takes the coming steps; when it is used up, Turns.lean says who is next (log 5). -/
  turns  : List Turn
deriving DecidableEq, Repr

/-! ## Reset (10_state.md R50, 70_reset_and_hazards.md R300) -/

/-- Every register field at its reset value, which is 0 for all of them (R22). -/
def Regs.reset : Regs where
  irqEn := false
  status := { busy := false, done := false, err := false, errcode := 0, cfgValid := false }
  result := 0
  opa := 0
  opb := 0
  opn := 0
  offset := 0
  count := 0
  kreq := 0
  mreq := 0
  dsc := 0
  psc := 0
  tsc := 0
  cfgstrat := { loop := 0, method := false }
  slen := 0
  tlen := 0
  mvcnt := { inCount := 0, outCount := 0 }
  mdima := { rows := 0, cols := 0 }
  mdimb := { rows := 0, cols := 0 }
  mdimc := { rows := 0, cols := 0 }
  present := 0

/-- Every byte of every memory `none`, GEN empty (R50). -/
def Mems.empty : Mems where
  shard := []
  temp := []
  matA := []
  matB := []
  matC := []
  idxIn := []
  idxOut := []
  gen := []

/-- The machine right after reset, for given parameters, with no host and no fault record. LATCH is meaningless then
(R50); 0 is a DESIGN CHOICE (log 4). -/
def State.resetWith (p : Params) : State where
  params := p
  regs := Regs.reset
  mems := Mems.empty
  latch := 0
  faults := []
  hosts := []
  turns := []

/-- The machine right after reset, with the default parameters. -/
def State.reset : State := State.resetWith Params.default

end Sys2Proof.Machine
end

