-- ==== Sys2Proof/Machine/Flags.lean ====
section
/-! DEFINITION. STATUS (10_state.md R26): its word, the numbers of the error codes (60_exceptions.md R270), and what
issue, completion and the host's write-one-to-clear make of it. The unit has no other flags (10_state.md R49). -/

namespace Sys2Proof.Machine

/-- ERRCODE of an error (60_exceptions.md R270); 0 is NONE. -/
def ErrCode.code : ErrCode → BitVec 4
  | .tooManyShards => 1
  | .shapeMismatch => 2
  | .rangeError => 3
  | .notEnoughShards => 4
  | .singular => 5
  | .divByZero => 6
  | .logOfZero => 7
  | .notConfigured => 8
  | .overlap => 9
  | .illegalCommand => 10

/-- The word a read of STATUS returns (R26): reserved bits 0. -/
def Status.word (st : Status) : Word :=
  fieldAt (BitVec.ofBool st.busy) 0 ||| fieldAt (BitVec.ofBool st.done) 1 ||| fieldAt (BitVec.ofBool st.err) 2
    ||| fieldAt st.errcode 4 ||| fieldAt (BitVec.ofBool st.cfgValid) 8

/-- STATUS after an accepted CMD write (40_command_protocol.md R121). -/
def Status.issued (st : Status) : Status :=
  { st with busy := true, done := false, err := false, errcode := 0 }

/-- STATUS after a command that succeeded (40_command_protocol.md R126). -/
def Status.succeeded (st : Status) : Status :=
  { st with busy := false, done := true, err := false, errcode := 0 }

/-- STATUS after a command that raised an error (40_command_protocol.md R126). -/
def Status.failed (st : Status) (e : ErrCode) : Status :=
  { st with busy := false, done := true, err := true, errcode := e.code }

/-- STATUS after a host write of `w` (R26): a 1 in bit 1 clears DONE, and nothing else is writable. -/
def Status.hostWrite (st : Status) (w : Word) : Status :=
  if w.getLsbD 1 then { st with done := false } else st

end Sys2Proof.Machine
end

