-- ==== Sys2Proof/Machine/Operands.lean ====
section
/-! DEFINITION. Registers as operands: the word each register index reads (10_state.md R22 to R40), what a host write
stores, and how commands interpret the fields (30_encoding.md R97). -/

namespace Sys2Proof.Machine

/-! ## Words and fields -/

/-- The signed value of a word (00_scope.md R14). -/
def sint32 (w : Word) : Int := if w.getLsbD 31 then (w.toNat : Int) - 2 ^ 32 else w.toNat

/-- Bits [8:0] of a word. -/
def lowField (w : Word) : BitVec 9 := w.extractLsb' 0 9

/-- Bits [24:16] of a word. -/
def highField (w : Word) : BitVec 9 := w.extractLsb' 16 9

/-- A word with a 9-bit field in [8:0] and another in [24:16], the rest 0 (R36 to R38). -/
def pairWord (low high : BitVec 9) : Word := fieldAt low 0 ||| fieldAt high 16

def Dims.word (d : Dims) : Word := pairWord d.rows d.cols
def Dims.ofWord (w : Word) : Dims := { rows := lowField w, cols := highField w }
def Counts.word (c : Counts) : Word := pairWord c.inCount c.outCount
def Counts.ofWord (w : Word) : Counts := { inCount := lowField w, outCount := highField w }

/-- CFGSTRAT's word, `{28'b0, METHOD, LOOP}` (44_reed_solomon.md R233). -/
def Strategy.word (c : Strategy) : Word := fieldAt c.loop 0 ||| fieldAt (BitVec.ofBool c.method) 3

/-- CTRL's word (R25): IRQ_EN, and SRST reads 0. -/
def ctrlWord (irqEn : Bool) : Word := fieldAt (BitVec.ofBool irqEn) 0

/-- The constant ID reads, ASCII "GF28" (R24). -/
def idWord : Word := 0x47463238#32

/-- PRESENTq, the 32 bits of the mask from bit 32·q (R39). -/
def presentWord (mask : BitVec 256) (q : Nat) : Word := mask.extractLsb' (32 * q) 32

/-- The mask after a write of `w` to PRESENTq (R39). -/
def setPresentWord (mask : BitVec 256) (q : Nat) (w : Word) : BitVec 256 :=
  (mask &&& ~~~((0xFFFFFFFF#32).setWidth 256 <<< (32 * q))) ||| (w.setWidth 256 <<< (32 * q))

/-- `present(i)` (R39). -/
def Regs.isPresent (r : Regs) (i : Nat) : Bool := r.present.getLsbD i

/-! ## The register block (10_state.md R22) -/

/-- The word register `j` reads. CMD and index 31 read 0 (R22, R23). -/
def Regs.word (r : Regs) (lmax : Nat) (j : Nat) : Word :=
  match j with
  | 0 => idWord
  | 1 => ctrlWord r.irqEn
  | 2 => r.status.word
  | 3 => 0
  | 4 => r.result.setWidth 32
  | 5 => r.opa.setWidth 32
  | 6 => r.opb.setWidth 32
  | 7 => r.opn
  | 8 => r.offset
  | 9 => r.count
  | 10 => r.kreq
  | 11 => r.mreq
  | 12 => r.dsc.setWidth 32
  | 13 => r.psc.setWidth 32
  | 14 => r.tsc.setWidth 32
  | 15 => r.cfgstrat.word
  | 16 => r.slen
  | 17 => r.tlen
  | 18 => r.mvcnt.word
  | 19 => r.mdima.word
  | 20 => r.mdimb.word
  | 21 => r.mdimc.word
  | 22 => presentWord r.present 0
  | 23 => presentWord r.present 1
  | 24 => presentWord r.present 2
  | 25 => presentWord r.present 3
  | 26 => presentWord r.present 4
  | 27 => presentWord r.present 5
  | 28 => presentWord r.present 6
  | 29 => presentWord r.present 7
  | 30 => BitVec.ofNat 32 lmax
  | _ => 0

/-- What a host write of `w` to register `j` stores, for the registers whose write only stores or clears: CTRL without
SRST, STATUS, and the RW registers. Read-only and reserved registers keep everything (R23). -/
def Regs.hostWrite (r : Regs) (j : Nat) (w : Word) : Regs :=
  match j with
  | 1 => { r with irqEn := w.getLsbD 0 }
  | 2 => { r with status := r.status.hostWrite w }
  | 5 => { r with opa := w.extractLsb' 0 8 }
  | 6 => { r with opb := w.extractLsb' 0 8 }
  | 7 => { r with opn := w }
  | 8 => { r with offset := w }
  | 9 => { r with count := w }
  | 10 => { r with kreq := w }
  | 11 => { r with mreq := w }
  | 16 => { r with slen := w }
  | 17 => { r with tlen := w }
  | 18 => { r with mvcnt := Counts.ofWord w }
  | 19 => { r with mdima := Dims.ofWord w }
  | 20 => { r with mdimb := Dims.ofWord w }
  | 22 => { r with present := setPresentWord r.present 0 w }
  | 23 => { r with present := setPresentWord r.present 1 w }
  | 24 => { r with present := setPresentWord r.present 2 w }
  | 25 => { r with present := setPresentWord r.present 3 w }
  | 26 => { r with present := setPresentWord r.present 4 w }
  | 27 => { r with present := setPresentWord r.present 5 w }
  | 28 => { r with present := setPresentWord r.present 6 w }
  | 29 => { r with present := setPresentWord r.present 7 w }
  | _ => r

/-! ## Operands of commands (30_encoding.md R97) -/

/-- `off` (10_state.md R30). -/
def Regs.off (r : Regs) : Int := sint32 r.offset
/-- `cnt` (10_state.md R30). -/
def Regs.cnt (r : Regs) : Int := sint32 r.count
/-- The exponent or table index (10_state.md R29). -/
def Regs.n (r : Regs) : Int := sint32 r.opn

/-- A dimension MAT_MUL and MAT_INV accept (42_matrix.md R180). -/
def Dims.legal (d : Dims) : Bool :=
  1 ≤ d.rows.toNat && d.rows.toNat ≤ 256 && 1 ≤ d.cols.toNat && d.cols.toNat ≤ 256

/-- The counts MV_CODE and MV_CHECK accept (43_coding_loop.md R204). -/
def Counts.legal (c : Counts) : Bool :=
  1 ≤ c.inCount.toNat && c.inCount.toNat ≤ 256 && c.outCount.toNat ≤ 256

/-- The byte range every shard command accepts (43_coding_loop.md R203): sums are unbounded integers. -/
def rangeLegal (lmax : Nat) (off cnt : Int) (len : Nat) : Bool :=
  len ≤ lmax && 0 ≤ off && 0 ≤ cnt && off + cnt ≤ (len : Int)

/-- The temp-buffer check (43_coding_loop.md R208). -/
def tempLegal (lmax : Nat) (off cnt : Int) (tlen : Nat) : Bool :=
  tlen ≤ lmax && off + cnt ≤ (tlen : Int)

/-- `P`, the present indices below n, in increasing order (44_reed_solomon.md R239). -/
def Regs.presentList (r : Regs) (n : Nat) : List Nat := (List.range n).filter r.isPresent

/-- The indices of `[lo, hi)` that are not present, in increasing order (44_reed_solomon.md R242). -/
def Regs.missingList (r : Regs) (lo hi : Nat) : List Nat :=
  (List.range' lo (hi - lo)).filter fun i => !r.isPresent i

end Sys2Proof.Machine
end

