-- ==== Sys2Proof/Machine/Ops.lean ====
section
/-! DEFINITION. The operations every command and every host access is written with: bytes of memory (00_scope.md R16),
the constant register block, issue (40_command_protocol.md R121), completion with or without an error (R126), and reset
(70_reset_and_hazards.md R300). -/

namespace Sys2Proof.Machine

/-! ## Memories -/

/-- The legal addresses of a memory (20_memory.md R60). -/
def legalAddr (lmax : Nat) (space : Space) (a : Addr) : Bool :=
  match space with
  | .shard => a.row < 256 && a.col < lmax
  | .temp => a.row == 0 && a.col < lmax
  | .matA => a.row < 256 && a.col < 256
  | .matB => a.row < 256 && a.col < 256
  | .matC => a.row < 256 && a.col < 256
  | .idxIn => a.row == 0 && a.col < 256
  | .idxOut => a.row == 0 && a.col < 256
  | .gen => a.row < 256 && a.col < 255

/-- The key of an address in its memory. Distinct addresses with columns below 2^32 have distinct keys, and every column
a host or a command can name is below 2^32 (R9, R203). -/
def addrKey (a : Addr) : Nat := a.row * 2 ^ 32 + a.col

/-- What a key holds; an unlisted key holds `none` (10_state.md R50). -/
def Memory.read : Memory → Nat → Option Byte
  | [], _ => none
  | (a, v) :: rest, k => if a = k then some v else Memory.read rest k

/-- Put `v` at key `k`. -/
def Memory.write : Memory → Nat → Byte → Memory
  | [], k, v => [(k, v)]
  | (a, b) :: rest, k, v =>
    if k < a then (k, v) :: (a, b) :: rest
    else if k = a then (k, v) :: rest
    else (a, b) :: Memory.write rest k v

/-- Make key `k` hold `none`. -/
def Memory.clear (m : Memory) (k : Nat) : Memory := m.filter fun c => c.1 != k

/-- The canonical form: keys strictly rising. (No entry can equal what an unlisted key reads as, since that is `none`.) -/
abbrev Memory.wf (m : Memory) : Prop := m.Pairwise fun c d => c.1 < d.1

/-- The memory of a name. -/
def Mems.get (m : Mems) : Space → Memory
  | .shard => m.shard
  | .temp => m.temp
  | .matA => m.matA
  | .matB => m.matB
  | .matC => m.matC
  | .idxIn => m.idxIn
  | .idxOut => m.idxOut
  | .gen => m.gen

/-- The memories with one of them replaced. -/
def Mems.put (m : Mems) (space : Space) (x : Memory) : Mems :=
  match space with
  | .shard => { m with shard := x }
  | .temp => { m with temp := x }
  | .matA => { m with matA := x }
  | .matB => { m with matB := x }
  | .matC => { m with matC := x }
  | .idxIn => { m with idxIn := x }
  | .idxOut => { m with idxOut := x }
  | .gen => { m with gen := x }

/-- Every memory is in canonical form. -/
abbrev Mems.wf (m : Mems) : Prop :=
  Memory.wf m.shard ∧ Memory.wf m.temp ∧ Memory.wf m.matA ∧ Memory.wf m.matB ∧ Memory.wf m.matC
    ∧ Memory.wf m.idxIn ∧ Memory.wf m.idxOut ∧ Memory.wf m.gen

/-- LMAX of this machine. -/
def State.lmax (s : State) : Nat := s.params.lmax

/-- GEN holds an element at `a` exactly when it is configured and `a` lies in N × K (10_state.md R42). -/
def State.genHolds (s : State) (a : Addr) : Bool :=
  s.regs.status.cfgValid && a.row < s.regs.tsc.toNat && a.col < s.regs.dsc.toNat

/-- The content of a byte: a Byte, or `none` (00_scope.md R16; 10_state.md R42 for GEN). -/
def State.byteAt (s : State) (space : Space) (a : Addr) : Option Byte :=
  if space = .gen ∧ s.genHolds a = false then none else Memory.read (s.mems.get space) (addrKey a)

/-- `MemRead(space, addr, 1)` (00_scope.md R16). -/
def State.memRead (s : State) (space : Space) (a : Addr) : Except Stop Byte :=
  match s.byteAt space a with
  | some v => .ok v
  | none => .error (.fault (.unwrittenRead space a))

/-- `MemWrite(space, addr, 1, v)` (00_scope.md R16). -/
def State.memWrite (s : State) (space : Space) (a : Addr) (v : Byte) : State :=
  { s with mems := s.mems.put space (Memory.write (s.mems.get space) (addrKey a) v) }

/-- Make a byte hold `none` (43_coding_loop.md R208). -/
def State.memClear (s : State) (space : Space) (a : Addr) : State :=
  { s with mems := s.mems.put space (Memory.clear (s.mems.get space) (addrKey a)) }

/-- Do `f` for each element in order, keep the results, and stop at the first stop. -/
def collect {α β ε : Type} (f : α → Except ε β) : List α → Except ε (List β)
  | [] => .ok []
  | a :: rest =>
    match f a with
    | .error e => .error e
    | .ok b =>
      match collect f rest with
      | .error e => .error e
      | .ok bs => .ok (b :: bs)

/-- Read `space[row][col0 .. col0 + cols)`. -/
def State.readLine (s : State) (space : Space) (row col0 cols : Nat) : Except Stop (List Byte) :=
  collect (fun c => s.memRead space ⟨row, col0 + c⟩) (List.range cols)

/-- Write each byte of a list of addressed bytes. Commands write each byte at most once (20_memory.md R78), so the order
does not matter. -/
def State.writeAll (s : State) (space : Space) (l : List (Addr × Byte)) : State :=
  l.foldr (fun w t => t.memWrite space w.1 w.2) s

/-- Make each byte of a list of addresses hold `none`. -/
def State.clearAll (s : State) (space : Space) (l : List Addr) : State :=
  l.foldr (fun a t => t.memClear space a) s

/-! ## Registers, interrupt -/

/-- What a read of register `j` returns (10_state.md R22). -/
def State.regWord (s : State) (j : Nat) : Word := s.regs.word s.lmax j

/-- IRQ = DONE ∧ IRQ_EN (10_state.md R47, 60_exceptions.md R281). -/
def State.irq (s : State) : Bool := s.regs.status.done && s.regs.irqEn

/-- STATUS.BUSY. -/
def State.busy (s : State) : Bool := s.regs.status.busy

/-! ## Issue, completion, reset -/

/-- An accepted CMD write of `w` (40_command_protocol.md R121). -/
def State.issue (s : State) (w : Word) : State :=
  { s with latch := w, regs := { s.regs with status := s.regs.status.issued } }

/-- Completion of a command that succeeded, its writes in place (40_command_protocol.md R126). -/
def State.completeOk (s : State) : State :=
  { s with regs := { s.regs with status := s.regs.status.succeeded } }

/-- `raise Error(e)`: what taking an error does, and all it does (40_command_protocol.md R126; 60_exceptions.md R273, R275).
The unit saves no pc or status, and changes no mode; the record is STATUS. -/
def State.raiseError (s : State) (e : ErrCode) : State :=
  { s with regs := { s.regs with status := s.regs.status.failed e } }

/-- The host's return from an error or a completion (60_exceptions.md R277): a STATUS write with bit 1 = 1. -/
def State.acknowledge (s : State) : State :=
  { s with regs := { s.regs with status := s.regs.status.hostWrite 2#32 } }

/-- Hardware or soft reset (70_reset_and_hazards.md R300): the unit's state goes to its reset values. The parameters and
FAULTS stay (10_state.md R48), and so do the hosts and the turns, which are no part of the unit. -/
def State.afterReset (s : State) : State :=
  { State.resetWith s.params with faults := s.faults, hosts := s.hosts, turns := s.turns }

/-- The state with a model fault recorded (10_state.md R48, 60_exceptions.md R285). -/
def State.recordFault (s : State) (f : Fault) : State := { s with faults := f :: s.faults }

/-! ## Command rules -/

/-- A check of a command rule: go on if `ok`, else raise the error (40_command_protocol.md R123). -/
def require (ok : Bool) (e : ErrCode) : Except Stop Unit :=
  if ok then .ok () else .error (.error e)

/-- A precondition of an internal primitive (42_matrix.md R172). -/
def requireSpec (ok : Bool) (what : String) : Except Stop Unit :=
  if ok then .ok () else .error (.fault (.specBug what))

/-- The end of the Unit step (40_command_protocol.md R124, R126): a rule that reached its end gives the state with all its
writes, completed; a rule that raised an error gives the state before it, with the error recorded; a rule that met a
model fault stops the machine (R127). -/
def finish (s : State) (r : Except Stop State) : Host.Outcome State Fault Refusal :=
  match r with
  | .ok t => .next t.completeOk
  | .error (.error e) => .next (s.raiseError e)
  | .error (.fault f) => .fault f

/-- Put a command's value in RESULT (10_state.md R28). -/
def State.setResult (s : State) (v : Byte) : State :=
  { s with regs := { s.regs with result := v } }

/-- `check_range` (43_coding_loop.md R203) on OFFSET, COUNT and SLEN. -/
def State.checkRange (s : State) : Except Stop Unit :=
  require (rangeLegal s.lmax s.regs.off s.regs.cnt s.regs.slen.toNat) .rangeError

/-- `check_temp` (43_coding_loop.md R208), done only when USE_TEMP = 1. -/
def State.checkTemp (s : State) (useTemp : Bool) : Except Stop Unit :=
  require (!useTemp || tempLegal s.lmax s.regs.off s.regs.cnt s.regs.tlen.toNat) .rangeError

/-- `TEMP[b] <- none` for off ≤ b < off + cnt, done only when `used` (43_coding_loop.md R208). -/
def State.spoilTemp (s : State) (used : Bool) (off cnt : Nat) : State :=
  if used then s.clearAll .temp ((List.range cnt).map fun b => ⟨0, off + b⟩) else s

end Sys2Proof.Machine
end

