-- ==== Sys2Proof/Machine/HostPort.lean ====
section
/-! DEFINITION. What a host access does to the unit: the primitives of 20_memory.md R61, bus accesses (R63 to R67), and
what 70_reset_and_hazards.md R310 allows while a command is in flight. No read has a side effect (R69). -/

namespace Sys2Proof.Machine

/-- Registers a host may read while BUSY = 1: ID, STATUS, LMAXR (70_reset_and_hazards.md R310). -/
def readableWhileBusy (j : Nat) : Bool := j == 0 || j == 2 || j == 30

/-- Registers a host may write while BUSY = 1: CTRL and STATUS (70_reset_and_hazards.md R310). -/
def writableWhileBusy (j : Nat) : Bool := j == 1 || j == 2

/-- `HostRegRead(j)` (R61). -/
def hostRegRead (s : State) (j : Nat) : Except Fault Word :=
  if 32 ≤ j then .error (.badAddress (.reg j))
  else if s.busy && !readableWhileBusy j then .error (.hostAccessWhileBusy (.reg j))
  else .ok (s.regWord j)

/-- `HostRegWrite(j, w)` (R61). The writes with side effects are CMD (40_command_protocol.md R121) and CTRL with SRST
(10_state.md R25), whose IRQ_EN bit is then discarded; STATUS clears DONE (10_state.md R26). -/
def hostRegWrite (s : State) (j : Nat) (w : Word) : Except Fault State :=
  if 32 ≤ j then .error (.badAddress (.reg j))
  else if j = 3 then
    if s.busy then .error .cmdWhileBusy else .ok (s.issue w)
  else if s.busy && !writableWhileBusy j then .error (.hostAccessWhileBusy (.reg j))
  else if j = 1 && w.getLsbD 1 then .ok s.afterReset
  else .ok { s with regs := s.regs.hostWrite j w }

/-- `HostMemRead(space, addr)` (R61). -/
def hostMemRead (s : State) (space : Space) (a : Addr) : Except Fault Byte :=
  if !legalAddr s.lmax space a then .error (.badAddress (.mem space a))
  else if s.busy then .error (.hostAccessWhileBusy (.mem space a))
  else
    match s.byteAt space a with
    | none => .error (.unwrittenRead space a)
    | some v => .ok v

/-- `HostMemWrite(space, addr, v)` (R61); GEN is read-only to hosts. -/
def hostMemWrite (s : State) (space : Space) (a : Addr) (v : Byte) : Except Fault State :=
  if !legalAddr s.lmax space a then .error (.badAddress (.mem space a))
  else if s.busy then .error (.hostAccessWhileBusy (.mem space a))
  else if space = .gen then .ok s
  else .ok (s.memWrite space a v)

/-! ## Bus accesses -/

/-- The byte a window maps a bus address to (R66). -/
def PortWindow.target (p : PortWindow) (addr : Nat) : Option (Space × Addr) :=
  if p.base ≤ addr ∧ addr < p.base + p.rows * p.cols then
    some (p.space, ⟨p.row0 + (addr - p.base) / p.cols, p.col0 + (addr - p.base) % p.cols⟩)
  else none

/-- The byte a bus address is mapped to (R66). -/
def busTarget (p : Platform) (addr : Nat) : Option (Space × Addr) :=
  p.ports.findSome? fun w => PortWindow.target w addr

/-- The bus address lies in the register block, 32 words from REG_BASE (10_state.md R22). -/
def inRegBlock (p : Platform) (addr : Nat) : Bool := p.regBase ≤ addr && addr < p.regBase + 128

/-- The rows and columns of a memory (20_memory.md R60). -/
def spaceRows : Space → Nat
  | .shard => 256
  | .temp => 1
  | .matA => 256
  | .matB => 256
  | .matC => 256
  | .idxIn => 1
  | .idxOut => 1
  | .gen => 256

/-- See `spaceRows`; LMAX is the length of a slot and of the temp buffer. -/
def spaceCols (lmax : Nat) : Space → Nat
  | .shard => lmax
  | .temp => lmax
  | .matA => 256
  | .matB => 256
  | .matC => 256
  | .idxIn => 256
  | .idxOut => 256
  | .gen => 255

/-- Two half-open ranges, given by start and length, share no number. -/
def apart (a n b m : Nat) : Bool := a + n ≤ b || b + m ≤ a

/-- No byte and no bus address belongs to both windows. -/
def windowsApart (v w : PortWindow) : Bool :=
  apart v.base (v.rows * v.cols) w.base (w.rows * w.cols)
    && (v.space != w.space || apart v.row0 v.rows w.row0 w.rows || apart v.col0 v.cols w.col0 w.cols)

/-- What R66 asks of a bus map: it is injective and overlaps no register, and it names bytes of the memories only. The
accesses below have a meaning on any map; on one that R66 does not allow they mean nothing. -/
def platformLegal (lmax : Nat) (p : Platform) : Prop :=
  p.ports.Pairwise (fun v w => windowsApart v w = true)
    ∧ ∀ w ∈ p.ports, apart p.regBase 128 w.base (w.rows * w.cols) = true
        ∧ w.row0 + w.rows ≤ spaceRows w.space ∧ w.col0 + w.cols ≤ spaceCols lmax w.space

/-- The register index of an access to the register block: 32 bits wide (R64) and at a multiple of 4 (R65). Width is tested
before alignment, and both before BUSY (R310): a DESIGN CHOICE, since the spec orders no faults (log 8). -/
def busRegIndex (p : Platform) (addr size : Nat) : Except Fault Nat :=
  if size ≠ 4 then .error (.badAccessWidth (addr - p.regBase) size)
  else if (addr - p.regBase) % 4 ≠ 0 then .error (.misaligned (addr - p.regBase) size)
  else .ok ((addr - p.regBase) / 4)

/-- One byte of a bus read (R67). A byte of the register block is narrower than a register (R64). -/
def busByteRead (s : State) (addr : Nat) : Except Fault Byte :=
  if inRegBlock s.params.platform addr then .error (.badAccessWidth (addr - s.params.platform.regBase) 1)
  else match busTarget s.params.platform addr with
  | none => .error (.badAddress (.bus addr))
  | some (space, a) => hostMemRead s space a

/-- One byte of a bus write (R67). -/
def busByteWrite (s : State) (addr : Nat) (v : Byte) : Except Fault State :=
  if inRegBlock s.params.platform addr then .error (.badAccessWidth (addr - s.params.platform.regBase) 1)
  else match busTarget s.params.platform addr with
  | none => .error (.badAddress (.bus addr))
  | some (space, a) => hostMemWrite s space a v

/-- The number whose little-endian bytes are given (R67: the byte at the lowest address takes bits [7:0]). -/
def valueOfBytes : List Byte → Nat
  | [] => 0
  | b :: rest => b.toNat + 256 * valueOfBytes rest

/-- Byte `t` of a number, little-endian (R67). -/
def byteOfValue (value t : Nat) : Byte := BitVec.ofNat 8 (value / 256 ^ t)

/-- Byte writes at increasing addresses, each a primitive of its own (R67). -/
def busWriteBytes (s : State) (addr value : Nat) : List Nat → Except Fault State
  | [] => .ok s
  | t :: rest =>
    match busByteWrite s (addr + t) (byteOfValue value t) with
    | .error f => .error f
    | .ok s' => busWriteBytes s' addr value rest

/-- A bus read of `size` bytes at a bus address (R63 to R67), with no other step between its bytes. Width and alignment are
tested before BUSY (log 8). -/
def hostBusRead (s : State) (addr size : Nat) : Except Fault Nat :=
  if size = 0 then .error (.badAccessWidth addr size)
  else if inRegBlock s.params.platform addr then
    match busRegIndex s.params.platform addr size with
    | .error f => .error f
    | .ok j =>
      match hostRegRead s j with
      | .error f => .error f
      | .ok w => .ok w.toNat
  else
    match collect (fun t => busByteRead s (addr + t)) (List.range size) with
    | .error f => .error f
    | .ok bs => .ok (valueOfBytes bs)

/-- A bus write of `size` bytes at a bus address (R63 to R67), with no other step between its bytes. Width and alignment are
tested before BUSY (log 8). -/
def hostBusWrite (s : State) (addr size value : Nat) : Except Fault State :=
  if size = 0 then .error (.badAccessWidth addr size)
  else if inRegBlock s.params.platform addr then
    match busRegIndex s.params.platform addr size with
    | .error f => .error f
    | .ok j => hostRegWrite s j (BitVec.ofNat 32 value)
  else busWriteBytes s addr value (List.range size)

/-! ## Any access -/

/-- The primitive that moves byte `k` of a wide access to the byte memories, itself a one-byte access: such an access is one
primitive for each of its bytes, not one step (R67, R72). Any other access is one primitive. -/
def HostAccess.piece (p : Platform) (k : Nat) : HostAccess → Option HostAccess
  | .busRead addr size =>
    if size = 0 || inRegBlock p addr then none else some (.busRead (addr + k) 1)
  | .busWrite addr size value =>
    if size = 0 || inRegBlock p addr then none else some (.busWrite (addr + k) 1 (byteOfValue value k).toNat)
  | .regRead _ => none
  | .regWrite _ _ => none
  | .memRead _ _ => none
  | .memWrite _ _ _ => none

/-- How many bytes an access moves. -/
def HostAccess.size : HostAccess → Nat
  | .busRead _ size => size
  | .busWrite _ size _ => size
  | .regRead _ => 4
  | .regWrite _ _ => 4
  | .memRead _ _ => 1
  | .memWrite _ _ _ => 1

/-- An access with no other step in it: the state after it, and the value it reads. -/
def hostAccess (s : State) : HostAccess → Except Fault (State × Option Nat)
  | .regRead j =>
    match hostRegRead s j with
    | .error f => .error f
    | .ok w => .ok (s, some w.toNat)
  | .regWrite j w =>
    match hostRegWrite s j w with
    | .error f => .error f
    | .ok t => .ok (t, none)
  | .memRead space a =>
    match hostMemRead s space a with
    | .error f => .error f
    | .ok v => .ok (s, some v.toNat)
  | .memWrite space a v =>
    match hostMemWrite s space a v with
    | .error f => .error f
    | .ok t => .ok (t, none)
  | .busRead addr size =>
    match hostBusRead s addr size with
    | .error f => .error f
    | .ok v => .ok (s, some v)
  | .busWrite addr size value =>
    match hostBusWrite s addr size value with
    | .error f => .error f
    | .ok t => .ok (t, none)

end Sys2Proof.Machine
end

