-- ==== Sys2Proof/Machine/HostAgent.lean ====
section
/-! DEFINITION. A host's step: the next statement of its program (30_encoding.md R100). -/

namespace Sys2Proof.Machine

/-- The value a host last read under a name. -/
def HostProc.valueOf (p : HostProc) (name : Nat) : Option Nat :=
  (p.vals.find? fun v => v.1 == name).map Prod.snd

/-- A host past an access, with the value it read, if any. -/
def HostProc.past (p : HostProc) (name : Nat) (v : Option Nat) : HostProc :=
  { p with
    pc := p.pc + 1
    moved := []
    vals := match v with | none => p.vals | some x => (name, x) :: p.vals }

/-- A host past one more byte of an access of `size` bytes: past the access with the last one. Byte t of a read is bits
[8t+7 : 8t] of its value (20_memory.md R67); a write keeps only how many bytes it has moved. -/
def HostProc.pastByte (p : HostProc) (name size : Nat) (v : Option Nat) : HostProc :=
  if p.moved.length + 1 < size then { p with moved := p.moved ++ [BitVec.ofNat 8 (v.getD 0)] }
  else p.past name (v.map fun x => valueOfBytes p.moved + 256 ^ p.moved.length * x)

/-- A host past a `bnz` on a value (R100). -/
def HostProc.branch (p : HostProc) (v bit target : Nat) : HostProc :=
  { p with pc := if v.testBit bit then target else p.pc + 1 }

/-- A host still has a statement to run. -/
def HostProc.ready (p : HostProc) : Bool := p.pc < p.prog.length

/-- The state with host `h` replaced. -/
def State.setHost (s : State) (h : Nat) (p : HostProc) : State := { s with hosts := s.hosts.set h p }

/-- The step of host `h`: its next primitive (20_memory.md R61), which is its next access or the next byte of a wide one
(R67), or a branch. A host that does not exist or is at the end of its program leaves the machine as it is. -/
def hostStep (h : Nat) (s : State) : Host.Outcome State Fault Refusal :=
  match s.hosts[h]? with
  | none => .next s
  | some p =>
    match p.prog[p.pc]? with
    | none => .next s
    | some (.access name a) =>
      match a.piece s.params.platform p.moved.length with
      | none =>
        match hostAccess s a with
        | .error f => .fault f
        | .ok (t, v) => .next (t.setHost h (p.past name v))
      | some b =>
        match hostAccess s b with
        | .error f => .fault f
        | .ok (t, v) => .next (t.setHost h (p.pastByte name a.size v))
    | some (.bnz name bit target) =>
      match p.valueOf name with
      | none => .refused (.hostValueUnbound name)
      | some v => .next (s.setHost h (p.branch v bit target))

end Sys2Proof.Machine
end

