-- ==== Sys2Proof/Machine/Turns.lean ====
section
/-! DEFINITION. Who takes the next step (20_memory.md R72, R73; 40_command_protocol.md R125). The spec leaves the
interleaving open but for weak fairness; `turns` is any finite choice of it, after which the Unit finishes a command in
flight before a host goes on (log 5). -/

namespace Sys2Proof.Machine

/-- The next agent once the chosen turns are used up: the Unit while a command is in flight, else the first host with a
statement left, else the Unit, which is idle. -/
def State.defaultTurn (s : State) : Turn :=
  if s.busy then .unit
  else
    match s.hosts.findIdx? HostProc.ready with
    | some h => .host h
    | none => .unit

/-- The agent that takes the next step. -/
def State.nextTurn (s : State) : Turn :=
  match s.turns with
  | t :: _ => t
  | [] => s.defaultTurn

/-- The state with the turn that is being taken used up. -/
def State.popTurn (s : State) : State := { s with turns := s.turns.tail }

/-- The state in which the Unit has the next turn, with a command in flight whose word is `w`: what an accepted CMD write
of `w` leaves (R121), and no host step before the Unit step. -/
def State.offer (s : State) (w : Word) : State :=
  let t := s.issue w
  { t with turns := .unit :: t.turns }

end Sys2Proof.Machine
end

