-- ==== Sys2Proof/Machine/Field.lean ====
section
/-! DEFINITION. GF(2^8) with p(x) = x^8 + x^4 + x^3 + x^2 + 1 (41_gf_arith.md R140 to R146): the ROM tables, the field
operations, and the polynomial product they realise. -/

namespace Sys2Proof.Machine

/-! ## Tables (R141, R142, R156) -/

/-- The rows of R156's EXP table, as printed there: sixteen entries to a row, entry +0 the most significant byte. The
last cell, which the table leaves empty, is never read. -/
def expRows : List Nat :=
  [ 0x01020408102040801D3A74E8CD871326
  , 0x4C982D5AB475EAC98F03060C183060C0
  , 0x9D274E9C254A94356AD4B577EEC19F23
  , 0x468C050A142850A05DBA69D2B96FDEA1
  , 0x5FBE61C2992F5EBC65CA890F1E3C78F0
  , 0xFDE7D3BB6BD6B17FFEE1DFA35BB671E2
  , 0xD9AF4386112244880D1A3468D0BD67CE
  , 0x811F3E7CF8EDC7933B76ECC5973366CC
  , 0x85172E5CB86DDAA94F9E214284152A54
  , 0xA84D9A2952A455AA49923972E4D5B773
  , 0xE6D1BF63C6913F7EFCE5D7B37BF6F1FF
  , 0xE3DBAB4B963162C495376EDCA557AE41
  , 0x82193264C88D070E1C3870E0DDA753A6
  , 0x51A259B279F2F9EFC39B2B56AC458A09
  , 0x122448903D7AF4F5F7F3FBEBCB8B0B16
  , 0x2C58B07DFAE9CF831B366CD8AD478E00 ]

/-- The rows of R156's LOG table, as printed there. The first cell, LOG[0], has no value and is never read. -/
def logRows : List Nat :=
  [ 0x0000011902321AC603DF33EE1B68C74B
  , 0x0464E00E348DEF811CC169F8C8084C71
  , 0x058A652FE1240F2135938EDAF0128245
  , 0x1DB5C27D6A27F9B9C99A09784DE472A6
  , 0x06BF8B6266DD30FDE29825B310912288
  , 0x36D094CE8F96DBBDF1D2135C83384640
  , 0x1E42B6A3C3487E6E6B3A2854FA85BA3D
  , 0xCA5E9B9F0A15792B4ED4E5AC73F3A757
  , 0x0770C0F78C80630D674ADEED31C5FE18
  , 0xE3A5997726B8B47C114492D92320892E
  , 0x373FD15B95BCCFCD908797B2DCFCBE61
  , 0xF256D3AB142A5D9E843C3953476D41A2
  , 0x1F2D43D8B77BA476C41749EC7F0C6FF6
  , 0x6CA13B52299D55AAFB6086B1BBCC3E5A
  , 0xCB595FB09CA9A0510BF516EB7A752CD7
  , 0x4FAED5E9E6E7ADE874D6F4EAA85058AF ]

/-- Entry `i` of a table printed in rows of sixteen bytes. -/
def tableEntry (rows : List Nat) (i : Nat) : Nat :=
  (rows.getD (i / 16) 0 >>> (8 * (15 - i % 16))) % 256

/-- EXP[i] (R141): entries from 255 on repeat. -/
def expTab (i : Nat) : Byte := BitVec.ofNat 8 (tableEntry expRows (i % 255))

/-- LOG[a] (R141): no value for a = 0. -/
def logTab (a : Byte) : Option Nat := if a = 0#8 then none else some (tableEntry logRows a.toNat)

/-! ## Field operations (R143 to R146) -/

/-- R143. -/
def gfAdd (a b : Byte) : Byte := a ^^^ b

/-- R143. -/
def gfSub (a b : Byte) : Byte := a ^^^ b

/-- R144: 0 if either is 0, else EXP[LOG[a] + LOG[b]]. -/
def gfMul (a b : Byte) : Byte :=
  match logTab a, logTab b with
  | some i, some j => expTab (i + j)
  | _, _ => 0#8

/-- MULTAB[a][b] (R142): the precomputed product of every byte pair. -/
def mulTab (a b : Byte) : Byte := gfMul a b

/-- The product by the path METHOD names (R150): 0 reads MULTAB, 1 goes through LOG and EXP. -/
def mulBy : Method → Byte → Byte → Byte
  | .table => mulTab
  | .exp => gfMul

/-- R145: no value (the error DIV_BY_ZERO) if b = 0, whatever a is. -/
def gfDiv (a b : Byte) : Option Byte :=
  match logTab b with
  | none => none
  | some j =>
    match logTab a with
    | none => some 0#8
    | some i => some (expTab (i + 255 - j))

/-- R146. -/
def gfExp (a : Byte) (n : Nat) : Byte :=
  if n = 0 then 1#8
  else
    match logTab a with
    | none => 0#8
    | some i => expTab (i * n % 255)

/-- `⊕_{i<n} f(i)` (00_scope.md R15). -/
def xorSum (n : Nat) (f : Nat → Byte) : Byte :=
  match n with
  | 0 => 0#8
  | k + 1 => xorSum k f ^^^ f k

/-! ## The polynomial product (R140) -/

/-- The product of two polynomials over GF(2), bit i the coefficient of x^i. -/
def polyProduct (a b : Byte) : BitVec 16 :=
  (List.range 8).foldl
    (fun p i => if b.getLsbD i then p ^^^ (a.setWidth 16 <<< i) else p) 0#16

/-- The remainder of a polynomial of degree at most 14 modulo p(x) = 0x11D: cancel x^14 down to x^8. -/
def polyReduce (p : BitVec 16) : Byte :=
  ([6, 5, 4, 3, 2, 1, 0].foldl
    (fun q i => if q.getLsbD (i + 8) then q ^^^ (0x11D#16 <<< i) else q) p).setWidth 8

/-- Multiplication in the field as R140 gives it: polynomial multiplication modulo 0x11D. -/
def polyMul (a b : Byte) : Byte := polyReduce (polyProduct a b)

end Sys2Proof.Machine
end

