-- ==== Sys2Proof/Machine/Mat.lean ====
section
/-! DEFINITION. Matrix values and the internal primitives on them (42_matrix.md R170 to R179), and the blocks of bytes
that commands read as matrices and write from them (R181). -/

namespace Sys2Proof.Machine

/-- `Mat(r, c)`: rows of bytes, row-major, indexed from 0 (R170; 00_scope.md R18). `Mat.wf` is R170's invariant. -/
structure Mat where
  rows : Nat
  cols : Nat
  data : List (List Byte)
deriving DecidableEq, Repr

/-- Element `(i, j)` of a list of rows. -/
def cell (w : List (List Byte)) (i j : Nat) : Byte := (w.getD i []).getD j 0#8

/-- Element `[r][c]` of a matrix, for r, c within it. -/
def Mat.entry (A : Mat) (r c : Nat) : Byte := cell A.data r c

/-- The matrix with given elements. -/
def Mat.of (rows cols : Nat) (f : Nat → Nat → Byte) : Mat where
  rows := rows
  cols := cols
  data := (List.range rows).map fun r => (List.range cols).map fun c => f r c

/-- R170: at least one row and one column, and every row has exactly `cols` elements. Every matrix a command builds is of
this form: `State.readBlock` and the primitives below that check their precondition give no other. -/
def Mat.wf (A : Mat) : Bool :=
  1 ≤ A.rows && 1 ≤ A.cols && A.data.length == A.rows && A.data.all fun row => row.length == A.cols

/-! ## Primitives -/

/-- `zero(r, c)` (R171). -/
def Mat.zero (r c : Nat) : Mat := Mat.of r c fun _ _ => 0#8

/-- `identity(n)` (R171). -/
def Mat.identity (n : Nat) : Mat := Mat.of n n fun i j => if i = j then 1#8 else 0#8

/-- `get(A, r, c)` with its bounds check (R172). -/
def Mat.get (A : Mat) (r c : Nat) : Except Stop Byte := do
  requireSpec (r < A.rows && c < A.cols) "get"
  .ok (A.entry r c)

/-- The matrix with element `[r][c]` replaced. -/
def Mat.update (A : Mat) (r c : Nat) (v : Byte) : Mat :=
  { A with data := A.data.set r ((A.data.getD r []).set c v) }

/-- `set(A, r, c, v)` with its bounds check (R172). -/
def Mat.put (A : Mat) (r c : Nat) (v : Byte) : Except Stop Mat := do
  requireSpec (r < A.rows && c < A.cols) "set"
  .ok (A.update r c v)

/-- `mat_eq(A, B)` (R173). -/
def Mat.eqv (A B : Mat) : Bool := A.rows == B.rows && A.cols == B.cols && A.data == B.data

/-- `mat_mul(A, B)` where its precondition holds (R174). -/
def Mat.mul (A B : Mat) : Mat :=
  Mat.of A.rows B.cols fun r c => xorSum A.cols fun i => gfMul (A.entry r i) (B.entry i c)

/-- `mat_mul` with its precondition cols(A) = rows(B) (R174, R172). -/
def matMul (A B : Mat) : Except Stop Mat := do
  requireSpec (A.cols == B.rows) "mat_mul"
  .ok (A.mul B)

/-- `augment(A, B)` where its precondition holds (R175). -/
def Mat.augment (A B : Mat) : Mat :=
  Mat.of A.rows (A.cols + B.cols) fun r c => if c < A.cols then A.entry r c else B.entry r (c - A.cols)

/-- `augment` with its precondition rows(A) = rows(B) (R175, R172). -/
def matAugment (A B : Mat) : Except Stop Mat := do
  requireSpec (A.rows == B.rows) "augment"
  .ok (A.augment B)

/-- `submatrix(A, rmin, cmin, rmax, cmax)` where its precondition holds (R176). -/
def Mat.submatrix (A : Mat) (rmin cmin rmax cmax : Nat) : Mat :=
  Mat.of (rmax - rmin) (cmax - cmin) fun r c => A.entry (rmin + r) (cmin + c)

/-- `submatrix` with its precondition rmin < rmax ≤ rows(A), cmin < cmax ≤ cols(A) (R176, R172). -/
def matSubmatrix (A : Mat) (rmin cmin rmax cmax : Nat) : Except Stop Mat := do
  requireSpec (rmin < rmax && rmax ≤ A.rows && cmin < cmax && cmax ≤ A.cols) "submatrix"
  .ok (A.submatrix rmin cmin rmax cmax)

/-- `row(A, r)` (R177). -/
def Mat.row (A : Mat) (r : Nat) : List Byte := A.data.getD r []

/-- The matrix of the named rows of A, in the order named (R177 for each row). -/
def Mat.pick (A : Mat) (is : List Nat) : Mat :=
  Mat.of is.length A.cols fun o c => A.entry (is.getD o 0) c

/-- The named rows of A as a matrix, with the preconditions that there is one (R170) and that they are rows of A (R172). -/
def matPick (A : Mat) (is : List Nat) : Except Stop Mat := do
  requireSpec (1 ≤ is.length && is.all fun i => i < A.rows) "row"
  .ok (A.pick is)

/-! ## Gauss–Jordan (R179), on the rows of the work matrix -/

/-- `swap_rows` (R178). -/
def swapRows (w : List (List Byte)) (r s : Nat) : List (List Byte) :=
  (w.set r (w.getD s [])).set s (w.getD r [])

/-- The pivot row of column r: r itself, else the smallest s > r with a nonzero element. -/
def pivotRow (w : List (List Byte)) (r : Nat) : Option Nat :=
  if cell w r r ≠ 0#8 then some r
  else (List.range' (r + 1) (w.length - (r + 1))).find? fun s => cell w s r != 0#8

/-- Multiply a row by f. -/
def scaleRow (f : Byte) (row : List Byte) : List Byte := row.map (gfMul f)

/-- Add f times the row `piv` to a row. -/
def addScaled (f : Byte) (row piv : List Byte) : List Byte :=
  List.zipWith (fun x p => x ^^^ gfMul f p) row piv

/-- Make the pivot of row r equal to 1. The pivot is not 0, so its inverse exists. -/
def normalizeRow (w : List (List Byte)) (r : Nat) : Option (List (List Byte)) :=
  if cell w r r = 1#8 then some w
  else
    match gfDiv 1#8 (cell w r r) with
    | none => none
    | some f => some (w.set r (scaleRow f (w.getD r [])))

/-- Clear column c in every row s that `sel` selects, with row c as the pivot row. -/
def eliminate (w : List (List Byte)) (c : Nat) (sel : Nat → Bool) : List (List Byte) :=
  w.mapIdx fun s row =>
    if sel s && row.getD c 0#8 != 0#8 then addScaled (row.getD c 0#8) row (w.getD c []) else row

/-- One turn of R179's first loop: swap if needed, normalise, below-diagonal pass. -/
def forwardStep (w : List (List Byte)) (r : Nat) : Option (List (List Byte)) :=
  match pivotRow w r with
  | none => none
  | some s =>
    match normalizeRow (swapRows w r s) r with
    | none => none
    | some v => some (eliminate v r fun t => decide (r < t))

/-- R179's first loop over the given pivot columns. -/
def forwardPass : List Nat → List (List Byte) → Option (List (List Byte))
  | [], w => some w
  | r :: rest, w =>
    match forwardStep w r with
    | none => none
    | some v => forwardPass rest v

/-- R179's second loop: the above-diagonal pass over the given columns. -/
def backwardPass (ds : List Nat) (w : List (List Byte)) : List (List Byte) :=
  ds.foldl (fun v d => eliminate v d fun s => decide (s < d)) w

/-- R179's two loops on an n × 2n work matrix; `none` is Singular. -/
def gaussJordan (n : Nat) (W : Mat) : Option Mat :=
  match forwardPass (List.range n) W.data with
  | none => none
  | some w => some ⟨n, 2 * n, backwardPass (List.range n) w⟩

/-- `invert(A)` where its preconditions hold (R179); `none` is Singular. -/
def Mat.invert (A : Mat) : Option Mat :=
  match gaussJordan A.rows (A.augment (Mat.identity A.rows)) with
  | none => none
  | some W => some (W.submatrix 0 A.rows A.rows (2 * A.rows))

/-- `invert` as the commands call it: the precondition that A is square and those of the primitives it uses (R172), and
Singular raised as the error SINGULAR (42_matrix.md R184, 44_reed_solomon.md R242). -/
def matInvert (A : Mat) : Except Stop Mat := do
  requireSpec (A.rows == A.cols) "invert"
  let W ← matAugment A (Mat.identity A.rows)
  match gaussJordan A.rows W with
  | none => .error (.error .singular)
  | some V => matSubmatrix V 0 A.rows A.rows (2 * A.rows)

/-! ## Blocks of memory as matrices -/

/-- The matrix whose row o is `space[rows[o]][col0 .. col0 + cols)` (R181: reading it faults if any byte is `none`). It has a
row and a column (R170). -/
def State.readBlock (s : State) (space : Space) (rows : List Nat) (col0 cols : Nat) : Except Stop Mat := do
  requireSpec (1 ≤ rows.length && 1 ≤ cols) "Mat"
  match collect (fun r => s.readLine space r col0 cols) rows with
  | .error e => .error e
  | .ok data => .ok ⟨rows.length, cols, data⟩

/-- `bank(X, r, c)` (R181). -/
def State.bank (s : State) (space : Space) (d : Dims) : Except Stop Mat :=
  s.readBlock space (List.range d.rows.toNat) 0 d.cols.toNat

/-- The addressed bytes of a matrix written so that its row o goes to `space[rows[o]]`, from column col0 on. -/
def blockBytes (rows : List Nat) (col0 : Nat) (A : Mat) : List (Addr × Byte) :=
  (List.range rows.length).flatMap fun o =>
    (List.range A.cols).map fun c => (⟨rows.getD o 0, col0 + c⟩, A.entry o c)

/-- Write a matrix so that its row o goes to `space[rows[o]]`, from column col0 on. -/
def State.writeBlock (s : State) (space : Space) (rows : List Nat) (col0 : Nat) (A : Mat) : State :=
  s.writeAll space (blockBytes rows col0 A)

end Sys2Proof.Machine
end

