-- ==== Sys2Proof/Machine/CodingLoop.lean ====
section
/-! DEFINITION. The matrix–vector engine (43_coding_loop.md): the kernels `code` and `check` (R200, R202) and the commands
MV_CODE and MV_CHECK (R206, R207). LOOP and METHOD are hints and change no result (R201), so the kernels are written as
R200 and R202 write them; Schedule.lean holds the loop nests the hints name. -/

namespace Sys2Proof.Machine

/-- `code` (R200): the rows of `rows` times the input slots' byte range, written over the output slots' byte range. The
rows and the input bytes are read only when cnt ≥ 1 and there is an output, and all of them before any write. -/
def State.code (s : State) (rows : Except Stop Mat) (ins outs : List Nat) (off cnt : Nat) :
    Except Stop State :=
  if cnt = 0 || outs.length = 0 then .ok s
  else do
    let R ← rows
    let X ← s.readBlock .shard ins off cnt
    let Y ← matMul R X
    .ok (s.writeBlock .shard outs off Y)

/-- `check` (R202): true when every output byte equals the byte `code` would write. Every operand byte is read, whatever
the outcome. -/
def State.check (s : State) (rows : Except Stop Mat) (ins outs : List Nat) (off cnt : Nat) :
    Except Stop Bool :=
  if cnt = 0 || outs.length = 0 then .ok true
  else do
    let R ← rows
    let X ← s.readBlock .shard ins off cnt
    let Y ← matMul R X
    let Z ← s.readBlock .shard outs off cnt
    .ok (Z.eqv Y)

/-- `mv_overlap` (R205): an output slot is an input slot, or an output slot is named twice. -/
def mvOverlap (ins outs : List Nat) : Bool :=
  outs.any (fun o => ins.contains o) || !decide outs.Nodup

/-- The first `n` entries of an index list, as slot indices (10_state.md R43). -/
def State.readIndices (s : State) (space : Space) (n : Nat) : Except Stop (List Nat) :=
  match s.readLine space 0 0 n with
  | .error e => .error e
  | .ok bs => .ok (bs.map BitVec.toNat)

/-- The rule of MV_CODE (R206). -/
def mvCodeRule (s : State) : Except Stop State := do
  require s.regs.mvcnt.legal .rangeError
  s.checkRange
  let ins ← s.readIndices .idxIn s.regs.mvcnt.inCount.toNat
  let outs ← s.readIndices .idxOut s.regs.mvcnt.outCount.toNat
  require (!mvOverlap ins outs) .overlap
  s.code (s.readBlock .matA (List.range outs.length) 0 ins.length) ins outs s.regs.off.toNat s.regs.cnt.toNat

/-- MV_CODE (R206). LOOP and METHOD are hints (R201). -/
def execMvCode (_loop : BitVec 3) (_method : Method) (s : State) : Host.Outcome State Fault Refusal :=
  finish s (mvCodeRule s)

/-- The rule of MV_CHECK (R207). -/
def mvCheckRule (useTemp : Bool) (s : State) : Except Stop State := do
  require s.regs.mvcnt.legal .rangeError
  s.checkRange
  s.checkTemp useTemp
  let ins ← s.readIndices .idxIn s.regs.mvcnt.inCount.toNat
  let outs ← s.readIndices .idxOut s.regs.mvcnt.outCount.toNat
  let same ← s.check (s.readBlock .matA (List.range outs.length) 0 ins.length) ins outs
    s.regs.off.toNat s.regs.cnt.toNat
  .ok ((s.setResult (if same then 1#8 else 0#8)).spoilTemp (useTemp && outs.length ≠ 0)
    s.regs.off.toNat s.regs.cnt.toNat)

/-- MV_CHECK (R207). LOOP and METHOD are hints (R201). -/
def execMvCheck (_loop : BitVec 3) (_method : Method) (useTemp : Bool) (s : State) :
    Host.Outcome State Fault Refusal :=
  finish s (mvCheckRule useTemp s)

end Sys2Proof.Machine
end

