-- ==== Sys2Proof/Machine/GfArith.lean ====
section
/-! DEFINITION. The scalar commands (41_gf_arith.md R148 to R154). -/

namespace Sys2Proof.Machine

/-- GF_ADD (R148). -/
def execGfAdd (s : State) : Host.Outcome State Fault Refusal :=
  finish s (.ok (s.setResult (gfAdd s.regs.opa s.regs.opb)))

/-- GF_SUB (R149). -/
def execGfSub (s : State) : Host.Outcome State Fault Refusal :=
  finish s (.ok (s.setResult (gfSub s.regs.opa s.regs.opb)))

/-- GF_MUL (R150). -/
def execGfMul (method : Method) (s : State) : Host.Outcome State Fault Refusal :=
  finish s (.ok (s.setResult (mulBy method s.regs.opa s.regs.opb)))

/-- GF_DIV (R151): DIV_BY_ZERO when b = 0. -/
def execGfDiv (s : State) : Host.Outcome State Fault Refusal :=
  finish s <|
    match gfDiv s.regs.opa s.regs.opb with
    | none => .error (.error .divByZero)
    | some q => .ok (s.setResult q)

/-- GF_EXP (R152): RANGE_ERROR when n < 0. -/
def execGfExp (s : State) : Host.Outcome State Fault Refusal :=
  finish s <| do
    require (0 ≤ s.regs.n) .rangeError
    .ok (s.setResult (gfExp s.regs.opa s.regs.n.toNat))

/-- GF_LOG (R153): LOG_OF_ZERO when a = 0. -/
def execGfLog (s : State) : Host.Outcome State Fault Refusal :=
  finish s <|
    match logTab s.regs.opa with
    | none => .error (.error .logOfZero)
    | some i => .ok (s.setResult (BitVec.ofNat 8 i))

/-- GF_ALOG (R154): RANGE_ERROR when i is outside 0..511. -/
def execGfAlog (s : State) : Host.Outcome State Fault Refusal :=
  finish s <| do
    require (0 ≤ s.regs.n && s.regs.n ≤ 511) .rangeError
    .ok (s.setResult (expTab s.regs.n.toNat))

end Sys2Proof.Machine
end

