-- ==== Sys2Proof/Machine/MatrixUnit.lean ====
section
/-! DEFINITION. The matrix engine's commands (42_matrix.md R180 to R185). -/

namespace Sys2Proof.Machine

/-- Write a result to MATC's top left rectangle and its shape to MDIMC (R182 to R185). -/
def State.storeResult (s : State) (C : Mat) : State :=
  let t := s.writeBlock .matC (List.range C.rows) 0 C
  { t with regs := { t.regs with
      mdimc := { rows := BitVec.ofNat 9 C.rows, cols := BitVec.ofNat 9 C.cols } } }

/-- The rule of MAT_MUL (R182). -/
def matMulRule (s : State) : Except Stop State := do
  require (s.regs.mdima.legal && s.regs.mdimb.legal) .shapeMismatch
  require (s.regs.mdima.cols == s.regs.mdimb.rows) .shapeMismatch
  let A ← s.bank .matA s.regs.mdima
  let B ← s.bank .matB s.regs.mdimb
  let C ← matMul A B
  .ok (s.storeResult C)

/-- MAT_MUL (R182). -/
def execMatMul (s : State) : Host.Outcome State Fault Refusal := finish s (matMulRule s)

/-- The rule of MAT_INV (R184). -/
def matInvRule (s : State) : Except Stop State := do
  require s.regs.mdima.legal .shapeMismatch
  require (s.regs.mdima.rows == s.regs.mdima.cols) .shapeMismatch
  let A ← s.bank .matA s.regs.mdima
  let R ← matInvert A
  .ok (s.storeResult R)

/-- MAT_INV (R184). -/
def execMatInv (s : State) : Host.Outcome State Fault Refusal := finish s (matInvRule s)

end Sys2Proof.Machine
end

