-- ==== Sys2Proof/Machine/Protocol.lean ====
section
/-! DEFINITION. The command protocol family (40_command_protocol.md): NOP, and the execution of an illegal word. -/

namespace Sys2Proof.Machine

/-- NOP (R129): no effect but completion. -/
def execNop (s : State) : Host.Outcome State Fault Refusal := finish s (.ok s)

/-- A word that is no command completes with ILLEGAL_COMMAND, and nothing else changes (R122; 30_encoding.md R95). -/
def execIllegal (s : State) : Host.Outcome State Fault Refusal :=
  finish s (.error (.error .illegalCommand))

end Sys2Proof.Machine
end

