-- ==== Sys2Proof/Machine/ReedSolomon.lean ====
section
/-! DEFINITION. The Reed–Solomon engine (44_reed_solomon.md): the generator matrix (R231, R232) and the commands RS_CONFIG,
RS_ENCODE, RS_CHECK and RS_DECODE (R233, R237, R238, R242). -/

namespace Sys2Proof.Machine

/-! ## Configuration -/

/-- The Vandermonde entry (R231): r taken as a field element under ROW_POW, the literal formula under GEN_POW. -/
def vand (mode : VandMode) (r c : Nat) : Byte :=
  match mode with
  | .rowPow => gfExp (BitVec.ofNat 8 r) c
  | .genPow => gfExp 0x02#8 (r * c)

/-- The n × k Vandermonde matrix (R232). -/
def vandMat (mode : VandMode) (n k : Nat) : Mat := Mat.of n k (vand mode)

/-- `build_G(k, m)` (R232). -/
def buildG (mode : VandMode) (k m : Nat) : Except Stop Mat := do
  let V := vandMat mode (k + m) k
  let T ← matSubmatrix V 0 0 k k
  let Ti ← matInvert T
  matMul V Ti

/-- `GEN <- G`: GEN takes the matrix, and its old contents are gone (R233). -/
def State.setGen (s : State) (G : Mat) : State :=
  { s with mems := s.mems.put .gen [] }.writeBlock .gen (List.range G.rows) 0 G

/-- The configuration RS_CONFIG leaves (R233). -/
def State.configure (s : State) (k m : Nat) (loop : BitVec 3) (method : Method) (G : Mat) : State :=
  let t := s.setGen G
  { t with regs := { t.regs with
      dsc := BitVec.ofNat 9 k
      psc := BitVec.ofNat 9 m
      tsc := BitVec.ofNat 9 (k + m)
      cfgstrat := { loop := loop, method := decide (method = .exp) }
      status := { t.regs.status with cfgValid := true } } }

/-- The rule of RS_CONFIG (R233). -/
def rsConfigRule (loop : BitVec 3) (method : Method) (s : State) : Except Stop State := do
  let k := sint32 s.regs.kreq
  let m := sint32 s.regs.mreq
  require (1 ≤ k && 1 ≤ m) .rangeError
  require (k + m ≤ 256) .tooManyShards
  let G ← buildG s.params.vandMode k.toNat m.toNat
  .ok (s.configure k.toNat m.toNat loop method G)

/-- RS_CONFIG (R233). -/
def execRsConfig (loop : BitVec 3) (method : Method) (s : State) : Host.Outcome State Fault Refusal :=
  finish s (rsConfigRule loop method s)

/-! ## Encode and check -/

/-- The active k, m and n (R230). -/
def State.k (s : State) : Nat := s.regs.dsc.toNat
def State.m (s : State) : Nat := s.regs.psc.toNat
def State.n (s : State) : Nat := s.regs.tsc.toNat

/-- `rs_ready()` (R236). -/
def State.rsReady (s : State) : Except Stop Unit := require s.regs.status.cfgValid .notConfigured

/-- The named rows of GEN (R230). -/
def State.genRows (s : State) (rows : List Nat) : Except Stop Mat := s.readBlock .gen rows 0 s.k

/-- The data slots `[0 .. k)`. -/
def State.dataSlots (s : State) : List Nat := List.range s.k

/-- The parity slots, `k + j` for j < m. -/
def State.paritySlots (s : State) : List Nat := List.range' s.k s.m

/-- The rule of RS_ENCODE (R237). -/
def rsEncodeRule (s : State) : Except Stop State := do
  s.rsReady
  s.checkRange
  s.code (s.genRows s.paritySlots) s.dataSlots s.paritySlots s.regs.off.toNat s.regs.cnt.toNat

/-- RS_ENCODE (R237). -/
def execRsEncode (s : State) : Host.Outcome State Fault Refusal := finish s (rsEncodeRule s)

/-- The rule of RS_CHECK (R238). -/
def rsCheckRule (useTemp : Bool) (s : State) : Except Stop State := do
  s.rsReady
  s.checkRange
  s.checkTemp useTemp
  let same ← s.check (s.genRows s.paritySlots) s.dataSlots s.paritySlots s.regs.off.toNat s.regs.cnt.toNat
  .ok ((s.setResult (if same then 1#8 else 0#8)).spoilTemp useTemp s.regs.off.toNat s.regs.cnt.toNat)

/-- RS_CHECK (R238). -/
def execRsCheck (useTemp : Bool) (s : State) : Host.Outcome State Fault Refusal :=
  finish s (rsCheckRule useTemp s)

/-! ## Decode -/

/-- The first k present slots, in increasing order (R240). -/
def State.chosen (s : State) : List Nat := (s.regs.presentList s.n).take s.k

/-- The rule of RS_DECODE (R242). Its second kernel reads the data slots as its first left them (R243). -/
def rsDecodeRule (s : State) : Except Stop State := do
  s.rsReady
  s.checkRange
  require (s.k ≤ (s.regs.presentList s.n).length) .notEnoughShards
  if (s.regs.presentList s.n).length = s.n then .ok s
  else do
    let S ← s.genRows s.chosen
    let D ← matInvert S
    let md := s.regs.missingList 0 s.k
    let mp := s.regs.missingList s.k s.n
    let t ← s.code (matPick D md) s.chosen md s.regs.off.toNat s.regs.cnt.toNat
    t.code (t.genRows mp) t.dataSlots mp s.regs.off.toNat s.regs.cnt.toNat

/-- RS_DECODE (R242). -/
def execRsDecode (s : State) : Host.Outcome State Fault Refusal := finish s (rsDecodeRule s)

end Sys2Proof.Machine
end

