-- ==== Sys2Proof/Machine/Dispatch.lean ====
section
/-! DEFINITION. The meaning of a command, one arm per constructor (30_encoding.md R92). -/

namespace Sys2Proof.Machine

def exec (i : Instr) (s : State) : Host.Outcome State Fault Refusal :=
  match i with
  | .nop => Sys2Proof.Machine.execNop s
  | .gfAdd => Sys2Proof.Machine.execGfAdd s
  | .gfSub => Sys2Proof.Machine.execGfSub s
  | .gfMul method => Sys2Proof.Machine.execGfMul method s
  | .gfDiv => Sys2Proof.Machine.execGfDiv s
  | .gfExp => Sys2Proof.Machine.execGfExp s
  | .gfLog => Sys2Proof.Machine.execGfLog s
  | .gfAlog => Sys2Proof.Machine.execGfAlog s
  | .matMul => Sys2Proof.Machine.execMatMul s
  | .matInv => Sys2Proof.Machine.execMatInv s
  | .mvCode loop method => Sys2Proof.Machine.execMvCode loop method s
  | .mvCheck loop method useTemp => Sys2Proof.Machine.execMvCheck loop method useTemp s
  | .rsConfig loop method => Sys2Proof.Machine.execRsConfig loop method s
  | .rsEncode => Sys2Proof.Machine.execRsEncode s
  | .rsCheck useTemp => Sys2Proof.Machine.execRsCheck useTemp s
  | .rsDecode => Sys2Proof.Machine.execRsDecode s

end Sys2Proof.Machine
end

