-- ==== Sys2Proof/Machine/UnitAgent.lean ====
section
/-! DEFINITION. The Unit's step (40_command_protocol.md R122, R124, R125). -/

namespace Sys2Proof.Machine

/-- The Unit step: enabled exactly when BUSY = 1 (R125); it decodes LATCH and executes the whole command (R122, R124).
While BUSY = 0 the Unit leaves the machine as it is (70_reset_and_hazards.md R304). -/
def unitStep (s : State) : Host.Outcome State Fault Refusal :=
  if s.busy then
    match decode s.latch with
    | .ok i => exec i s
    | .error _ => execIllegal s
  else .next s

end Sys2Proof.Machine
end

