-- ==== Sys2Proof/Machine/Step.lean ====
section
/-! DEFINITION. One step of the machine: one agent acts (20_memory.md R73). -/

namespace Sys2Proof.Machine

/-- One step. A state with a fault record has no next state (00_scope.md R17; 93_implementation_defined.md I25): it gives
that fault again. -/
def step (s : State) : Host.Outcome State Fault Refusal :=
  match s.faults with
  | f :: _ => .fault f
  | [] =>
    match s.nextTurn with
    | .unit => unitStep s.popTurn
    | .host h => hostStep h s.popTurn
    | .hwReset => .next s.popTurn.afterReset

/-- The state in which the next step runs the instruction of `nbits` bits with value `w`. The unit fetches nothing: a
command stands in LATCH while BUSY = 1 (10_state.md R45), so this is the state an accepted CMD write of the word leaves
(40_command_protocol.md R121), with the Unit's turn next (log 5). -/
def State.withFetchWord (s : State) (nbits w : Nat) : State :=
  s.offer (BitVec.ofNat 32 (w % 2 ^ nbits))

end Sys2Proof.Machine
end

