-- ==== Sys2Proof/Machine/Assembler.lean ====
section
/-! DEFINITION. The assembler's text for commands (30_encoding.md R99, R102), and host programs: the statements of R100 and
the pseudo-instructions of R101 as lists of host statements. A pseudo-instruction that waits takes the index of its first
statement, since its label is resolved to a statement index (log 6). -/

namespace Sys2Proof.Machine

/-! ## Commands (R99) -/

/-- `<loop>` of R99, by LOOP value. -/
def loopText (loop : BitVec 3) : String :=
  match LoopOrder.ofField loop with
  | some .iob => ".iob"
  | some .ibo => ".ibo"
  | some .oib => ".oib"
  | some .obi => ".obi"
  | some .bio => ".bio"
  | some .boi => ".boi"
  | none => ".reserved"

/-- The suffixes that stand for a LOOP value; an absent one is 0. -/
def loopSuffixes (loop : BitVec 3) : List String :=
  if loop = 0 then ["", loopText loop] else [loopText loop]

/-- The suffixes that stand for a METHOD value; an absent one is 0. -/
def methodSuffixes : Method → List String
  | .table => ["", ".tbl"]
  | .exp => [".exp"]

/-- The suffix that stands for a USE_TEMP value. -/
def tempSuffix : Bool → String
  | false => ""
  | true => ".temp"

/-- Every way to write a command (R99). -/
def spellings : Instr → List String
  | .nop => ["nop"]
  | .gfAdd => ["gf.add"]
  | .gfSub => ["gf.sub"]
  | .gfMul m => (methodSuffixes m).map fun x => "gf.mul" ++ x
  | .gfDiv => ["gf.div"]
  | .gfExp => ["gf.exp"]
  | .gfLog => ["gf.log"]
  | .gfAlog => ["gf.alog"]
  | .matMul => ["mat.mul"]
  | .matInv => ["mat.inv"]
  | .mvCode l m => (loopSuffixes l).flatMap fun x => (methodSuffixes m).map fun y => "mv.code" ++ x ++ y
  | .mvCheck l m t =>
    (loopSuffixes l).flatMap fun x => (methodSuffixes m).map fun y => "mv.check" ++ x ++ y ++ tempSuffix t
  | .rsConfig l m => (loopSuffixes l).flatMap fun x => (methodSuffixes m).map fun y => "rs.config" ++ x ++ y
  | .rsEncode => ["rs.encode"]
  | .rsCheck t => ["rs.check" ++ tempSuffix t]
  | .rsDecode => ["rs.decode"]

/-- The legal LOOP values (R93). -/
def loopValues : List (BitVec 3) := [0, 1, 2, 3, 4, 5]

/-- The METHOD values (R93). -/
def methodValues : List Method := [.table, .exp]

/-- Every pair of a legal LOOP and a METHOD. -/
def hintPairs : List (BitVec 3 × Method) :=
  loopValues.flatMap fun l => methodValues.map fun m => (l, m)

/-- Every well-formed command. -/
def allCommands : List Instr :=
  List.flatten
    [ [.nop, .gfAdd, .gfSub, .gfMul .table, .gfMul .exp, .gfDiv, .gfExp, .gfLog, .gfAlog, .matMul, .matInv]
    , hintPairs.map fun h => .mvCode h.1 h.2
    , hintPairs.map fun h => .mvCheck h.1 h.2 false
    , hintPairs.map fun h => .mvCheck h.1 h.2 true
    , hintPairs.map fun h => .rsConfig h.1 h.2
    , [.rsEncode, .rsCheck false, .rsCheck true, .rsDecode] ]

/-- The word of a command's text (R99). -/
def assemble (text : String) : Option Word :=
  (allCommands.find? fun i => (spellings i).contains text).map encode

/-! ## Host statements (R100) -/

/-- The register names of 10_state.md R22, in index order. -/
def regNames : List String :=
  ["ID", "CTRL", "STATUS", "CMD", "RESULT", "OPA", "OPB", "OPN", "OFFSET", "COUNT", "KREQ", "MREQ", "DSC", "PSC",
   "TSC", "CFGSTRAT", "SLEN", "TLEN", "MVCNT", "MDIMA", "MDIMB", "MDIMC", "PRESENT0", "PRESENT1", "PRESENT2",
   "PRESENT3", "PRESENT4", "PRESENT5", "PRESENT6", "PRESENT7", "LMAXR"]

/-- `idx(REG)` (R100); no index for a name that is no register's. -/
def regIndex (name : String) : Option Nat := regNames.findIdx? fun x => x == name

/-- The names under which the pseudo-instructions keep the values they read: STATUS under 0, RESULT under 1. -/
def statusName : Nat := 0
def resultName : Nat := 1

/-- `wr REG, imm32`. -/
def wr (j : Nat) (w : Word) : HostStmt := .access statusName (.regWrite j w)
/-- `rd REG → name`. -/
def rd (name j : Nat) : HostStmt := .access name (.regRead j)
/-- `wb SPACE[addr], imm8`. -/
def wb (space : Space) (a : Addr) (v : Byte) : HostStmt := .access statusName (.memWrite space a v)
/-- `rb SPACE[addr] → name`. -/
def rb (name : Nat) (space : Space) (a : Addr) : HostStmt := .access name (.memRead space a)

/-! ## Pseudo-instructions (R101) -/

/-- `wait`: poll STATUS until BUSY = 0. -/
def waitDone (p : Nat) : List HostStmt := [rd statusName 2, .bnz statusName 0 p]

/-- A bare command: one CMD write (R99). -/
def command (i : Instr) : List HostStmt := [wr 3 (encode i)]

/-- Write some registers, issue a command and wait. -/
def issueAndWait (p : Nat) (writes : List HostStmt) (i : Instr) : List HostStmt :=
  writes ++ command i ++ waitDone (p + writes.length + 1)

/-- `fill SPACE[i], off, v0, …`. -/
def fill (space : Space) (i off : Nat) (vs : List Byte) : List HostStmt :=
  vs.mapIdx fun t v => wb space ⟨i, off + t⟩ v

/-- `gf.add a, b`, and `gf.sub`, `gf.mul…`, `gf.div`. -/
def gfPairOp (p : Nat) (i : Instr) (a b : Word) : List HostStmt :=
  issueAndWait p [wr 5 a, wr 6 b] i ++ [rd resultName 4]

/-- `gf.exp a, n`. -/
def gfExpOp (p : Nat) (a n : Word) : List HostStmt :=
  issueAndWait p [wr 5 a, wr 7 n] .gfExp ++ [rd resultName 4]

/-- `gf.log a`. -/
def gfLogOp (p : Nat) (a : Word) : List HostStmt := issueAndWait p [wr 5 a] .gfLog ++ [rd resultName 4]

/-- `gf.alog i`. -/
def gfAlogOp (p : Nat) (i : Word) : List HostStmt := issueAndWait p [wr 7 i] .gfAlog ++ [rd resultName 4]

/-- `(hi << 16) | lo`. -/
def packPair (hi lo : Word) : Word := (hi <<< 16) ||| lo

/-- `mat.mul ar, ac, br, bc`. -/
def matMulOp (p : Nat) (ar ac br bc : Word) : List HostStmt :=
  issueAndWait p [wr 19 (packPair ac ar), wr 20 (packPair bc br)] .matMul

/-- `mat.inv n`. -/
def matInvOp (p : Nat) (n : Word) : List HostStmt := issueAndWait p [wr 19 (packPair n n)] .matInv

/-- `mv.code… in, out, off, cnt`, and `mv.check…`. -/
def mvOp (p : Nat) (i : Instr) (nIn nOut off cnt : Word) : List HostStmt :=
  issueAndWait p [wr 18 (packPair nOut nIn), wr 8 off, wr 9 cnt] i

/-- `rs.config… k, m`. -/
def rsConfigOp (p : Nat) (i : Instr) (k m : Word) : List HostStmt := issueAndWait p [wr 10 k, wr 11 m] i

/-- `rs.encode off, cnt`, and `rs.check…`, `rs.decode`. -/
def rsOp (p : Nat) (i : Instr) (off cnt : Word) : List HostStmt := issueAndWait p [wr 8 off, wr 9 cnt] i

end Sys2Proof.Machine
end

