-- ==== Sys2Proof/Machine/Schedule.lean ====
section
/-! DEFINITION. The reference loop nests of 43_coding_loop.md R210, one per LOOP value, with the multiply METHOD names.
They are what the hint fields stand for; no command is defined by them (R210: no rule depends on the schedule). -/

namespace Sys2Proof.Machine

/-- The points (i, o, b) of the three axes, in the order a loop nest visits them (30_encoding.md R93). -/
def visits (order : LoopOrder) (nIn nOut cnt : Nat) : List (Nat × Nat × Nat) :=
  let I := List.range nIn
  let O := List.range nOut
  let B := List.range cnt
  match order with
  | .iob => I.flatMap fun i => O.flatMap fun o => B.map fun b => (i, o, b)
  | .ibo => I.flatMap fun i => B.flatMap fun b => O.map fun o => (i, o, b)
  | .oib => O.flatMap fun o => I.flatMap fun i => B.map fun b => (i, o, b)
  | .obi => O.flatMap fun o => B.flatMap fun b => I.map fun i => (i, o, b)
  | .bio => B.flatMap fun b => I.flatMap fun i => O.map fun o => (i, o, b)
  | .boi => B.flatMap fun b => O.flatMap fun o => I.map fun i => (i, o, b)

/-- The body of the nest (R210): the first input assigns, every later one is XORed in. -/
def visit (method : Method) (R X : Mat) (acc : Mat) (p : Nat × Nat × Nat) : Mat :=
  let v := mulBy method (R.entry p.2.1 p.1) (X.entry p.1 p.2.2)
  acc.update p.2.1 p.2.2 (if p.1 = 0 then v else acc.entry p.2.1 p.2.2 ^^^ v)

/-- The accumulators a loop nest leaves, from accumulators of 0 (R210). -/
def scheduled (order : LoopOrder) (method : Method) (R X : Mat) : Mat :=
  (visits order X.rows R.rows X.cols).foldl (visit method R X) (Mat.zero R.rows X.cols)

end Sys2Proof.Machine
end

