-- ==== Sys2Proof/Safety.lean ====
section
/-! DEFINITION. The words that claims use: what a command leaves unchanged, how a command succeeds or fails, the invariant
of the machine, and safe runs. -/

namespace Sys2Proof.Machine

/-! ## Frames -/

/-- Every register reads as before, but for the listed indices. -/
def SameRegs (except : List Nat) (s t : State) : Prop :=
  ∀ j, j ∉ except → t.regWord j = s.regWord j

/-- Every byte of every memory reads as before, but for the listed memories. -/
def SameMems (except : List Space) (s t : State) : Prop :=
  ∀ space, space ∉ except → ∀ a, t.byteAt space a = s.byteAt space a

/-- What is no register and no memory is as before: the parameters, LATCH, FAULTS, the hosts and the turns. -/
def SameRest (s t : State) : Prop :=
  t.params = s.params ∧ t.latch = s.latch ∧ t.faults = s.faults ∧ t.hosts = s.hosts ∧ t.turns = s.turns

/-- Nothing changes but the listed registers and the listed memories. -/
def Frame (regs : List Nat) (mems : List Space) (s t : State) : Prop :=
  SameRegs regs s t ∧ SameMems mems s t ∧ SameRest s t

/-! ## Outcomes of a command -/

/-- STATUS field by field. -/
def StatusIs (t : State) (busy done err : Bool) (errcode : BitVec 4) (cfgValid : Bool) : Prop :=
  t.regs.status.busy = busy ∧ t.regs.status.done = done ∧ t.regs.status.err = err
    ∧ t.regs.status.errcode = errcode ∧ t.regs.status.cfgValid = cfgValid

/-- The command completes with success and leaves `t`: the success record of 40_command_protocol.md R126. -/
def SucceedsTo (i : Instr) (s t : State) : Prop :=
  exec i s = .next t ∧ StatusIs t false true false 0 s.regs.status.cfgValid

/-- The command completes with the error of number `code` (60_exceptions.md R270), and STATUS is all it writes (R273). -/
def FailsWith (i : Instr) (s : State) (code : BitVec 4) : Prop :=
  ∃ t, exec i s = .next t ∧ StatusIs t false true true code s.regs.status.cfgValid ∧ Frame [2] [] s t

/-- The command meets a byte that holds `none`, and the machine stops with that model fault (40_command_protocol.md R127). -/
def StopsUnwritten (i : Instr) (s : State) : Prop :=
  ∃ space a, exec i s = .fault (.unwrittenRead space a) ∧ s.byteAt space a = none

/-- The unit's registers and memories as reset leaves them (10_state.md R50): ID and LMAXR keep their constants, every
other register reads 0, every byte holds `none`, IRQ = 0. -/
def ResetValues (t : State) : Prop :=
  (∀ j, t.regWord j =
    if j = 0 then 0x47463238#32 else if j = 30 then BitVec.ofNat 32 t.lmax else 0#32)
    ∧ (∀ space a, t.byteAt space a = none) ∧ t.irq = false

/-! ## Operand conditions -/

/-- The byte range of OFFSET and COUNT is legal (43_coding_loop.md R203). -/
def RangeOk (s : State) : Prop :=
  s.regs.slen.toNat ≤ s.lmax ∧ 0 ≤ sint32 s.regs.offset ∧ 0 ≤ sint32 s.regs.count
    ∧ sint32 s.regs.offset + sint32 s.regs.count ≤ (s.regs.slen.toNat : Int)

/-- The temp buffer is large enough (43_coding_loop.md R208). -/
def TempOk (s : State) : Prop :=
  s.regs.tlen.toNat ≤ s.lmax ∧ sint32 s.regs.offset + sint32 s.regs.count ≤ (s.regs.tlen.toNat : Int)

/-- Byte position b lies in `[off, off + cnt)`. -/
def InRange (s : State) (b : Nat) : Prop :=
  sint32 s.regs.offset ≤ (b : Int) ∧ (b : Int) < sint32 s.regs.offset + sint32 s.regs.count

/-- The counts of MVCNT are legal (43_coding_loop.md R204). -/
def CountsOk (s : State) : Prop :=
  1 ≤ s.regs.mvcnt.inCount.toNat ∧ s.regs.mvcnt.inCount.toNat ≤ 256 ∧ s.regs.mvcnt.outCount.toNat ≤ 256

/-- A dimension register holds a legal dimension (42_matrix.md R180). -/
def DimsOk (d : Dims) : Prop :=
  1 ≤ d.rows.toNat ∧ d.rows.toNat ≤ 256 ∧ 1 ≤ d.cols.toNat ∧ d.cols.toNat ≤ 256

/-- `a^n` by n-fold repeated multiplication of polynomials modulo 0x11D (41_gf_arith.md R140, R146). -/
def polyPow (a : Byte) (n : Nat) : Byte := (fun x => polyMul x a)^[n] 1#8

/-! ## What each command may write (30_encoding.md R98) -/

/-- The registers besides STATUS that R98 lets a command write. -/
def writtenRegs : Instr → List Nat
  | .nop => []
  | .gfAdd => [4]
  | .gfSub => [4]
  | .gfMul _ => [4]
  | .gfDiv => [4]
  | .gfExp => [4]
  | .gfLog => [4]
  | .gfAlog => [4]
  | .matMul => [21]
  | .matInv => [21]
  | .mvCode _ _ => []
  | .mvCheck _ _ _ => [4]
  | .rsConfig _ _ => [12, 13, 14, 15]
  | .rsEncode => []
  | .rsCheck _ => [4]
  | .rsDecode => []

/-- The memories that R98 lets a command write. -/
def writtenMems : Instr → List Space
  | .nop => []
  | .gfAdd => []
  | .gfSub => []
  | .gfMul _ => []
  | .gfDiv => []
  | .gfExp => []
  | .gfLog => []
  | .gfAlog => []
  | .matMul => [.matC]
  | .matInv => [.matC]
  | .mvCode _ _ => [.shard]
  | .mvCheck _ _ useTemp => if useTemp then [.temp] else []
  | .rsConfig _ _ => [.gen]
  | .rsEncode => [.shard]
  | .rsCheck useTemp => if useTemp then [.temp] else []
  | .rsDecode => [.shard]

/-- The command may write STATUS.CFG_VALID (R98: RS_CONFIG only). -/
def writesConfig : Instr → Bool
  | .rsConfig _ _ => true
  | _ => false

/-! ## Register writes by a host -/

/-- The bits a host write stores, for the registers whose write only stores (10_state.md R22 to R40). -/
def rwMask (j : Nat) : Word :=
  if j = 5 ∨ j = 6 then 0xFF#32
  else if j = 18 ∨ j = 19 ∨ j = 20 then 0x01FF01FF#32
  else if (7 ≤ j ∧ j ≤ 11) ∨ j = 16 ∨ j = 17 ∨ (22 ≤ j ∧ j ≤ 29) then 0xFFFFFFFF#32
  else 0#32

/-! ## The invariant -/

/-- What every reachable state satisfies. -/
structure State.Inv (s : State) : Prop where
  /-- Every memory is in canonical form. -/
  memsWf : s.mems.wf
  /-- Every byte that holds a value stands at a legal address of its memory (20_memory.md R60). -/
  memsLegal : ∀ space, ∀ c ∈ s.mems.get space, ∃ a, legalAddr s.lmax space a = true ∧ c.1 = addrKey a
  /-- ERRCODE is a code of 60_exceptions.md R270, and is 0 exactly when ERR is 0 (10_state.md R26). -/
  errcode : s.regs.status.errcode.toNat ≤ 10 ∧ (s.regs.status.err = false ↔ s.regs.status.errcode = 0)
  /-- A command in flight has cleared the completion record (40_command_protocol.md R121). -/
  busyClean : s.regs.status.busy = true → s.regs.status.done = false ∧ s.regs.status.err = false
  /-- Unconfigured, the query registers and CFGSTRAT read 0 and GEN is empty (10_state.md R32, R50). -/
  unconfigured : s.regs.status.cfgValid = false →
    s.regs.dsc = 0 ∧ s.regs.psc = 0 ∧ s.regs.tsc = 0 ∧ s.regs.cfgstrat = ⟨0, false⟩ ∧ s.mems.gen = []
  /-- Configured, k ≥ 1, m ≥ 1, n = k + m ≤ 256 (44_reed_solomon.md R233), and the recorded LOOP is legal
  (30_encoding.md R94). -/
  configured : s.regs.status.cfgValid = true →
    1 ≤ s.regs.dsc.toNat ∧ 1 ≤ s.regs.psc.toNat ∧ s.regs.tsc.toNat = s.regs.dsc.toNat + s.regs.psc.toNat
      ∧ s.regs.tsc.toNat ≤ 256 ∧ s.regs.cfgstrat.loop.toNat ≤ 5
  /-- Configured, GEN is the generator matrix of k and m (44_reed_solomon.md R232, R233), which no host can write. -/
  genMatrix : s.regs.status.cfgValid = true →
    ∃ G, buildG s.params.vandMode s.regs.dsc.toNat s.regs.psc.toNat = .ok G
      ∧ ∀ r c, r < s.regs.tsc.toNat → c < s.regs.dsc.toNat → s.byteAt .gen ⟨r, c⟩ = some (G.entry r c)
  /-- MDIMC holds the shape of a result, or 0 after reset (10_state.md R38). -/
  mdimc : s.regs.mdimc = ⟨0, 0⟩ ∨ DimsOk s.regs.mdimc

/-! ## Safe runs -/

/-- The next step raises no model fault. -/
def State.safe (s : State) : Prop := ∀ f, step s ≠ .fault f

/-- A run of `k` steps meets no model fault (60_exceptions.md R285). -/
def safeRun (k : Nat) (s : State) : Prop := ∀ f, Sys2Proof.core.run k s ≠ .fault f

/-- The machine with model faults recorded instead of stopping it (10_state.md R48): a fault adds its record, and the
state keeps it for ever. -/
def recordingStep (s : State) : State :=
  match step s with
  | .next t => t
  | .fault f => if s.faults = [] then s.recordFault f else s
  | .refused _ => s

end Sys2Proof.Machine
end

