-- ==== Sys2Proof/Certificates/Slice0/Obligations.lean ====
section
/-! DEFINITION. The statements for the provers. Each docstring names the rule of spec/ it formalises. A number after
FailsWith is an error code of 60_exceptions.md R270. -/

open Sys2Proof Sys2Proof.Machine

/-! ## Words and decoding -/

/-- 30_encoding.md R91 to R93: words written out from the encoding decode to their commands, and two that R95 names do not
decode. -/
def Obligations.SpecWordsDecode : Prop :=
  decode 0x00000000#32 = .ok .nop
    ∧ decode 0x00000803#32 = .ok (.gfMul .exp)
    ∧ decode 0x00000011#32 = .ok .matInv
    ∧ decode 0x00000B20#32 = .ok (.mvCode 3 .exp)
    ∧ decode 0x00001D21#32 = .ok (.mvCheck 5 .exp true)
    ∧ decode 0x00000A30#32 = .ok (.rsConfig 2 .exp)
    ∧ decode 0x00001032#32 = .ok (.rsCheck true)
    ∧ decode 0x00000008#32 = .error .reservedOpcode
    ∧ decode 0x00000620#32 = .error .loopReserved

/-- 30_encoding.md R91, R92: for every well-formed command, decoding its word gives it back, with every field. -/
def Obligations.DecodeOfEncode : Prop :=
  ∀ i : Instr, i.wellFormed = true → decode (encode i) = .ok i

/-- 30_encoding.md R91, R92: a word that decodes is the word of the command it decodes to, which is well formed, so each
command has one word. -/
def Obligations.EncodeOfDecode : Prop :=
  ∀ (w : Word) (i : Instr), decode w = .ok i → encode i = w ∧ i.wellFormed = true

/-- 30_encoding.md R94: the words the decoder accepts are exactly the legal ones. -/
def Obligations.LegalWordsDecode : Prop :=
  ∀ w : Word, legalWord w = true ↔ ∃ i, decode w = .ok i

/-- 30_encoding.md R99: every spelling of a well-formed command assembles to its word. -/
def Obligations.SpellingsAssemble : Prop :=
  ∀ i : Instr, i.wellFormed = true → ∀ text ∈ spellings i, assemble text = some (encode i)

/-! ## Steps and the command protocol -/

/-- 40_command_protocol.md R122, R124: when the Unit has the turn, a command is in flight and its word decodes to i, the
step is the whole of i, run on the state with the turn used up; for any word it is the Unit step. The step after
`withFetchWord` is i on the state an accepted CMD write of its word leaves. Turns are the model's choice (log 5). -/
def Obligations.StepRunsDecodedCommand : Prop :=
  (∀ (s : State) (i : Instr), s.faults = [] → s.nextTurn = .unit → s.busy = true → decode s.latch = .ok i →
    step s = exec i s.popTurn)
  ∧ (∀ s : State, s.faults = [] → s.nextTurn = .unit → step s = unitStep s.popTurn)
  ∧ (∀ (s : State) (i : Instr) (w : Word), s.faults = [] → decode w = .ok i →
    step (s.withFetchWord 32 w.toNat) = exec i (s.issue w))

/-- 30_encoding.md R95 (and 40_command_protocol.md R122): an illegal word is accepted by the CMD write; its Unit step completes
with ILLEGAL_COMMAND, and no other state changes. -/
def Obligations.IllegalWordCompletes : Prop :=
  (∀ (s : State) (w : Word), s.busy = false → legalWord w = false → hostRegWrite s 3 w = .ok (s.issue w))
  ∧ (∀ s : State, s.busy = true → legalWord s.latch = false →
      ∃ t, unitStep s = .next t ∧ StatusIs t false true true 10 s.regs.status.cfgValid ∧ Frame [2] [] s t)

/-- 40_command_protocol.md R121: a CMD write is accepted exactly while BUSY = 0, whatever the word; it latches the word,
sets BUSY, clears DONE, ERR and ERRCODE, and changes no other register and no memory. While BUSY = 1 it is the fault
CmdWhileBusy. -/
def Obligations.CommandIssue : Prop :=
  ∀ (s : State) (w : Word),
    (s.busy = true → hostRegWrite s 3 w = .error .cmdWhileBusy)
    ∧ (s.busy = false → ∃ t, hostRegWrite s 3 w = .ok t ∧ t.latch = w
        ∧ StatusIs t true false false 0 s.regs.status.cfgValid
        ∧ SameRegs [2] s t ∧ SameMems [] s t
        ∧ t.params = s.params ∧ t.faults = s.faults ∧ t.hosts = s.hosts ∧ t.turns = s.turns)

/-- 40_command_protocol.md R126 and 60_exceptions.md R270: a command that answers a next state has left the completion
record: BUSY = 0, DONE = 1, and either ERR = 0 with ERRCODE 0 or ERR = 1 with one of the codes 1 to 10. -/
def Obligations.CompletionRecord : Prop :=
  ∀ (i : Instr) (s t : State), exec i s = .next t →
    t.regs.status.busy = false ∧ t.regs.status.done = true
      ∧ ((t.regs.status.err = false ∧ t.regs.status.errcode = 0)
        ∨ (t.regs.status.err = true ∧ 1 ≤ t.regs.status.errcode.toNat ∧ t.regs.status.errcode.toNat ≤ 10))

/-- 60_exceptions.md R273: a command that ends with ERR = 1 has left BUSY = 0, DONE = 1 and a code in ERRCODE, and has changed
nothing but STATUS, and not CFG_VALID. -/
def Obligations.ErrorsChangeOnlyStatus : Prop :=
  ∀ (i : Instr) (s t : State), exec i s = .next t → t.regs.status.err = true →
    t.regs.status.busy = false ∧ t.regs.status.done = true ∧ t.regs.status.errcode ≠ 0
      ∧ t.regs.status.cfgValid = s.regs.status.cfgValid ∧ Frame [2] [] s t

/-- 30_encoding.md R98 (and 10_state.md R28, R32, R38, R41): a command writes STATUS and the registers and memories the
table lists for it, and nothing else; only RS_CONFIG writes CFG_VALID. Of SHARD, RS_ENCODE writes slots k .. n−1 only, and
RS_DECODE missing slots only; which bytes of a memory a command writes is said in full by its own rule below (MatMulRule,
MatInvRule, MvCodeRule, MvCheckRule, RsConfigRule, RsEncodeRule, RsCheckRule, RsDecodeRule). -/
def Obligations.CommandsWriteOnlyTheirTableRow : Prop :=
  ∀ (i : Instr) (s t : State), exec i s = .next t →
    Frame (2 :: writtenRegs i) (writtenMems i) s t
      ∧ (writesConfig i = false → t.regs.status.cfgValid = s.regs.status.cfgValid)
      ∧ (i = .rsEncode → ∀ a, legalAddr s.lmax .shard a = true →
          ¬ (s.regs.dsc.toNat ≤ a.row ∧ a.row < s.regs.dsc.toNat + s.regs.psc.toNat) →
          t.byteAt .shard a = s.byteAt .shard a)
      ∧ (i = .rsDecode → ∀ a, legalAddr s.lmax .shard a = true →
          ¬ (a.row < s.regs.tsc.toNat ∧ s.regs.present.getLsbD a.row = false) →
          t.byteAt .shard a = s.byteAt .shard a)

/-- 40_command_protocol.md R125: a command in flight does not wait for ever. Within one step more than the turns already
chosen (log 5), a step has left a state with BUSY = 0, or the machine has stopped. -/
def Obligations.CommandInFlightIsServed : Prop :=
  ∀ s : State, s.faults = [] → s.busy = true → ∃ k, k ≤ s.turns.length + 1 ∧
    ((∃ t, Sys2Proof.core.run k s = .next t ∧ t.busy = false)
      ∨ (∃ f, Sys2Proof.core.run k s = .fault f) ∨ (∃ q, Sys2Proof.core.run k s = .refused q))

/-! ## Reset, faults, the invariant -/

/-- 70_reset_and_hazards.md R300 (values of 10_state.md R50): a CTRL write with SRST = 1 and hardware reset have the same
effect, in every state, BUSY = 1 included; it leaves the reset values; FAULTS keeps its records. A turn stands for the
platform asserting reset (log 5). -/
def Obligations.ResetFromBothSources : Prop :=
  ∀ s : State,
    (∀ w : Word, w.getLsbD 1 = true → hostRegWrite s 1 w = .ok s.afterReset)
    ∧ (s.faults = [] → s.nextTurn = .hwReset → step s = .next s.popTurn.afterReset)
    ∧ ResetValues s.afterReset ∧ s.afterReset.lmax = s.lmax ∧ s.afterReset.faults = s.faults

/-- 10_state.md R50: the state the machine starts in has the reset values, no fault record and no command in flight. -/
def Obligations.StartStateIsReset : Prop :=
  ResetValues State.reset ∧ State.reset.faults = [] ∧ State.reset.busy = false

/-- 70_reset_and_hazards.md R303: a step that takes CFG_VALID from 1 to 0 was a reset, and a failed RS_CONFIG keeps the old
configuration. -/
def Obligations.ConfigurationEndsOnlyAtReset : Prop :=
  (∀ s t : State, step s = .next t → s.regs.status.cfgValid = true → t.regs.status.cfgValid = false →
    ResetValues t)
  ∧ (∀ (loop : BitVec 3) (method : Method) (s t : State), exec (.rsConfig loop method) s = .next t →
      t.regs.status.err = true → t.regs.status.cfgValid = s.regs.status.cfgValid ∧ Frame [2] [] s t)

/-- 10_state.md R48 and R20 (and 00_scope.md R17): no step removes or adds a fault record or changes a parameter, and a
state with a record has no next state. -/
def Obligations.FaultRecordsAndParametersStay : Prop :=
  ∀ s t : State, step s = .next t → s.faults = [] ∧ t.faults = s.faults ∧ t.params = s.params

/-- The invariant holds in the state after reset, for every value of the parameters. -/
def Obligations.InvariantAtReset : Prop :=
  State.reset.Inv ∧ ∀ p : Params, (State.resetWith p).Inv

/-- Every step keeps the invariant, from every state that satisfies it. -/
def Obligations.StepKeepsInvariant : Prop :=
  ∀ s t : State, s.Inv → step s = .next t → t.Inv

/-- 60_exceptions.md R285 and 42_matrix.md R172: no command breaks a precondition of a matrix primitive, so no step raises
SpecBug. The premise k ≥ 1 while configured is the invariant's (`State.Inv.configured`, kept by StepKeepsInvariant). -/
def Obligations.NoStepRaisesSpecBug : Prop :=
  ∀ (s : State) (what : String), s.faults = [] →
    (s.regs.status.cfgValid = true → 1 ≤ s.regs.dsc.toNat) → step s ≠ .fault (.specBug what)

/-! ## Host accesses -/

/-- 10_state.md R22, R23 and R29 to R39: a host write to a register other than CTRL, STATUS and CMD, while BUSY = 0, stores
the register's writable bits, which then read back; reserved bits and read-only registers keep reading as before, and so
does everything else. -/
def Obligations.RegisterWriteReadsBack : Prop :=
  ∀ (s : State) (j : Nat) (w : Word), s.busy = false → j < 32 → j ≠ 1 → j ≠ 2 → j ≠ 3 →
    ∃ t, hostRegWrite s j w = .ok t
      ∧ (∀ j', t.regWord j' = if j' = j ∧ rwMask j ≠ 0#32 then w &&& rwMask j else s.regWord j')
      ∧ SameMems [] s t ∧ SameRest s t

/-- 10_state.md R25, R26: a CTRL write without SRST sets IRQ_EN to its bit 0; a STATUS write clears DONE exactly when its
bit 1 is 1 and changes no other field. Both are allowed whatever BUSY is. -/
def Obligations.ControlAndStatusWrites : Prop :=
  ∀ (s : State) (w : Word),
    (w.getLsbD 1 = false → ∃ t, hostRegWrite s 1 w = .ok t ∧ t.regWord 1 = w &&& 1#32
      ∧ SameRegs [1] s t ∧ SameMems [] s t ∧ SameRest s t)
    ∧ (∃ t, hostRegWrite s 2 w = .ok t
      ∧ StatusIs t s.regs.status.busy (s.regs.status.done && !w.getLsbD 1) s.regs.status.err
          s.regs.status.errcode s.regs.status.cfgValid
      ∧ SameRegs [2] s t ∧ SameMems [] s t ∧ SameRest s t)

/-- 60_exceptions.md R281: IRQ = DONE ∧ IRQ_EN. The Unit step of a command raises it if IRQ_EN = 1, whether the command
succeeded or failed; a CTRL write with IRQ_EN = 1 raises it if DONE = 1; it falls on DONE's W1C, on IRQ_EN = 0, on an
accepted CMD write and at reset; no other access changes it. -/
def Obligations.InterruptLine : Prop :=
  (∀ s : State, s.irq = (s.regs.status.done && s.regs.irqEn))
  ∧ (∀ s t : State, s.busy = true → unitStep s = .next t → t.irq = s.regs.irqEn)
  ∧ (∀ (s t : State) (w : Word), w.getLsbD 1 = false → hostRegWrite s 1 w = .ok t →
      t.irq = (s.regs.status.done && w.getLsbD 0))
  ∧ (∀ (s t : State) (w : Word), hostRegWrite s 2 w = .ok t → t.irq = (s.irq && !w.getLsbD 1))
  ∧ (∀ (s t : State) (w : Word), hostRegWrite s 3 w = .ok t → t.irq = false)
  ∧ (∀ s : State, s.afterReset.irq = false)
  ∧ (∀ (s t : State) (j : Nat) (w : Word), hostRegWrite s j w = .ok t → j ≠ 1 → j ≠ 2 → j ≠ 3 → t.irq = s.irq)
  ∧ (∀ (s t : State) (space : Space) (a : Addr) (v : Byte), hostMemWrite s space a v = .ok t → t.irq = s.irq)

/-- 70_reset_and_hazards.md R310: while BUSY = 1 a host may read ID, STATUS and LMAXR and write STATUS and CTRL; a CMD write
is CmdWhileBusy, and any other access to a register or a byte is HostAccessWhileBusy. -/
def Obligations.AccessWhileBusy : Prop :=
  ∀ s : State, s.busy = true →
    (∀ j, j < 32 → hostRegRead s j =
      if j = 0 ∨ j = 2 ∨ j = 30 then .ok (s.regWord j) else .error (.hostAccessWhileBusy (.reg j)))
    ∧ (∀ w : Word, (∃ t, hostRegWrite s 1 w = .ok t) ∧ (∃ t, hostRegWrite s 2 w = .ok t)
        ∧ hostRegWrite s 3 w = .error .cmdWhileBusy)
    ∧ (∀ (j : Nat) (w : Word), j < 32 → j ≠ 1 → j ≠ 2 → j ≠ 3 →
        hostRegWrite s j w = .error (.hostAccessWhileBusy (.reg j)))
    ∧ (∀ space a, legalAddr s.lmax space a = true →
        hostMemRead s space a = .error (.hostAccessWhileBusy (.mem space a))
          ∧ ∀ v, hostMemWrite s space a v = .error (.hostAccessWhileBusy (.mem space a)))

/-- 20_memory.md R61: a byte that holds a value reads as it; a byte written at a legal address of a memory other than GEN reads back, every other byte and every
register is as before; a write to GEN changes nothing; a byte that holds `none` is UnwrittenRead; an illegal address or
register index is BadAddress. -/
def Obligations.BytePortWriteReadsBack : Prop :=
  ∀ (s : State) (space : Space) (a : Addr) (v : Byte), s.busy = false →
    (legalAddr s.lmax space a = true → space ≠ .gen → ∃ t, hostMemWrite s space a v = .ok t
      ∧ hostMemRead t space a = .ok v
      ∧ (∀ space' b, legalAddr s.lmax space' b = true → (space' ≠ space ∨ b ≠ a) →
          t.byteAt space' b = s.byteAt space' b)
      ∧ SameRegs [] s t ∧ SameRest s t)
    ∧ (legalAddr s.lmax .gen a = true → hostMemWrite s .gen a v = .ok s)
    ∧ (legalAddr s.lmax space a = true → s.byteAt space a = none →
        hostMemRead s space a = .error (.unwrittenRead space a))
    ∧ (legalAddr s.lmax space a = false →
        hostMemRead s space a = .error (.badAddress (.mem space a))
          ∧ hostMemWrite s space a v = .error (.badAddress (.mem space a)))
    ∧ (legalAddr s.lmax space a = true → s.byteAt space a = some v → hostMemRead s space a = .ok v)
    ∧ (∀ (j : Nat) (w : Word), 32 ≤ j → hostRegRead s j = .error (.badAddress (.reg j))
        ∧ hostRegWrite s j w = .error (.badAddress (.reg j)))

/-- 20_memory.md R64, R65 (and 10_state.md R22): a bus access to the register block that is not 32 bits wide faults
BadAccessWidth, one at an offset that is no multiple of 4 faults Misaligned, and any other is the primitive on register
offset / 4, its faults included. That width comes before alignment, and both before BUSY, is the model's choice (log 8). -/
def Obligations.BusRegisterAccess : Prop :=
  ∀ (s : State) (off size value : Nat), off < 128 → size ≠ 0 →
    (size ≠ 4 → hostBusRead s (s.params.platform.regBase + off) size = .error (.badAccessWidth off size)
      ∧ hostBusWrite s (s.params.platform.regBase + off) size value = .error (.badAccessWidth off size))
    ∧ (size = 4 → off % 4 ≠ 0 →
        hostBusRead s (s.params.platform.regBase + off) size = .error (.misaligned off size)
          ∧ hostBusWrite s (s.params.platform.regBase + off) size value = .error (.misaligned off size))
    ∧ (size = 4 → off % 4 = 0 →
        hostBusWrite s (s.params.platform.regBase + off) size value
            = hostRegWrite s (off / 4) (BitVec.ofNat 32 value)
          ∧ (∀ w, hostRegRead s (off / 4) = .ok w →
              hostBusRead s (s.params.platform.regBase + off) size = .ok w.toNat)
          ∧ ∀ f, hostRegRead s (off / 4) = .error f →
              hostBusRead s (s.params.platform.regBase + off) size = .error f)

/-- 20_memory.md R66: a legal bus map is injective, names legal bytes only and does not overlap the register block; the
map of the state after reset (log 3) is legal. -/
def Obligations.LegalBusMapIsInjective : Prop :=
  (∀ (lmax : Nat) (p : Platform), platformLegal lmax p →
    (∀ a b x, busTarget p a = some x → busTarget p b = some x → a = b)
      ∧ (∀ a, inRegBlock p a = true → busTarget p a = none)
      ∧ (∀ a space x, busTarget p a = some (space, x) → legalAddr lmax space x = true))
  ∧ platformLegal State.reset.lmax State.reset.params.platform

/-- 20_memory.md R67: a wide bus write to mapped bytes puts bits [8t+7 : 8t] at the byte its t-th address is mapped to,
wherever the map puts each (over the end of a row, in another memory), but for bytes of GEN, which a host cannot write;
a bus read of the same bytes gives the value back, and every other byte is as before. -/
def Obligations.WideBusWriteIsLittleEndian : Prop :=
  ∀ (s : State) (addr size value : Nat) (target : Nat → Space × Addr), s.busy = false → 1 ≤ size →
    (∀ t, t < size → inRegBlock s.params.platform (addr + t) = false
      ∧ busTarget s.params.platform (addr + t) = some (target t)
      ∧ legalAddr s.lmax (target t).1 (target t).2 = true) →
    (∀ t t', t < size → t' < size → target t = target t' → t = t') →
    ∃ u, hostBusWrite s addr size value = .ok u
      ∧ (∀ t, t < size → (target t).1 ≠ .gen →
          u.byteAt (target t).1 (target t).2 = some (BitVec.ofNat 8 (value / 2 ^ (8 * t))))
      ∧ ((∀ t, t < size → (target t).1 ≠ .gen) → hostBusRead u addr size = .ok (value % 2 ^ (8 * size)))
      ∧ (∀ space a, legalAddr s.lmax space a = true → (∀ t, t < size → target t ≠ (space, a)) →
          u.byteAt space a = s.byteAt space a)
      ∧ (∀ space, (∀ t, t < size → (target t).1 ≠ space) ∨ space = .gen → ∀ a, u.byteAt space a = s.byteAt space a)
      ∧ SameRegs [] s u ∧ SameRest s u

/-- 20_memory.md R67 (and R72): a wide access by a host to the byte memories is one primitive for each byte, at increasing
consecutive addresses, each a step of its own. With no other agent's step between them, the steps leave what `hostBusWrite`
and `hostBusRead` say of the whole access, and the first byte that faults stops the machine. -/
def Obligations.WideAccessIsItsBytes : Prop :=
  ∀ (s : State) (h name addr size value : Nat) (p : HostProc) (rest : List Turn), s.faults = [] →
    s.turns = List.replicate size (.host h) ++ rest → s.hosts[h]? = some p → p.moved = [] → 1 ≤ size →
    inRegBlock s.params.platform addr = false →
    (p.prog[p.pc]? = some (.access name (.busWrite addr size value)) →
      Sys2Proof.core.run size s =
        match hostBusWrite s addr size value with
        | .error f => .fault f
        | .ok u => .next ({ u with turns := rest }.setHost h (p.past name none)))
    ∧ (p.prog[p.pc]? = some (.access name (.busRead addr size)) →
      Sys2Proof.core.run size s =
        match hostBusRead s addr size with
        | .error f => .fault f
        | .ok v => .next ({ s with turns := rest }.setHost h (p.past name (some v))))

/-- 20_memory.md R69: no read has a side effect; a byte-memory write stores its byte and changes nothing else; a write other
than a CMD write is idempotent. R69 excepts CTRL.SRST as well; that a second reset write changes nothing more is from
70_reset_and_hazards.md R300 and 10_state.md R25, since the first left the reset state. (The side effects of CMD, CTRL and STATUS writes are CommandIssue, ResetFromBothSources
and ControlAndStatusWrites.) -/
def Obligations.ReadsArePureAndWritesIdempotent : Prop :=
  (∀ (s t : State) (a : HostAccess) (v : Nat), hostAccess s a = .ok (t, some v) → t = s)
  ∧ (∀ (s t : State) (space : Space) (a : Addr) (v : Byte), hostMemWrite s space a v = .ok t →
      SameRegs [] s t ∧ SameMems [space] s t ∧ SameRest s t ∧ hostMemWrite t space a v = .ok t)
  ∧ (∀ (s t : State) (j : Nat) (w : Word), j ≠ 3 → hostRegWrite s j w = .ok t → hostRegWrite t j w = .ok t)

/-- 30_encoding.md R101: the pseudo-instruction `wait`, run by host h at statement p, reads STATUS and goes on exactly when
BUSY = 0, else back to p; the unit is as before. Hosts and turns are the model's choice (logs 5, 6). -/
def Obligations.WaitPollsStatus : Prop :=
  ∀ (s : State) (h : Nat) (p : HostProc) (rest : List Turn), s.faults = [] →
    s.turns = .host h :: .host h :: rest → s.hosts[h]? = some p →
    (∀ i, i < 2 → p.prog[p.pc + i]? = (waitDone p.pc)[i]?) →
    ∃ t q, Sys2Proof.core.run 2 s = .next t ∧ t.hosts[h]? = some q
      ∧ q.pc = (if s.busy then p.pc else p.pc + 2) ∧ q.prog = p.prog
      ∧ SameRegs [] s t ∧ SameMems [] s t ∧ t.latch = s.latch

/-! ## NOP and the scalar commands -/

/-- 40_command_protocol.md R129: NOP completes with success and changes nothing but STATUS; a word of its opcode with any
other bit set is illegal. -/
def Obligations.NopRule : Prop :=
  decode 0x00000000#32 = .ok .nop
    ∧ (∀ w : Word, opcOf w = 0#8 → w ≠ 0#32 → legalWord w = false)
    ∧ ∀ s : State, ∃ t, SucceedsTo .nop s t ∧ Frame [2] [] s t

/-- 41_gf_arith.md R148, R149 (and R143): GF_ADD and GF_SUB put the XOR of the operands in RESULT. -/
def Obligations.GfAddAndSubRule : Prop :=
  decode 0x00000001#32 = .ok .gfAdd ∧ decode 0x00000002#32 = .ok .gfSub
    ∧ ∀ s : State, ∀ i ∈ [Instr.gfAdd, Instr.gfSub], ∃ t, SucceedsTo i s t
        ∧ t.regWord 4 = s.regWord 5 ^^^ s.regWord 6 ∧ Frame [2, 4] [] s t

/-- 41_gf_arith.md R150, and R140, R144, R155: GF_MUL puts gf_mul of the operands in RESULT, whatever METHOD is, and that is
the product of polynomials modulo 0x11D. -/
def Obligations.GfMulRule : Prop :=
  decode 0x00000003#32 = .ok (.gfMul .table) ∧ decode 0x00000803#32 = .ok (.gfMul .exp)
    ∧ ∀ (method : Method) (s : State), ∃ t, SucceedsTo (.gfMul method) s t
        ∧ t.regWord 4 = (gfMul s.regs.opa s.regs.opb).setWidth 32
        ∧ gfMul s.regs.opa s.regs.opb = polyMul s.regs.opa s.regs.opb
        ∧ Frame [2, 4] [] s t

/-- 41_gf_arith.md R151 (and R145): GF_DIV raises DIV_BY_ZERO when b = 0; else it puts gf_div in RESULT, the one byte whose
product with b is a. -/
def Obligations.GfDivRule : Prop :=
  decode 0x00000004#32 = .ok .gfDiv
    ∧ ∀ s : State, (s.regs.opb = 0#8 → FailsWith .gfDiv s 6)
      ∧ (s.regs.opb ≠ 0#8 → ∃ t q, SucceedsTo .gfDiv s t ∧ gfDiv s.regs.opa s.regs.opb = some q
          ∧ t.regWord 4 = q.setWidth 32
          ∧ (∀ q', polyMul q' s.regs.opb = s.regs.opa ↔ q' = q)
          ∧ Frame [2, 4] [] s t)

/-- 41_gf_arith.md R152 (and R146): GF_EXP raises RANGE_ERROR when n < 0; else it puts gf_exp in RESULT, n-fold repeated
multiplication. -/
def Obligations.GfExpRule : Prop :=
  decode 0x00000005#32 = .ok .gfExp
    ∧ ∀ s : State, (sint32 s.regs.opn < 0 → FailsWith .gfExp s 3)
      ∧ (0 ≤ sint32 s.regs.opn → ∃ t, SucceedsTo .gfExp s t
          ∧ t.regWord 4 = (gfExp s.regs.opa (sint32 s.regs.opn).toNat).setWidth 32
          ∧ gfExp s.regs.opa (sint32 s.regs.opn).toNat = polyPow s.regs.opa (sint32 s.regs.opn).toNat
          ∧ Frame [2, 4] [] s t)

/-- 41_gf_arith.md R153 (and R141): GF_LOG raises LOG_OF_ZERO when a = 0; else it puts LOG[a] in RESULT, the one exponent in
0..254 whose power of 2 is a. -/
def Obligations.GfLogRule : Prop :=
  decode 0x00000006#32 = .ok .gfLog
    ∧ ∀ s : State, (s.regs.opa = 0#8 → FailsWith .gfLog s 7)
      ∧ (s.regs.opa ≠ 0#8 → ∃ t i, SucceedsTo .gfLog s t ∧ logTab s.regs.opa = some i
          ∧ t.regWord 4 = BitVec.ofNat 32 i ∧ i ≤ 254
          ∧ (∀ i', i' ≤ 254 → (polyPow 2#8 i' = s.regs.opa ↔ i' = i))
          ∧ Frame [2, 4] [] s t)

/-- 41_gf_arith.md R154 (and R141): GF_ALOG raises RANGE_ERROR when the index is outside 0..511; else it puts EXP of it in
RESULT, that power of 2. -/
def Obligations.GfAlogRule : Prop :=
  decode 0x00000007#32 = .ok .gfAlog
    ∧ ∀ s : State, (sint32 s.regs.opn < 0 ∨ 511 < sint32 s.regs.opn → FailsWith .gfAlog s 3)
      ∧ (0 ≤ sint32 s.regs.opn → sint32 s.regs.opn ≤ 511 → ∃ t, SucceedsTo .gfAlog s t
          ∧ t.regWord 4 = (expTab (sint32 s.regs.opn).toNat).setWidth 32
          ∧ expTab (sint32 s.regs.opn).toNat = polyPow 2#8 (sint32 s.regs.opn).toNat
          ∧ Frame [2, 4] [] s t)

/-- 41_gf_arith.md R147: the field laws. -/
def Obligations.FieldLaws : Prop :=
  (∀ a b : Byte, gfAdd a b = gfAdd b a)
  ∧ (∀ a b c : Byte, gfAdd a (gfAdd b c) = gfAdd (gfAdd a b) c)
  ∧ (∀ a : Byte, gfAdd a 0#8 = a ∧ gfAdd a a = 0#8)
  ∧ (∀ a b : Byte, gfMul a b = gfMul b a)
  ∧ (∀ a b c : Byte, gfMul a (gfMul b c) = gfMul (gfMul a b) c)
  ∧ (∀ a : Byte, gfMul a 1#8 = a ∧ gfMul a 0#8 = 0#8)
  ∧ (∀ a b c : Byte, gfMul a (gfAdd b c) = gfAdd (gfMul a b) (gfMul a c))
  ∧ (∀ a b : Byte, b ≠ 0#8 → ∃ q, gfDiv a b = some q ∧ gfMul q b = a)

/-! ## Matrices -/

/-- 42_matrix.md R175, R176: `augment` and `submatrix` with their preconditions met; with a precondition broken they are the
model fault SpecBug (R172). And R186's law: the left part of an augmented matrix is the matrix. -/
def Obligations.AugmentAndSubmatrixRule : Prop :=
  (∀ A B : Mat, A.rows ≠ B.rows → matAugment A B = .error (.fault (.specBug "augment")))
  ∧ (∀ A B : Mat, A.rows = B.rows → ∃ W, matAugment A B = .ok W ∧ W.rows = A.rows ∧ W.cols = A.cols + B.cols
      ∧ ∀ r c, r < A.rows → c < A.cols + B.cols →
          W.entry r c = if c < A.cols then A.entry r c else B.entry r (c - A.cols))
  ∧ (∀ (A : Mat) (rmin cmin rmax cmax : Nat), ¬ (rmin < rmax ∧ rmax ≤ A.rows ∧ cmin < cmax ∧ cmax ≤ A.cols) →
      matSubmatrix A rmin cmin rmax cmax = .error (.fault (.specBug "submatrix")))
  ∧ (∀ (A : Mat) (rmin cmin rmax cmax : Nat), rmin < rmax → rmax ≤ A.rows → cmin < cmax → cmax ≤ A.cols →
      ∃ S, matSubmatrix A rmin cmin rmax cmax = .ok S ∧ S.rows = rmax - rmin ∧ S.cols = cmax - cmin
        ∧ ∀ r c, r < rmax - rmin → c < cmax - cmin → S.entry r c = A.entry (rmin + r) (cmin + c))
  ∧ (∀ A B : Mat, A.wf = true → A.rows = B.rows →
      ∃ W, matAugment A B = .ok W ∧ matSubmatrix W 0 0 A.rows A.cols = .ok A)

/-- 42_matrix.md R170: every matrix a primitive makes of matrices has a row and a column, and rows of the right length; so
has every generator matrix. (For a matrix read from memory this is the lemma State.readBlock_shape.) -/
def Obligations.MatricesHaveRowsAndColumns : Prop :=
  (∀ A B C : Mat, A.wf = true → B.wf = true →
    (matMul A B = .ok C ∨ matAugment A B = .ok C ∨ (∃ a b c d, matSubmatrix A a b c d = .ok C)
      ∨ (∃ is, matPick A is = .ok C) ∨ (∃ r c v, A.put r c v = .ok C) ∨ matInvert A = .ok C) → C.wf = true)
  ∧ (∀ (mode : VandMode) (k m : Nat) (G : Mat), buildG mode k m = .ok G → G.wf = true)

/-- 42_matrix.md R182, R183 (and R174, R180, R181): MAT_MUL raises SHAPE_MISMATCH for an illegal dimension or ac ≠ br; a
byte of an operand rectangle that holds `none` is a model fault; else it writes the product to MATC's ar × bc rectangle,
every other byte of MATC is as before, and MDIMC holds the shape. -/
def Obligations.MatMulRule : Prop :=
  decode 0x00000010#32 = .ok .matMul
    ∧ ∀ s : State,
      (¬ (DimsOk s.regs.mdima ∧ DimsOk s.regs.mdimb) → FailsWith .matMul s 2)
      ∧ (DimsOk s.regs.mdima → DimsOk s.regs.mdimb → s.regs.mdima.cols ≠ s.regs.mdimb.rows → FailsWith .matMul s 2)
      ∧ (∀ ar ac bc, DimsOk s.regs.mdima → DimsOk s.regs.mdimb → s.regs.mdima.rows.toNat = ar →
          s.regs.mdima.cols.toNat = ac → s.regs.mdimb.rows.toNat = ac → s.regs.mdimb.cols.toNat = bc →
          ((∃ r c, (r < ar ∧ c < ac ∧ s.byteAt .matA ⟨r, c⟩ = none)
              ∨ (r < ac ∧ c < bc ∧ s.byteAt .matB ⟨r, c⟩ = none)) → StopsUnwritten .matMul s)
          ∧ ∀ A B : Nat → Nat → Byte,
            (∀ r c, r < ar → c < ac → s.byteAt .matA ⟨r, c⟩ = some (A r c)) →
            (∀ r c, r < ac → c < bc → s.byteAt .matB ⟨r, c⟩ = some (B r c)) →
            ∃ t, SucceedsTo .matMul s t
              ∧ (∀ r c, r < ar → c < bc →
                  t.byteAt .matC ⟨r, c⟩ = some (xorSum ac fun i => gfMul (A r i) (B i c)))
              ∧ (∀ a, legalAddr s.lmax .matC a = true → ¬ (a.row < ar ∧ a.col < bc) →
                  t.byteAt .matC a = s.byteAt .matC a)
              ∧ t.regWord 21 = BitVec.ofNat 32 (bc * 2 ^ 16 + ar)
              ∧ Frame [2, 21] [.matC] s t)

/-- 42_matrix.md R184, R185 (and R179 to R181): MAT_INV raises SHAPE_MISMATCH for an illegal dimension or ar ≠ ac; a byte of
the operand that holds `none` is a model fault; SINGULAR when R179's elimination finds no pivot; else it writes the inverse
to MATC's n × n rectangle, every other byte of MATC is as before, and MDIMC holds the shape. -/
def Obligations.MatInvRule : Prop :=
  decode 0x00000011#32 = .ok .matInv
    ∧ ∀ s : State,
      (¬ DimsOk s.regs.mdima → FailsWith .matInv s 2)
      ∧ (DimsOk s.regs.mdima → s.regs.mdima.rows ≠ s.regs.mdima.cols → FailsWith .matInv s 2)
      ∧ (∀ n, DimsOk s.regs.mdima → s.regs.mdima.rows.toNat = n → s.regs.mdima.cols.toNat = n →
          ((∃ r c, r < n ∧ c < n ∧ s.byteAt .matA ⟨r, c⟩ = none) → StopsUnwritten .matInv s)
          ∧ ∀ A : Nat → Nat → Byte, (∀ r c, r < n → c < n → s.byteAt .matA ⟨r, c⟩ = some (A r c)) →
            ((Mat.of n n A).invert = none → FailsWith .matInv s 5)
            ∧ ∀ D, (Mat.of n n A).invert = some D → ∃ t, SucceedsTo .matInv s t
                ∧ (∀ r c, r < n → c < n → t.byteAt .matC ⟨r, c⟩ = some (D.entry r c))
                ∧ (∀ a, legalAddr s.lmax .matC a = true → ¬ (a.row < n ∧ a.col < n) →
                    t.byteAt .matC a = s.byteAt .matC a)
                ∧ t.regWord 21 = BitVec.ofNat 32 (n * 2 ^ 16 + n)
                ∧ Frame [2, 21] [.matC] s t)

/-- 42_matrix.md R179, R186: where the elimination answers a matrix D, A · D and D · A are the identity. -/
def Obligations.InvertGivesInverse : Prop :=
  ∀ (n : Nat) (A : Nat → Nat → Byte) (D : Mat), (Mat.of n n A).invert = some D →
    D.rows = n ∧ D.cols = n
      ∧ ∀ i j, i < n → j < n →
          xorSum n (fun q => gfMul (A i q) (D.entry q j)) = (if i = j then 1#8 else 0#8)
          ∧ xorSum n (fun q => gfMul (D.entry i q) (A q j)) = (if i = j then 1#8 else 0#8)

/-- 42_matrix.md R179: a matrix that has an inverse is not Singular, and the elimination answers that inverse. -/
def Obligations.InvertFindsEveryInverse : Prop :=
  ∀ (n : Nat) (A B : Nat → Nat → Byte),
    (∀ i j, i < n → j < n → xorSum n (fun q => gfMul (A i q) (B q j)) = (if i = j then 1#8 else 0#8)) →
    ∃ D, (Mat.of n n A).invert = some D ∧ ∀ i j, i < n → j < n → D.entry i j = B i j

/-! ## Coding loop -/

/-- 43_coding_loop.md R206 (and R200, R203 to R205): MV_CODE raises RANGE_ERROR for illegal counts, then for an illegal byte
range; an index byte that holds `none` is a model fault; then OVERLAP; else it writes the products to the output slots'
byte range, and every other byte of SHARD is as before. A row or input byte that holds `none` is a model fault when there
is a byte to compute, and only then. LOOP and METHOD do not matter. -/
def Obligations.MvCodeRule : Prop :=
  decode 0x00000020#32 = .ok (.mvCode 0 .table) ∧ decode 0x00000B20#32 = .ok (.mvCode 3 .exp)
    ∧ ∀ (loop : BitVec 3) (method : Method) (s : State),
      (¬ CountsOk s → FailsWith (.mvCode loop method) s 3)
      ∧ (CountsOk s → ¬ RangeOk s → FailsWith (.mvCode loop method) s 3)
      ∧ (∀ nIn nOut, CountsOk s → RangeOk s → s.regs.mvcnt.inCount.toNat = nIn →
          s.regs.mvcnt.outCount.toNat = nOut →
          ((∃ i, (i < nIn ∧ s.byteAt .idxIn ⟨0, i⟩ = none) ∨ (i < nOut ∧ s.byteAt .idxOut ⟨0, i⟩ = none)) →
            StopsUnwritten (.mvCode loop method) s)
          ∧ ∀ ins outs : Nat → Byte,
            (∀ i, i < nIn → s.byteAt .idxIn ⟨0, i⟩ = some (ins i)) →
            (∀ o, o < nOut → s.byteAt .idxOut ⟨0, o⟩ = some (outs o)) →
            ((∃ o, o < nOut ∧ ((∃ i, i < nIn ∧ outs o = ins i) ∨ (∃ o', o' < nOut ∧ o' ≠ o ∧ outs o = outs o'))) →
              FailsWith (.mvCode loop method) s 9)
            ∧ ((∀ o i, o < nOut → i < nIn → outs o ≠ ins i) →
              (∀ o o', o < nOut → o' < nOut → outs o = outs o' → o = o') →
              ((∃ o i, o < nOut ∧ i < nIn ∧ 0 < sint32 s.regs.count ∧ s.byteAt .matA ⟨o, i⟩ = none)
                ∨ (∃ i b, i < nIn ∧ 0 < nOut ∧ InRange s b ∧ s.byteAt .shard ⟨(ins i).toNat, b⟩ = none)) →
              StopsUnwritten (.mvCode loop method) s)
            ∧ ∀ g x : Nat → Nat → Byte,
              (∀ o i, o < nOut → i < nIn → outs o ≠ ins i) →
              (∀ o o', o < nOut → o' < nOut → outs o = outs o' → o = o') →
              (∀ o i, o < nOut → i < nIn → 0 < sint32 s.regs.count →
                s.byteAt .matA ⟨o, i⟩ = some (g o i)) →
              (∀ i b, i < nIn → 0 < nOut → InRange s b →
                s.byteAt .shard ⟨(ins i).toNat, b⟩ = some (x i b)) →
              ∃ t, SucceedsTo (.mvCode loop method) s t
                ∧ (∀ o b, o < nOut → InRange s b →
                    t.byteAt .shard ⟨(outs o).toNat, b⟩
                      = some (xorSum nIn fun i => gfMul (g o i) (x i b)))
                ∧ (∀ a, legalAddr s.lmax .shard a = true →
                    ¬ (∃ o, o < nOut ∧ a.row = (outs o).toNat ∧ InRange s a.col) →
                    t.byteAt .shard a = s.byteAt .shard a)
                ∧ Frame [2] [.shard] s t)

/-- 43_coding_loop.md R207 (and R202, R203, R204, R208): MV_CHECK raises RANGE_ERROR for illegal counts, for an illegal byte
range, and with USE_TEMP for a temp buffer too short; an operand byte that holds `none` is a model fault; else RESULT is 1
exactly when every output byte equals the product, and with USE_TEMP and an output the byte range of TEMP holds `none`. No
SHARD byte changes. -/
def Obligations.MvCheckRule : Prop :=
  decode 0x00000021#32 = .ok (.mvCheck 0 .table false) ∧ decode 0x00001021#32 = .ok (.mvCheck 0 .table true)
    ∧ ∀ (loop : BitVec 3) (method : Method) (useTemp : Bool) (s : State),
      (¬ CountsOk s → FailsWith (.mvCheck loop method useTemp) s 3)
      ∧ (CountsOk s → ¬ RangeOk s → FailsWith (.mvCheck loop method useTemp) s 3)
      ∧ (CountsOk s → RangeOk s → useTemp = true → ¬ TempOk s → FailsWith (.mvCheck loop method useTemp) s 3)
      ∧ (∀ nIn nOut, CountsOk s → RangeOk s → (useTemp = true → TempOk s) →
          s.regs.mvcnt.inCount.toNat = nIn → s.regs.mvcnt.outCount.toNat = nOut →
          ((∃ i, (i < nIn ∧ s.byteAt .idxIn ⟨0, i⟩ = none) ∨ (i < nOut ∧ s.byteAt .idxOut ⟨0, i⟩ = none)) →
            StopsUnwritten (.mvCheck loop method useTemp) s)
          ∧ ∀ ins outs : Nat → Byte,
            (∀ i, i < nIn → s.byteAt .idxIn ⟨0, i⟩ = some (ins i)) →
            (∀ o, o < nOut → s.byteAt .idxOut ⟨0, o⟩ = some (outs o)) →
            (((∃ o i, o < nOut ∧ i < nIn ∧ 0 < sint32 s.regs.count ∧ s.byteAt .matA ⟨o, i⟩ = none)
                ∨ (∃ i b, i < nIn ∧ 0 < nOut ∧ InRange s b ∧ s.byteAt .shard ⟨(ins i).toNat, b⟩ = none)
                ∨ (∃ o b, o < nOut ∧ InRange s b ∧ s.byteAt .shard ⟨(outs o).toNat, b⟩ = none)) →
              StopsUnwritten (.mvCheck loop method useTemp) s)
            ∧ ∀ g x z : Nat → Nat → Byte,
              (∀ o i, o < nOut → i < nIn → 0 < sint32 s.regs.count → s.byteAt .matA ⟨o, i⟩ = some (g o i)) →
              (∀ i b, i < nIn → 0 < nOut → InRange s b → s.byteAt .shard ⟨(ins i).toNat, b⟩ = some (x i b)) →
              (∀ o b, o < nOut → InRange s b → s.byteAt .shard ⟨(outs o).toNat, b⟩ = some (z o b)) →
              ∃ t, SucceedsTo (.mvCheck loop method useTemp) s t
                ∧ (t.regWord 4 = 0#32 ∨ t.regWord 4 = 1#32)
                ∧ (t.regWord 4 = 1#32 ↔
                    ∀ o b, o < nOut → InRange s b → z o b = xorSum nIn fun i => gfMul (g o i) (x i b))
                ∧ (useTemp = true → 0 < nOut → ∀ b, InRange s b → t.byteAt .temp ⟨0, b⟩ = none)
                ∧ (∀ a, legalAddr s.lmax .temp a = true → ¬ (useTemp = true ∧ 0 < nOut ∧ InRange s a.col) →
                    t.byteAt .temp a = s.byteAt .temp a)
                ∧ Frame [2, 4] [.temp] s t)

/-- 43_coding_loop.md R201, R210 (and 41_gf_arith.md R155): every loop order and either multiply method, run as R210's loop
nest, leaves exactly the product R200 asks for, for at least one input. -/
def Obligations.LoopNestsComputeTheProduct : Prop :=
  ∀ (order : LoopOrder) (method : Method) (R X : Mat), R.cols = X.rows → 1 ≤ X.rows →
    scheduled order method R X = R.mul X

/-! ## Reed–Solomon -/

/-- 44_reed_solomon.md R233: RS_CONFIG raises RANGE_ERROR for k < 1 or m < 1, then TOO_MANY_SHARDS for k + m > 256, and the
old configuration stays; else, with the generator matrix of R232, GEN is that matrix and nothing else, DSC, PSC, TSC hold
k, m and n, CFGSTRAT the strategy, and CFG_VALID is 1. -/
def Obligations.RsConfigRule : Prop :=
  decode 0x00000030#32 = .ok (.rsConfig 0 .table) ∧ decode 0x00000A30#32 = .ok (.rsConfig 2 .exp)
    ∧ ∀ (loop : BitVec 3) (method : Method) (s : State) (k m : Int),
      sint32 s.regs.kreq = k → sint32 s.regs.mreq = m →
      ((k < 1 ∨ m < 1) → FailsWith (.rsConfig loop method) s 3)
      ∧ (1 ≤ k → 1 ≤ m → 256 < k + m → FailsWith (.rsConfig loop method) s 1)
      ∧ (1 ≤ k → 1 ≤ m → k + m ≤ 256 → ∀ G, buildG s.params.vandMode k.toNat m.toNat = .ok G →
          ∃ t, exec (.rsConfig loop method) s = .next t ∧ StatusIs t false true false 0 true
            ∧ t.regWord 12 = BitVec.ofNat 32 k.toNat ∧ t.regWord 13 = BitVec.ofNat 32 m.toNat
            ∧ t.regWord 14 = BitVec.ofNat 32 (k + m).toNat
            ∧ t.regWord 15 = BitVec.ofNat 32 (loop.toNat + (if method = .exp then 8 else 0))
            ∧ (∀ r c, t.byteAt .gen ⟨r, c⟩
                = if r < (k + m).toNat ∧ c < k.toNat then some (G.entry r c) else none)
            ∧ Frame [2, 12, 13, 14, 15] [.gen] s t)

/-- 44_reed_solomon.md R232: the SINGULAR branch cannot be taken, in either mode: every legal (k, m) has a generator matrix. -/
def Obligations.GeneratorAlwaysExists : Prop :=
  ∀ (mode : VandMode) (k m : Nat), 1 ≤ k → 1 ≤ m → k + m ≤ 256 → ∃ G, buildG mode k m = .ok G

/-- 44_reed_solomon.md R232, R234: the generator matrix is n × k, it times the top k × k block of the Vandermonde matrix is
the Vandermonde matrix, and its own top block is the identity. -/
def Obligations.GeneratorIsSystematic : Prop :=
  ∀ (mode : VandMode) (k m : Nat) (G : Mat), buildG mode k m = .ok G →
    G.rows = k + m ∧ G.cols = k
      ∧ (∀ r c, r < k + m → c < k →
          xorSum k (fun i => gfMul (G.entry r i) (vand mode i c)) = vand mode r c)
      ∧ (∀ r c, r < k → c < k → G.entry r c = (if r = c then 1#8 else 0#8))

/-- 44_reed_solomon.md R235: the MDS property. Any k distinct rows of the generator matrix form an invertible matrix, under
ROW_POW for every legal (k, m) and under GEN_POW for n ≤ 255; under GEN_POW with n = 256 and k ≥ 2 some k distinct rows do
not. (R235 writes "iff n ≤ 255"; for k = 1 every row is [01], so every set of one row is invertible at n = 256 too.) -/
def Obligations.AnyKRowsAreInvertible : Prop :=
  (∀ (mode : VandMode) (k m : Nat) (G : Mat) (rows : List Nat), 1 ≤ k → 1 ≤ m → k + m ≤ 256 →
    (mode = .genPow → k + m ≤ 255 ∨ k = 1) → buildG mode k m = .ok G →
    rows.length = k → rows.Nodup → (∀ r ∈ rows, r < k + m) → ∃ D, (G.pick rows).invert = some D)
  ∧ (∀ (k m : Nat) (G : Mat), 2 ≤ k → k + m = 256 → buildG .genPow k m = .ok G →
      ∃ rows : List Nat, rows.length = k ∧ rows.Nodup ∧ (∀ r ∈ rows, r < 256) ∧ (G.pick rows).invert = none)

/-- 44_reed_solomon.md R237 (and R236): RS_ENCODE raises NOT_CONFIGURED, then RANGE_ERROR; a data byte of the range that
holds `none` is a model fault when there is parity to compute; else it writes the parity bytes to the byte range of slots
k .. n−1, and every other byte of SHARD is as before. A configured k is at least 1 (R233, `State.Inv.configured`). -/
def Obligations.RsEncodeRule : Prop :=
  decode 0x00000031#32 = .ok .rsEncode
    ∧ ∀ s : State,
      (s.regs.status.cfgValid = false → FailsWith .rsEncode s 8)
      ∧ (s.regs.status.cfgValid = true → ¬ RangeOk s → FailsWith .rsEncode s 3)
      ∧ (∀ (k m : Nat) (g : Nat → Nat → Byte), s.regs.status.cfgValid = true → RangeOk s →
          s.regs.dsc.toNat = k → s.regs.psc.toNat = m → 1 ≤ k →
          (∀ j i, j < m → i < k → s.byteAt .gen ⟨k + j, i⟩ = some (g j i)) →
          ((∃ i b, i < k ∧ 0 < m ∧ InRange s b ∧ s.byteAt .shard ⟨i, b⟩ = none) → StopsUnwritten .rsEncode s)
          ∧ ∀ x : Nat → Nat → Byte, (∀ i b, i < k → InRange s b → s.byteAt .shard ⟨i, b⟩ = some (x i b)) →
            ∃ t, SucceedsTo .rsEncode s t
              ∧ (∀ j b, j < m → InRange s b →
                  t.byteAt .shard ⟨k + j, b⟩ = some (xorSum k fun i => gfMul (g j i) (x i b)))
              ∧ (∀ a, legalAddr s.lmax .shard a = true → ¬ (k ≤ a.row ∧ a.row < k + m ∧ InRange s a.col) →
                  t.byteAt .shard a = s.byteAt .shard a)
              ∧ Frame [2] [.shard] s t)

/-- 44_reed_solomon.md R238 (and R236): RS_CHECK raises NOT_CONFIGURED, then RANGE_ERROR for the byte range, then with
USE_TEMP for the temp buffer; an operand byte that holds `none` is a model fault; else RESULT is 1 exactly when every parity byte of the range is the one R237 computes, with
USE_TEMP the byte range of TEMP holds `none`, and no SHARD byte changes. -/
def Obligations.RsCheckRule : Prop :=
  decode 0x00000032#32 = .ok (.rsCheck false) ∧ decode 0x00001032#32 = .ok (.rsCheck true)
    ∧ ∀ (useTemp : Bool) (s : State),
      (s.regs.status.cfgValid = false → FailsWith (.rsCheck useTemp) s 8)
      ∧ (s.regs.status.cfgValid = true → ¬ RangeOk s → FailsWith (.rsCheck useTemp) s 3)
      ∧ (s.regs.status.cfgValid = true → RangeOk s → useTemp = true → ¬ TempOk s → FailsWith (.rsCheck useTemp) s 3)
      ∧ (∀ (k m : Nat) (g : Nat → Nat → Byte), s.regs.status.cfgValid = true → RangeOk s →
          (useTemp = true → TempOk s) → s.regs.dsc.toNat = k → s.regs.psc.toNat = m → 1 ≤ k →
          (∀ j i, j < m → i < k → s.byteAt .gen ⟨k + j, i⟩ = some (g j i)) →
          (((∃ i b, i < k ∧ 0 < m ∧ InRange s b ∧ s.byteAt .shard ⟨i, b⟩ = none)
              ∨ (∃ j b, j < m ∧ InRange s b ∧ s.byteAt .shard ⟨k + j, b⟩ = none)) →
            StopsUnwritten (.rsCheck useTemp) s)
          ∧ ∀ x z : Nat → Nat → Byte,
            (∀ i b, i < k → InRange s b → s.byteAt .shard ⟨i, b⟩ = some (x i b)) →
            (∀ j b, j < m → InRange s b → s.byteAt .shard ⟨k + j, b⟩ = some (z j b)) →
            ∃ t, SucceedsTo (.rsCheck useTemp) s t
              ∧ (t.regWord 4 = 0#32 ∨ t.regWord 4 = 1#32)
              ∧ (t.regWord 4 = 1#32 ↔
                  ∀ j b, j < m → InRange s b → z j b = xorSum k fun i => gfMul (g j i) (x i b))
              ∧ (useTemp = true → ∀ b, InRange s b → t.byteAt .temp ⟨0, b⟩ = none)
              ∧ (∀ a, legalAddr s.lmax .temp a = true → ¬ (useTemp = true ∧ InRange s a.col) →
                  t.byteAt .temp a = s.byteAt .temp a)
              ∧ Frame [2, 4] [.temp] s t)

/-- 44_reed_solomon.md R242 (and R236, R239 to R241): RS_DECODE raises NOT_CONFIGURED, then RANGE_ERROR, then
NOT_ENOUGH_SHARDS; with every slot present it succeeds and writes nothing; then SINGULAR if the chosen rows have no
inverse. Else a byte of a chosen slot that holds `none` is a model fault; else the missing data slots take D times the
chosen slots, the missing parity slots take the generator's rows times the data slots so restored, and every other byte of
SHARD is as before. -/
def Obligations.RsDecodeRule : Prop :=
  decode 0x00000033#32 = .ok .rsDecode
    ∧ ∀ s : State,
      (s.regs.status.cfgValid = false → FailsWith .rsDecode s 8)
      ∧ (s.regs.status.cfgValid = true → ¬ RangeOk s → FailsWith .rsDecode s 3)
      ∧ (∀ (k n : Nat) (P : List Nat), s.regs.status.cfgValid = true → RangeOk s →
          s.regs.dsc.toNat = k → s.regs.tsc.toNat = n →
          P = (List.range n).filter (fun i => s.regs.present.getLsbD i) →
          (P.length < k → FailsWith .rsDecode s 4)
          ∧ (k ≤ P.length → P.length = n → ∃ t, SucceedsTo .rsDecode s t ∧ Frame [2] [] s t)
          ∧ (1 ≤ k → k ≤ P.length → P.length ≠ n → ∀ g : Nat → Nat → Byte,
              (∀ j c, j < k → c < k → s.byteAt .gen ⟨P.getD j 0, c⟩ = some (g j c)) →
              ((Mat.of k k g).invert = none → FailsWith .rsDecode s 5)
              ∧ ∀ D, (Mat.of k k g).invert = some D →
                ((∃ j b, j < k ∧ InRange s b ∧ s.byteAt .shard ⟨P.getD j 0, b⟩ = none) → StopsUnwritten .rsDecode s)
                ∧ ∀ x gp : Nat → Nat → Byte,
                  (∀ j b, j < k → InRange s b → s.byteAt .shard ⟨P.getD j 0, b⟩ = some (x j b)) →
                  (∀ i c, k ≤ i → i < n → s.regs.present.getLsbD i = false → c < k →
                    s.byteAt .gen ⟨i, c⟩ = some (gp i c)) →
                  ∃ t, SucceedsTo .rsDecode s t
                    ∧ (∀ i b, i < k → s.regs.present.getLsbD i = false → InRange s b →
                        t.byteAt .shard ⟨i, b⟩ = some (xorSum k fun j => gfMul (D.entry i j) (x j b)))
                    ∧ (∀ i b, k ≤ i → i < n → s.regs.present.getLsbD i = false → InRange s b → ∀ y : Nat → Byte,
                        (∀ c, c < k → t.byteAt .shard ⟨c, b⟩ = some (y c)) →
                        t.byteAt .shard ⟨i, b⟩ = some (xorSum k fun c => gfMul (gp i c) (y c)))
                    ∧ (∀ a, legalAddr s.lmax .shard a = true →
                        ¬ (a.row < n ∧ s.regs.present.getLsbD a.row = false ∧ InRange s a.col) →
                        t.byteAt .shard a = s.byteAt .shard a)
                    ∧ Frame [2] [.shard] s t))

/-- 44_reed_solomon.md R242 (and R235): in a state that meets the invariant, RS_DECODE ends in SINGULAR only under GEN_POW with
n = 256. -/
def Obligations.SingularOnlyUnderGenPow256 : Prop :=
  ∀ s t : State, s.Inv → exec .rsDecode s = .next t → t.regs.status.errcode = 5 →
    s.params.vandMode = .genPow ∧ s.regs.tsc.toNat = 256

/-- 44_reed_solomon.md R242, R247 item 2: the round trip. Let GEN be systematic, let every present slot hold in the range
the shard bytes of some data d (GEN times d), let at least k slots be present, and let the chosen rows have an inverse if a
slot is missing. Then RS_DECODE succeeds, every slot, missing ones included, holds the shard bytes of d in the range,
whatever the missing slots held, and every other byte of SHARD is as before. -/
def Obligations.RsDecodeRestoresMissingShards : Prop :=
  ∀ (s : State) (k n : Nat) (P : List Nat) (g d : Nat → Nat → Byte),
    s.regs.status.cfgValid = true → RangeOk s → s.regs.dsc.toNat = k → s.regs.tsc.toNat = n →
    P = (List.range n).filter (fun i => s.regs.present.getLsbD i) → 1 ≤ k → k ≤ P.length →
    (∀ r c, r < n → c < k → s.byteAt .gen ⟨r, c⟩ = some (g r c)) →
    (∀ r c, r < k → c < k → g r c = (if r = c then 1#8 else 0#8)) →
    (P.length ≠ n → ∃ D, (Mat.of k k fun j c => g (P.getD j 0) c).invert = some D) →
    (∀ i b, i < n → s.regs.present.getLsbD i = true → InRange s b →
      s.byteAt .shard ⟨i, b⟩ = some (xorSum k fun c => gfMul (g i c) (d c b))) →
    ∃ t, SucceedsTo .rsDecode s t
      ∧ (∀ i b, i < n → InRange s b →
          t.byteAt .shard ⟨i, b⟩ = some (xorSum k fun c => gfMul (g i c) (d c b)))
      ∧ (∀ a, legalAddr s.lmax .shard a = true →
          ¬ (a.row < n ∧ s.regs.present.getLsbD a.row = false ∧ InRange s a.col) →
          t.byteAt .shard a = s.byteAt .shard a)
      ∧ Frame [2] [.shard] s t

/-- 44_reed_solomon.md R247 items 3 and 6: right after a successful RS_ENCODE, RS_CHECK over the same range gives 1, with or
without the temp buffer, and a second RS_ENCODE leaves every byte as it is. -/
def Obligations.EncodeThenCheckAgrees : Prop :=
  ∀ s t : State, exec .rsEncode s = .next t → t.regs.status.err = false →
    (∀ useTemp, (useTemp = true → TempOk t) →
      ∃ u, SucceedsTo (.rsCheck useTemp) t u ∧ u.regWord 4 = 1#32 ∧ Frame [2, 4] [.temp] t u)
    ∧ ∃ u, SucceedsTo .rsEncode t u ∧ SameRegs [2] t u
        ∧ ∀ space a, legalAddr s.lmax space a = true → u.byteAt space a = t.byteAt space a
end

