-- ==== Sys2Proof/Laws/Memory.lean ====
section
/-! SUPPORT. The laws of a byte memory: read after write and after clear, keys of addresses, and that every operation
keeps the canonical form. -/

namespace Sys2Proof.Machine

/-! ## Reading back -/

theorem Memory.read_write_same (m : Memory) (k : Nat) (v : Byte) :
    Memory.read (Memory.write m k v) k = some v := by
  induction m with
  | nil => simp [Memory.write, Memory.read]
  | cons c rest ih =>
    obtain ⟨a, b⟩ := c
    by_cases h1 : k < a
    · simp [Memory.write, Memory.read, h1]
    · by_cases h2 : k = a
      · simp [Memory.write, Memory.read, h2]
      · simp [Memory.write, Memory.read, h1, h2, Ne.symm h2, ih]

theorem Memory.read_write_other (m : Memory) {k k' : Nat} (v : Byte) (h : k' ≠ k) :
    Memory.read (Memory.write m k v) k' = Memory.read m k' := by
  induction m with
  | nil => simp [Memory.write, Memory.read, Ne.symm h]
  | cons c rest ih =>
    obtain ⟨a, b⟩ := c
    by_cases h1 : k < a
    · simp [Memory.write, Memory.read, h1, Ne.symm h]
    · by_cases h2 : k = a
      · subst h2; simp [Memory.write, Memory.read, Ne.symm h]
      · simp [Memory.write, Memory.read, h1, h2, ih]

theorem Memory.read_write (m : Memory) (k k' : Nat) (v : Byte) :
    Memory.read (Memory.write m k v) k' = if k' = k then some v else Memory.read m k' := by
  by_cases h : k' = k
  · subst h; simp [Memory.read_write_same]
  · simp [h, Memory.read_write_other m v h]

theorem Memory.read_clear (m : Memory) (k k' : Nat) :
    Memory.read (Memory.clear m k) k' = if k' = k then none else Memory.read m k' := by
  induction m with
  | nil => simp [Memory.clear, Memory.read]
  | cons c rest ih =>
    obtain ⟨a, b⟩ := c
    have hc : Memory.clear ((a, b) :: rest) k
        = if a = k then Memory.clear rest k else (a, b) :: Memory.clear rest k := by
      by_cases h : a = k <;> simp [Memory.clear, h]
    rw [hc]
    by_cases h : a = k
    · subst h
      rw [if_pos rfl, ih]
      by_cases hk : k' = a
      · simp [hk]
      · simp [hk, Memory.read, Ne.symm hk]
    · by_cases ha : a = k'
      · subst ha; simp [h, Memory.read]
      · simp [h, Memory.read, ha, ih]

/-! ## The canonical form -/

theorem Memory.mem_write {m : Memory} {k : Nat} {v : Byte} {c : Host.Cell}
    (h : c ∈ Memory.write m k v) : c = (k, v) ∨ c ∈ m := by
  induction m with
  | nil => simpa [Memory.write] using h
  | cons d rest ih =>
    obtain ⟨a, b⟩ := d
    simp only [Memory.write] at h
    split at h
    · simpa using h
    · split at h
      · rcases List.mem_cons.1 h with h | h
        · exact .inl h
        · exact .inr (List.mem_cons_of_mem _ h)
      · rcases List.mem_cons.1 h with h | h
        · exact .inr (h ▸ List.mem_cons_self)
        · rcases ih h with h | h
          · exact .inl h
          · exact .inr (List.mem_cons_of_mem _ h)

theorem Memory.wf_write {m : Memory} (h : Memory.wf m) (k : Nat) (v : Byte) :
    Memory.wf (Memory.write m k v) := by
  induction m with
  | nil => simp [Memory.write, Memory.wf]
  | cons d rest ih =>
    obtain ⟨a, b⟩ := d
    obtain ⟨hd, hr⟩ := List.pairwise_cons.1 h
    simp only [Memory.write]
    split
    · rename_i hlt
      refine List.pairwise_cons.2 ⟨?_, h⟩
      intro c hc
      rcases List.mem_cons.1 hc with hc | hc
      · simpa [hc] using hlt
      · exact Nat.lt_trans hlt (hd c hc)
    · split
      · rename_i hnl he
        subst he
        exact List.pairwise_cons.2 ⟨hd, hr⟩
      · rename_i hnl hne
        refine List.pairwise_cons.2 ⟨?_, ih hr⟩
        intro c hc
        rcases Memory.mem_write hc with hc | hc
        · subst hc; simp only; omega
        · exact hd c hc

/-- In a canonical memory, a listed cell is what its key reads as. -/
theorem Memory.read_of_mem {m : Memory} (h : Memory.wf m) {k : Nat} {v : Byte} (hm : (k, v) ∈ m) :
    Memory.read m k = some v := by
  induction m with
  | nil => cases hm
  | cons c rest ih =>
    obtain ⟨a, b⟩ := c
    rw [Memory.wf, List.pairwise_cons] at h
    rcases List.mem_cons.mp hm with h' | h'
    · cases h'; simp [Memory.read]
    · have := h.1 _ h'
      rw [Memory.read, if_neg (by simp at this; omega)]
      exact ih h.2 h'

theorem Memory.wf_clear {m : Memory} (h : Memory.wf m) (k : Nat) : Memory.wf (Memory.clear m k) :=
  List.Pairwise.filter _ h

theorem Memory.mem_clear {m : Memory} {k : Nat} {c : Host.Cell} (h : c ∈ Memory.clear m k) : c ∈ m :=
  (List.mem_filter.1 h).1

/-! ## The eight memories -/

@[simp] theorem Mems.get_put_same (m : Mems) (space : Space) (x : Memory) :
    (m.put space x).get space = x := by cases space <;> rfl

theorem Mems.get_put_other (m : Mems) {space space' : Space} (x : Memory) (h : space' ≠ space) :
    (m.put space x).get space' = m.get space' := by
  cases space <;> cases space' <;> first | rfl | exact absurd rfl h

theorem Mems.get_put (m : Mems) (space space' : Space) (x : Memory) :
    (m.put space x).get space' = if space' = space then x else m.get space' := by
  by_cases h : space' = space
  · subst h; simp
  · simp [h, Mems.get_put_other m x h]

theorem Mems.wf_iff (m : Mems) : m.wf ↔ ∀ space, Memory.wf (m.get space) := by
  constructor
  · intro h space
    obtain ⟨h1, h2, h3, h4, h5, h6, h7, h8⟩ := h
    cases space <;> assumption
  · intro h
    exact ⟨h .shard, h .temp, h .matA, h .matB, h .matC, h .idxIn, h .idxOut, h .gen⟩

theorem Mems.wf_put {m : Mems} (h : m.wf) (space : Space) {x : Memory} (hx : Memory.wf x) :
    (m.put space x).wf := by
  rw [Mems.wf_iff] at h ⊢
  intro space'
  rw [Mems.get_put]
  split
  · exact hx
  · exact h space'

theorem Mems.wf_empty : Mems.empty.wf := by decide

/-! ## Keys -/

theorem addrKey_inj {a b : Addr} (ha : a.col < 2 ^ 32) (hb : b.col < 2 ^ 32) :
    addrKey a = addrKey b ↔ a = b := by
  obtain ⟨ar, ac⟩ := a
  obtain ⟨br, bc⟩ := b
  simp only [addrKey, Addr.mk.injEq] at *
  constructor
  · intro h; omega
  · rintro ⟨rfl, rfl⟩; rfl

theorem lmax_lt (p : Params) : p.lmax < 2 ^ 32 := by
  have := p.lmaxPred.isLt
  simp only [Params.lmax]
  omega

theorem lmax_pos (p : Params) : 1 ≤ p.lmax := by simp [Params.lmax]

/-- Every legal address has a column below 2^32, so legal addresses have distinct keys. -/
theorem legalAddr_col {lmax : Nat} (hl : lmax < 2 ^ 32) {space : Space} {a : Addr}
    (h : legalAddr lmax space a = true) : a.col < 2 ^ 32 := by
  cases space <;> simp [legalAddr] at h <;> omega

end Sys2Proof.Machine
end

