-- ==== Sys2Proof/Laws/State.lean ====
section
/-! SUPPORT. For each named update of State, what each field is after it. -/

namespace Sys2Proof.Machine

variable (s : State)

/-! ## One byte -/

section
variable (space : Space) (a : Addr) (v : Byte)
@[simp] theorem State.memWrite_params : (s.memWrite space a v).params = s.params := rfl
@[simp] theorem State.memWrite_regs : (s.memWrite space a v).regs = s.regs := rfl
@[simp] theorem State.memWrite_latch : (s.memWrite space a v).latch = s.latch := rfl
@[simp] theorem State.memWrite_faults : (s.memWrite space a v).faults = s.faults := rfl
@[simp] theorem State.memWrite_hosts : (s.memWrite space a v).hosts = s.hosts := rfl
@[simp] theorem State.memWrite_turns : (s.memWrite space a v).turns = s.turns := rfl
@[simp] theorem State.memWrite_mems :
    (s.memWrite space a v).mems = s.mems.put space (Memory.write (s.mems.get space) (addrKey a) v) := rfl
@[simp] theorem State.memWrite_genHolds (b : Addr) : (s.memWrite space a v).genHolds b = s.genHolds b := rfl
@[simp] theorem State.memClear_mems :
    (s.memClear space a).mems = s.mems.put space (Memory.clear (s.mems.get space) (addrKey a)) := rfl
@[simp] theorem State.memClear_genHolds (b : Addr) : (s.memClear space a).genHolds b = s.genHolds b := rfl
@[simp] theorem State.memClear_params : (s.memClear space a).params = s.params := rfl
@[simp] theorem State.memClear_regs : (s.memClear space a).regs = s.regs := rfl
@[simp] theorem State.memClear_latch : (s.memClear space a).latch = s.latch := rfl
@[simp] theorem State.memClear_faults : (s.memClear space a).faults = s.faults := rfl
@[simp] theorem State.memClear_hosts : (s.memClear space a).hosts = s.hosts := rfl
@[simp] theorem State.memClear_turns : (s.memClear space a).turns = s.turns := rfl
end

/-! ## Lists of bytes -/

section
variable (space : Space) (l : List (Addr × Byte)) (as : List Addr)
@[simp] theorem State.writeAll_nil : s.writeAll space [] = s := rfl
@[simp] theorem State.writeAll_cons (w : Addr × Byte) :
    s.writeAll space (w :: l) = (s.writeAll space l).memWrite space w.1 w.2 := rfl
@[simp] theorem State.clearAll_nil : s.clearAll space [] = s := rfl
@[simp] theorem State.clearAll_cons (a : Addr) :
    s.clearAll space (a :: as) = (s.clearAll space as).memClear space a := rfl
@[simp] theorem State.writeAll_params : (s.writeAll space l).params = s.params := by induction l <;> simp [*]
@[simp] theorem State.writeAll_regs : (s.writeAll space l).regs = s.regs := by induction l <;> simp [*]
@[simp] theorem State.writeAll_latch : (s.writeAll space l).latch = s.latch := by induction l <;> simp [*]
@[simp] theorem State.writeAll_faults : (s.writeAll space l).faults = s.faults := by induction l <;> simp [*]
@[simp] theorem State.writeAll_hosts : (s.writeAll space l).hosts = s.hosts := by induction l <;> simp [*]
@[simp] theorem State.writeAll_turns : (s.writeAll space l).turns = s.turns := by induction l <;> simp [*]
@[simp] theorem State.clearAll_params : (s.clearAll space as).params = s.params := by induction as <;> simp [*]
@[simp] theorem State.clearAll_regs : (s.clearAll space as).regs = s.regs := by induction as <;> simp [*]
@[simp] theorem State.clearAll_latch : (s.clearAll space as).latch = s.latch := by induction as <;> simp [*]
@[simp] theorem State.clearAll_faults : (s.clearAll space as).faults = s.faults := by induction as <;> simp [*]
@[simp] theorem State.clearAll_hosts : (s.clearAll space as).hosts = s.hosts := by induction as <;> simp [*]
@[simp] theorem State.clearAll_turns : (s.clearAll space as).turns = s.turns := by induction as <;> simp [*]
end

/-! ## RESULT and TEMP -/

section
variable (v : Byte) (used : Bool) (off cnt : Nat)
@[simp] theorem State.setResult_params : (s.setResult v).params = s.params := rfl
@[simp] theorem State.setResult_regs : (s.setResult v).regs = { s.regs with result := v } := rfl
@[simp] theorem State.setResult_mems : (s.setResult v).mems = s.mems := rfl
@[simp] theorem State.setResult_latch : (s.setResult v).latch = s.latch := rfl
@[simp] theorem State.setResult_faults : (s.setResult v).faults = s.faults := rfl
@[simp] theorem State.setResult_hosts : (s.setResult v).hosts = s.hosts := rfl
@[simp] theorem State.setResult_turns : (s.setResult v).turns = s.turns := rfl
@[simp] theorem State.spoilTemp_params : (s.spoilTemp used off cnt).params = s.params := by
  cases used <;> simp [State.spoilTemp]
@[simp] theorem State.spoilTemp_regs : (s.spoilTemp used off cnt).regs = s.regs := by
  cases used <;> simp [State.spoilTemp]
@[simp] theorem State.spoilTemp_latch : (s.spoilTemp used off cnt).latch = s.latch := by
  cases used <;> simp [State.spoilTemp]
@[simp] theorem State.spoilTemp_faults : (s.spoilTemp used off cnt).faults = s.faults := by
  cases used <;> simp [State.spoilTemp]
@[simp] theorem State.spoilTemp_hosts : (s.spoilTemp used off cnt).hosts = s.hosts := by
  cases used <;> simp [State.spoilTemp]
@[simp] theorem State.spoilTemp_turns : (s.spoilTemp used off cnt).turns = s.turns := by
  cases used <;> simp [State.spoilTemp]
end

/-! ## Issue, completion, error -/

section
variable (w : Word) (e : ErrCode)
@[simp] theorem State.issue_params : (s.issue w).params = s.params := rfl
@[simp] theorem State.issue_regs :
    (s.issue w).regs = { s.regs with status := s.regs.status.issued } := rfl
@[simp] theorem State.issue_mems : (s.issue w).mems = s.mems := rfl
@[simp] theorem State.issue_latch : (s.issue w).latch = w := rfl
@[simp] theorem State.issue_faults : (s.issue w).faults = s.faults := rfl
@[simp] theorem State.issue_hosts : (s.issue w).hosts = s.hosts := rfl
@[simp] theorem State.issue_turns : (s.issue w).turns = s.turns := rfl
@[simp] theorem State.completeOk_params : s.completeOk.params = s.params := rfl
@[simp] theorem State.completeOk_regs :
    s.completeOk.regs = { s.regs with status := s.regs.status.succeeded } := rfl
@[simp] theorem State.completeOk_mems : s.completeOk.mems = s.mems := rfl
@[simp] theorem State.completeOk_latch : s.completeOk.latch = s.latch := rfl
@[simp] theorem State.completeOk_faults : s.completeOk.faults = s.faults := rfl
@[simp] theorem State.completeOk_hosts : s.completeOk.hosts = s.hosts := rfl
@[simp] theorem State.completeOk_turns : s.completeOk.turns = s.turns := rfl
@[simp] theorem State.raiseError_params : (s.raiseError e).params = s.params := rfl
@[simp] theorem State.raiseError_regs :
    (s.raiseError e).regs = { s.regs with status := s.regs.status.failed e } := rfl
@[simp] theorem State.raiseError_mems : (s.raiseError e).mems = s.mems := rfl
@[simp] theorem State.raiseError_latch : (s.raiseError e).latch = s.latch := rfl
@[simp] theorem State.raiseError_faults : (s.raiseError e).faults = s.faults := rfl
@[simp] theorem State.raiseError_hosts : (s.raiseError e).hosts = s.hosts := rfl
@[simp] theorem State.raiseError_turns : (s.raiseError e).turns = s.turns := rfl
end

/-! ## Reset -/

@[simp] theorem State.afterReset_params : s.afterReset.params = s.params := rfl
@[simp] theorem State.afterReset_regs : s.afterReset.regs = Regs.reset := rfl
@[simp] theorem State.afterReset_mems : s.afterReset.mems = Mems.empty := rfl
@[simp] theorem State.afterReset_latch : s.afterReset.latch = 0 := rfl
@[simp] theorem State.afterReset_faults : s.afterReset.faults = s.faults := rfl
@[simp] theorem State.afterReset_hosts : s.afterReset.hosts = s.hosts := rfl
@[simp] theorem State.afterReset_turns : s.afterReset.turns = s.turns := rfl

end Sys2Proof.Machine
end

