-- ==== Sys2Proof/Laws/Ops.lean ====
section
/-! SUPPORT. One lemma per shared operation, saying all it does: a byte after a write, clear or block write, reading a
block, and how a command rule ends. -/

namespace Sys2Proof.Machine

variable {s t : State}

/-! ## One byte -/

theorem State.byteAt_eq_read (h : space ≠ .gen) (a : Addr) :
    s.byteAt space a = Memory.read (s.mems.get space) (addrKey a) := by
  simp [State.byteAt, h]

/-- What a byte holds depends on its memory, and for GEN on the configuration. -/
theorem State.byteAt_congr {space : Space} (hm : t.mems.get space = s.mems.get space)
    (hs : t.regs.status.cfgValid = s.regs.status.cfgValid) (hn : t.regs.tsc = s.regs.tsc)
    (hk : t.regs.dsc = s.regs.dsc) (a : Addr) : t.byteAt space a = s.byteAt space a := by
  simp [State.byteAt, State.genHolds, hm, hs, hn, hk]

/-- A byte after `MemWrite`. For GEN the written byte must lie in N × K. -/
theorem State.byteAt_memWrite {space : Space} {a : Addr} (v : Byte) (ha : a.col < 2 ^ 32)
    (hg : space = .gen → s.genHolds a = true) (space' : Space) {b : Addr} (hb : b.col < 2 ^ 32) :
    (s.memWrite space a v).byteAt space' b
      = if space' = space ∧ b = a then some v else s.byteAt space' b := by
  by_cases hsp : space' = space
  · subst hsp
    by_cases hab : b = a
    · subst hab
      have hh : ¬(space' = .gen ∧ s.genHolds b = false) := fun h => by simp [hg h.1] at h
      simp only [State.byteAt, State.memWrite_genHolds, State.memWrite_mems, Mems.get_put_same,
        Memory.read_write_same, if_neg hh, and_self, if_true]
    · have hk : addrKey b ≠ addrKey a := fun h => hab ((addrKey_inj hb ha).1 h)
      simp only [State.byteAt, State.memWrite_genHolds, State.memWrite_mems, Mems.get_put_same,
        Memory.read_write_other _ v hk, hab, and_false, if_false]
  · simp only [hsp, false_and, if_false]
    exact State.byteAt_congr (s := s) (t := s.memWrite space a v)
      (by rw [State.memWrite_mems, Mems.get_put_other _ _ hsp]) rfl rfl rfl b

/-- A byte after it, or another one, was made `none`. -/
theorem State.byteAt_memClear {space : Space} {a : Addr} (ha : a.col < 2 ^ 32) (space' : Space) {b : Addr}
    (hb : b.col < 2 ^ 32) :
    (s.memClear space a).byteAt space' b
      = if space' = space ∧ b = a then none else s.byteAt space' b := by
  by_cases hsp : space' = space
  · subst hsp
    by_cases hab : b = a
    · subst hab
      simp only [State.byteAt, State.memClear_genHolds, State.memClear_mems, Mems.get_put_same,
        Memory.read_clear, and_self, if_true, ite_self]
    · have hk : addrKey b ≠ addrKey a := fun h => hab ((addrKey_inj hb ha).1 h)
      simp only [State.byteAt, State.memClear_genHolds, State.memClear_mems, Mems.get_put_same,
        Memory.read_clear, hk, hab, and_false, if_false]
  · simp only [hsp, false_and, if_false]
    exact State.byteAt_congr (s := s) (t := s.memClear space a)
      (by rw [State.memClear_mems, Mems.get_put_other _ _ hsp]) rfl rfl rfl b

/-! ## Lists of bytes -/

/-- A memory that is not written keeps its contents. -/
theorem State.writeAll_get_other {space space' : Space} (l : List (Addr × Byte)) (h : space' ≠ space) :
    (s.writeAll space l).mems.get space' = s.mems.get space' := by
  induction l with
  | nil => rfl
  | cons w l ih => simpa [State.memWrite, Mems.get_put_other _ _ h] using ih

theorem State.clearAll_get_other {space space' : Space} (l : List Addr) (h : space' ≠ space) :
    (s.clearAll space l).mems.get space' = s.mems.get space' := by
  induction l with
  | nil => rfl
  | cons w l ih => simpa [State.memClear, Mems.get_put_other _ _ h] using ih

/-- A byte after a list of writes: the value of its first entry in the list, or what it held before. -/
theorem State.byteAt_writeAll {space : Space} (hg : space ≠ .gen) (l : List (Addr × Byte))
    (hl : ∀ w ∈ l, w.1.col < 2 ^ 32) {b : Addr} (hb : b.col < 2 ^ 32) :
    (s.writeAll space l).byteAt space b
      = match l.find? (fun w => w.1 == b) with
        | some w => some w.2
        | none => s.byteAt space b := by
  induction l with
  | nil => rfl
  | cons w l ih =>
    have hw := hl w List.mem_cons_self
    have ih := ih fun x hx => hl x (List.mem_cons_of_mem _ hx)
    rw [State.writeAll_cons, State.byteAt_memWrite _ hw (fun h => absurd h hg) _ hb]
    by_cases h : w.1 = b
    · subst h; simp
    · simp [h, Ne.symm h, ih]

/-- A byte after a list of clears. -/
theorem State.byteAt_clearAll {space : Space} (l : List Addr)
    (hl : ∀ a ∈ l, a.col < 2 ^ 32) {b : Addr} (hb : b.col < 2 ^ 32) :
    (s.clearAll space l).byteAt space b = if b ∈ l then none else s.byteAt space b := by
  induction l with
  | nil => simp
  | cons a l ih =>
    have ha := hl a List.mem_cons_self
    have ih := ih fun x hx => hl x (List.mem_cons_of_mem _ hx)
    rw [State.clearAll_cons, State.byteAt_memClear ha _ hb, ih]
    by_cases h : b = a <;> simp [h]

/-! ## The canonical form is kept -/

theorem State.memWrite_wf (h : s.mems.wf) (space : Space) (a : Addr) (v : Byte) :
    (s.memWrite space a v).mems.wf :=
  Mems.wf_put h _ (Memory.wf_write ((Mems.wf_iff _).1 h space) _ _)

theorem State.memClear_wf (h : s.mems.wf) (space : Space) (a : Addr) : (s.memClear space a).mems.wf :=
  Mems.wf_put h _ (Memory.wf_clear ((Mems.wf_iff _).1 h space) _)

theorem State.writeAll_wf (h : s.mems.wf) (space : Space) (l : List (Addr × Byte)) :
    (s.writeAll space l).mems.wf := by
  induction l with
  | nil => exact h
  | cons w l ih => exact State.memWrite_wf ih _ _ _

theorem State.clearAll_wf (h : s.mems.wf) (space : Space) (l : List Addr) :
    (s.clearAll space l).mems.wf := by
  induction l with
  | nil => exact h
  | cons w l ih => exact State.memClear_wf ih _ _

theorem State.writeBlock_wf (h : s.mems.wf) (space : Space) (rows : List Nat) (col0 : Nat) (A : Mat) :
    (s.writeBlock space rows col0 A).mems.wf := State.writeAll_wf h _ _

theorem State.spoilTemp_wf (h : s.mems.wf) (used : Bool) (off cnt : Nat) :
    (s.spoilTemp used off cnt).mems.wf := by
  cases used
  · exact h
  · exact State.clearAll_wf h _ _

/-! ## Reading -/

theorem State.memRead_ok {space : Space} {a : Addr} {v : Byte} :
    s.memRead space a = .ok v ↔ s.byteAt space a = some v := by
  unfold State.memRead
  cases h : s.byteAt space a <;> simp

/-- The only way a read stops is a model fault on a byte that holds `none`. -/
theorem State.memRead_error {space : Space} {a : Addr} {e : Stop} :
    s.memRead space a = .error e ↔ s.byteAt space a = none ∧ e = .fault (.unwrittenRead space a) := by
  unfold State.memRead
  cases h : s.byteAt space a <;> simp [eq_comm]

theorem collect_ok {α β ε : Type} {f : α → Except ε β} {g : α → β} {l : List α}
    (h : ∀ a ∈ l, f a = .ok (g a)) : collect f l = .ok (l.map g) := by
  induction l with
  | nil => rfl
  | cons a l ih =>
    simp [collect, h a List.mem_cons_self, ih fun x hx => h x (List.mem_cons_of_mem _ hx)]

/-- `collect` succeeds exactly when `f` does on every element, and keeps the results in order. -/
theorem collect_eq_ok {α β ε : Type} {f : α → Except ε β} {l : List α} {ys : List β} :
    collect f l = .ok ys ↔ List.Forall₂ (fun a y => f a = .ok y) l ys := by
  induction l generalizing ys with
  | nil => cases ys <;> simp [collect]
  | cons a l ih =>
    constructor
    · intro h
      simp only [collect] at h
      split at h
      · cases h
      · rename_i b hb
        split at h
        · cases h
        · rename_i bs hbs
          cases h
          exact .cons hb (ih.1 hbs)
    · intro h
      cases h with
      | cons hb hbs => simp [collect, hb, ih.2 hbs]

theorem collect_length {α β ε : Type} {f : α → Except ε β} {l : List α} {ys : List β}
    (h : collect f l = .ok ys) : ys.length = l.length := (collect_eq_ok.1 h).length_eq.symm

/-- `collect` stops only where `f` stops on some element. -/
theorem collect_eq_error {α β ε : Type} {f : α → Except ε β} {l : List α} {e : ε}
    (h : collect f l = .error e) : ∃ a ∈ l, f a = .error e := by
  induction l with
  | nil => simp [collect] at h
  | cons a l ih =>
    simp only [collect] at h
    split at h
    · rename_i hb
      cases h
      exact ⟨a, List.mem_cons_self, hb⟩
    · split at h
      · rename_i hbs
        cases h
        obtain ⟨x, hx, hf⟩ := ih hbs
        exact ⟨x, List.mem_cons_of_mem _ hx, hf⟩
      · cases h

/-! ## Sequences of checks -/

theorem require_ok {ok : Bool} {e : ErrCode} (h : ok = true) : require ok e = .ok () := by simp [require, h]
theorem require_error {ok : Bool} {e : ErrCode} (h : ok = false) : require ok e = .error (.error e) := by
  simp [require, h]
theorem requireSpec_ok {ok : Bool} {what : String} (h : ok = true) : requireSpec ok what = .ok () := by
  simp [requireSpec, h]

/-- A precondition that was passed holds. -/
theorem requireSpec_eq_ok {ok : Bool} {what : String} {u : Unit} : requireSpec ok what = .ok u ↔ ok = true := by
  unfold requireSpec
  split <;> simp_all

/-- A rule written as a sequence ends well only if each part does. -/
theorem bind_eq_ok {α β ε : Type} {x : Except ε α} {f : α → Except ε β} {b : β} :
    (x >>= f) = .ok b ↔ ∃ a, x = .ok a ∧ f a = .ok b := by
  cases x <;> simp [bind, Except.bind]

@[simp] theorem ok_bind {α β ε : Type} (a : α) (f : α → Except ε β) : (Except.ok a >>= f) = f a := rfl
@[simp] theorem error_bind {α β ε : Type} (e : ε) (f : α → Except ε β) :
    ((Except.error e : Except ε α) >>= f) = .error e := rfl

/-- A rule written as a sequence stops where its first part stops, or after it. -/
theorem bind_eq_error {α β ε : Type} {x : Except ε α} {f : α → Except ε β} {e : ε} :
    (x >>= f) = .error e ↔ x = .error e ∨ ∃ a, x = .ok a ∧ f a = .error e := by
  cases x <;> simp [bind, Except.bind]

/-! ## Matrices -/

@[simp] theorem Mat.of_rows (r c : Nat) (f : Nat → Nat → Byte) : (Mat.of r c f).rows = r := rfl
@[simp] theorem Mat.of_cols (r c : Nat) (f : Nat → Nat → Byte) : (Mat.of r c f).cols = c := rfl

theorem Mat.entry_of {r c i j : Nat} (f : Nat → Nat → Byte) (hi : i < r) (hj : j < c) :
    (Mat.of r c f).entry i j = f i j := by
  simp [Mat.entry, cell, Mat.of, hi, hj]

theorem Mat.of_wf {r c : Nat} (hr : 1 ≤ r) (hc : 1 ≤ c) (f : Nat → Nat → Byte) : (Mat.of r c f).wf = true := by
  simp [Mat.wf, Mat.of, hr, hc]

@[simp] theorem Mat.mul_rows (A B : Mat) : (A.mul B).rows = A.rows := rfl
@[simp] theorem Mat.mul_cols (A B : Mat) : (A.mul B).cols = B.cols := rfl

theorem Mat.entry_mul (A B : Mat) {i j : Nat} (hi : i < A.rows) (hj : j < B.cols) :
    (A.mul B).entry i j = xorSum A.cols fun q => gfMul (A.entry i q) (B.entry q j) :=
  Mat.entry_of _ hi hj

/-- `augment` with its precondition met gives a matrix. -/
theorem matAugment_ok {A B : Mat} (h : A.rows = B.rows) : matAugment A B = .ok (A.augment B) := by
  simp [matAugment, requireSpec, h]

/-- `submatrix` with its precondition met gives a matrix. -/
theorem matSubmatrix_ok {A : Mat} {rmin cmin rmax cmax : Nat} (h1 : rmin < rmax) (h2 : rmax ≤ A.rows)
    (h3 : cmin < cmax) (h4 : cmax ≤ A.cols) :
    matSubmatrix A rmin cmin rmax cmax = .ok (A.submatrix rmin cmin rmax cmax) := by
  simp [matSubmatrix, requireSpec, h1, h2, h3, h4]

/-- The named rows of a matrix, at least one and all of them its own. -/
theorem matPick_ok {A : Mat} {is : List Nat} (h1 : is ≠ []) (h2 : ∀ i ∈ is, i < A.rows) :
    matPick A is = .ok (A.pick is) := by
  have h : (1 ≤ is.length && is.all fun i => decide (i < A.rows)) = true := by
    simpa [List.length_pos_iff.2 h1, Nat.one_le_iff_ne_zero, h1] using h2
  rw [matPick, requireSpec_ok h, ok_bind]

@[simp] theorem Mat.augment_rows (A B : Mat) : (A.augment B).rows = A.rows := rfl
@[simp] theorem Mat.augment_cols (A B : Mat) : (A.augment B).cols = A.cols + B.cols := rfl
@[simp] theorem Mat.submatrix_rows (A : Mat) (a b c d : Nat) : (A.submatrix a b c d).rows = c - a := rfl
@[simp] theorem Mat.submatrix_cols (A : Mat) (a b c d : Nat) : (A.submatrix a b c d).cols = d - b := rfl
@[simp] theorem Mat.pick_rows (A : Mat) (is : List Nat) : (A.pick is).rows = is.length := rfl
@[simp] theorem Mat.pick_cols (A : Mat) (is : List Nat) : (A.pick is).cols = A.cols := rfl

theorem gaussJordan_shape {n : Nat} {W V : Mat} (h : gaussJordan n W = some V) : V.rows = n ∧ V.cols = 2 * n := by
  unfold gaussJordan at h
  split at h
  · cases h
  · cases h; exact ⟨rfl, rfl⟩

/-- On a square matrix with a row, `invert` as the commands call it is R179's elimination. -/
theorem matInvert_eq {A : Mat} (hs : A.rows = A.cols) (hr : 1 ≤ A.rows) :
    matInvert A = match A.invert with
      | none => .error (.error .singular)
      | some D => .ok D := by
  unfold matInvert Mat.invert
  rw [requireSpec_ok (by simp [hs]), ok_bind, matAugment_ok (show A.rows = (Mat.identity A.rows).rows from rfl), ok_bind]
  cases h : gaussJordan A.rows (A.augment (Mat.identity A.rows)) with
  | none => rfl
  | some V =>
    obtain ⟨h1, h2⟩ := gaussJordan_shape h
    exact matSubmatrix_ok (by omega) (by omega) (by omega) (by omega)

theorem xorSum_congr {n : Nat} {f g : Nat → Byte} (h : ∀ i, i < n → f i = g i) : xorSum n f = xorSum n g := by
  induction n with
  | zero => rfl
  | succ n ih => simp [xorSum, ih fun i hi => h i (by omega), h n (by omega)]

/-! ## Blocks -/

/-- A line whose bytes all hold values reads as those values. -/
theorem State.readLine_ok {space : Space} {row col0 cols : Nat} {f : Nat → Byte}
    (h : ∀ c, c < cols → s.byteAt space ⟨row, col0 + c⟩ = some (f c)) :
    s.readLine space row col0 cols = .ok ((List.range cols).map f) :=
  collect_ok fun c hc => State.memRead_ok.2 (h c (List.mem_range.1 hc))

/-- A block with a row and a column whose bytes all hold values reads as the matrix of those values. -/
theorem State.readBlock_ok {space : Space} {rows : List Nat} {col0 cols : Nat} {f : Nat → Nat → Byte}
    (hr : 1 ≤ rows.length) (hc : 1 ≤ cols)
    (h : ∀ o, o < rows.length → ∀ c, c < cols → s.byteAt space ⟨rows.getD o 0, col0 + c⟩ = some (f o c)) :
    s.readBlock space rows col0 cols = .ok (Mat.of rows.length cols f) := by
  have hl : collect (fun r => s.readLine space r col0 cols) rows
      = .ok ((List.range rows.length).map fun o => (List.range cols).map fun c => f o c) := by
    rw [collect_eq_ok, List.forall₂_iff_get]
    refine ⟨by simp, fun i h1 h2 => ?_⟩
    have := State.readLine_ok (s := s) (row := rows.getD i 0) (fun c hc => h i h1 c hc)
    simpa [List.getD_eq_getElem?_getD, h1] using this
  unfold State.readBlock
  rw [hl]
  simp [requireSpec, hr, hc, Mat.of]

/-- A block that was read has the shape asked for, with a row and a column. -/
theorem State.readBlock_shape {space : Space} {rows : List Nat} {col0 cols : Nat} {A : Mat}
    (h : s.readBlock space rows col0 cols = .ok A) : A.rows = rows.length ∧ A.cols = cols ∧ A.wf = true := by
  unfold State.readBlock at h
  obtain ⟨_, hs, h⟩ := bind_eq_ok.1 h
  obtain ⟨hr, hc⟩ : 1 ≤ rows.length ∧ 1 ≤ cols := by simpa using requireSpec_eq_ok.1 hs
  split at h
  · cases h
  · rename_i data hd
    cases h
    refine ⟨rfl, rfl, ?_⟩
    have hl : ∀ row ∈ data, row.length = cols := by
      intro row hrow
      obtain ⟨k, hk, rfl⟩ := List.getElem_of_mem hrow
      have h2 := List.forall₂_iff_get.1 (collect_eq_ok.1 hd)
      have := collect_length (h2.2 k (h2.1 ▸ hk) hk)
      simpa using this
    have hn : data.length = rows.length := collect_length hd
    simpa [Mat.wf, hr, hc, hn] using hl

/-- Reading a block with a row and a column stops only on a byte of the block that holds `none`. -/
theorem State.readBlock_error {space : Space} {rows : List Nat} {col0 cols : Nat} {e : Stop}
    (hr : 1 ≤ rows.length) (hc : 1 ≤ cols) (h : s.readBlock space rows col0 cols = .error e) :
    ∃ r ∈ rows, ∃ c < cols, s.byteAt space ⟨r, col0 + c⟩ = none
      ∧ e = .fault (.unwrittenRead space ⟨r, col0 + c⟩) := by
  unfold State.readBlock at h
  rw [requireSpec_ok (by simp [hr, hc]), ok_bind] at h
  split at h
  · rename_i hc
    cases h
    obtain ⟨r, hr, hl⟩ := collect_eq_error hc
    obtain ⟨c, hc, hm⟩ := collect_eq_error hl
    exact ⟨r, hr, c, List.mem_range.1 hc, State.memRead_error.1 hm⟩
  · cases h

theorem mem_blockBytes {rows : List Nat} {col0 : Nat} {A : Mat} {w : Addr × Byte} :
    w ∈ blockBytes rows col0 A ↔ ∃ o < rows.length, ∃ c < A.cols,
      w = (⟨rows.getD o 0, col0 + c⟩, A.entry o c) := by
  simp only [blockBytes, List.mem_flatMap, List.mem_map, List.mem_range, eq_comm]

/-- A byte after a block was written, when no row is named twice. -/
theorem State.byteAt_writeBlock_same {space : Space} (hg : space ≠ .gen) {rows : List Nat}
    (hn : rows.Nodup) {col0 : Nat} {A : Mat} (hc : col0 + A.cols ≤ 2 ^ 32) {o c : Nat} (ho : o < rows.length)
    (hcc : c < A.cols) :
    (s.writeBlock space rows col0 A).byteAt space ⟨rows.getD o 0, col0 + c⟩ = some (A.entry o c) := by
  have hl : ∀ w ∈ blockBytes rows col0 A, w.1.col < 2 ^ 32 := by
    intro w hw
    obtain ⟨o', _, c', hc', rfl⟩ := mem_blockBytes.1 hw
    simp only; omega
  rw [State.writeBlock, State.byteAt_writeAll hg _ hl (by simp only; omega)]
  cases hf : (blockBytes rows col0 A).find? (fun w => w.1 == ⟨rows.getD o 0, col0 + c⟩) with
  | none =>
    have := List.find?_eq_none.1 hf _ (mem_blockBytes.2 ⟨o, ho, c, hcc, rfl⟩)
    simp at this
  | some w =>
    obtain ⟨o', ho', c', hc', rfl⟩ := mem_blockBytes.1 (List.mem_of_find?_eq_some hf)
    have he := List.find?_some hf
    simp only [beq_iff_eq, Addr.mk.injEq] at he
    have h1 : c' = c := by omega
    have h2 : o' = o := by
      have := he.1
      simp only [List.getD_eq_getElem?_getD, List.getElem?_eq_getElem ho', List.getElem?_eq_getElem ho,
        Option.getD_some] at this
      exact (List.Nodup.getElem_inj_iff hn).1 this
    simp [h1, h2]

/-- A byte outside a written block is as before. -/
theorem State.byteAt_writeBlock_other {space : Space} (hg : space ≠ .gen) {rows : List Nat} {col0 : Nat} {A : Mat}
    (hc : col0 + A.cols ≤ 2 ^ 32) {b : Addr} (hb : b.col < 2 ^ 32)
    (ho : ¬ (b.row ∈ rows ∧ col0 ≤ b.col ∧ b.col < col0 + A.cols)) :
    (s.writeBlock space rows col0 A).byteAt space b = s.byteAt space b := by
  have hl : ∀ w ∈ blockBytes rows col0 A, w.1.col < 2 ^ 32 := by
    intro w hw
    obtain ⟨o', _, c', hc', rfl⟩ := mem_blockBytes.1 hw
    simp only; omega
  rw [State.writeBlock, State.byteAt_writeAll hg _ hl hb]
  cases hf : (blockBytes rows col0 A).find? (fun w => w.1 == b) with
  | none => rfl
  | some w =>
    obtain ⟨o', ho', c', hc', rfl⟩ := mem_blockBytes.1 (List.mem_of_find?_eq_some hf)
    have he := List.find?_some hf
    simp only [beq_iff_eq] at he
    subst he
    refine absurd ⟨?_, ?_, ?_⟩ ho
    · simp [List.getD_eq_getElem?_getD, ho']
    · simp
    · simp only; omega

/-! ## How a command rule ends -/

/-- The one way a command answers a next state: its rule ended, or it raised an error and the state is as before but for
STATUS. -/
theorem finish_next {r : Except Stop State} (h : finish s r = .next t) :
    (∃ u, r = .ok u ∧ t = u.completeOk) ∨ (∃ e, r = .error (.error e) ∧ t = s.raiseError e) := by
  unfold finish at h
  split at h
  · cases h; exact .inl ⟨_, rfl, rfl⟩
  · cases h; exact .inr ⟨_, rfl, rfl⟩
  · cases h

/-- The one way a command faults: its rule met a model fault. -/
theorem finish_fault {r : Except Stop State} {f : Fault} (h : finish s r = .fault f) :
    r = .error (.fault f) := by
  unfold finish at h
  split at h <;> cases h
  rfl

/-- No command is refused. -/
theorem finish_not_refused {r : Except Stop State} {q : Refusal} : finish s r ≠ .refused q := by
  unfold finish
  split <;> simp

@[simp] theorem finish_ok (u : State) : finish s (.ok u) = .next u.completeOk := rfl
@[simp] theorem finish_error (e : ErrCode) : finish s (.error (.error e)) = .next (s.raiseError e) := rfl
@[simp] theorem finish_modelFault (f : Fault) : finish s (.error (.fault f)) = .fault f := rfl

end Sys2Proof.Machine
end

