-- ==== Sys2Proof/Laws/Exec.lean ====
section
/-! SUPPORT. A command is its rule and the end of the Unit step: the rule of each command by name, and what the shared
kernels and `step` can do, said once. -/

namespace Sys2Proof.Machine

variable {s t : State}

/-- The rule of each command: what it does before completion. -/
def ruleOf : Instr → State → Except Stop State
  | .nop, s => .ok s
  | .gfAdd, s => .ok (s.setResult (gfAdd s.regs.opa s.regs.opb))
  | .gfSub, s => .ok (s.setResult (gfSub s.regs.opa s.regs.opb))
  | .gfMul m, s => .ok (s.setResult (mulBy m s.regs.opa s.regs.opb))
  | .gfDiv, s =>
    match gfDiv s.regs.opa s.regs.opb with
    | none => .error (.error .divByZero)
    | some q => .ok (s.setResult q)
  | .gfExp, s => do
    require (0 ≤ s.regs.n) .rangeError
    .ok (s.setResult (gfExp s.regs.opa s.regs.n.toNat))
  | .gfLog, s =>
    match logTab s.regs.opa with
    | none => .error (.error .logOfZero)
    | some i => .ok (s.setResult (BitVec.ofNat 8 i))
  | .gfAlog, s => do
    require (0 ≤ s.regs.n && s.regs.n ≤ 511) .rangeError
    .ok (s.setResult (expTab s.regs.n.toNat))
  | .matMul, s => matMulRule s
  | .matInv, s => matInvRule s
  | .mvCode _ _, s => mvCodeRule s
  | .mvCheck _ _ useTemp, s => mvCheckRule useTemp s
  | .rsConfig loop method, s => rsConfigRule loop method s
  | .rsEncode, s => rsEncodeRule s
  | .rsCheck useTemp, s => rsCheckRule useTemp s
  | .rsDecode, s => rsDecodeRule s

/-- Every command is its rule, ended by `finish`. -/
theorem exec_eq_finish (i : Instr) (s : State) : exec i s = finish s (ruleOf i s) := by cases i <;> rfl

/-- The two ways a command answers a next state. -/
theorem exec_next {i : Instr} (h : exec i s = .next t) :
    (∃ u, ruleOf i s = .ok u ∧ t = u.completeOk)
      ∨ (∃ e, ruleOf i s = .error (.error e) ∧ t = s.raiseError e) :=
  finish_next (exec_eq_finish i s ▸ h)

/-! ## Checks -/

theorem checkRange_ok :
    s.checkRange = .ok () ↔ rangeLegal s.lmax s.regs.off s.regs.cnt s.regs.slen.toNat = true := by
  unfold State.checkRange require
  split <;> simp_all

theorem checkRange_error (h : rangeLegal s.lmax s.regs.off s.regs.cnt s.regs.slen.toNat = false) :
    s.checkRange = .error (.error .rangeError) := require_error h

/-! ## Kernels -/

/-- What `code` can do: nothing for an empty range or no output, else read the rows and the inputs and write the product
over the outputs. -/
theorem State.code_eq_ok {rows : Except Stop Mat} {ins outs : List Nat} {off cnt : Nat}
    (h : s.code rows ins outs off cnt = .ok t) :
    ((cnt = 0 ∨ outs = []) ∧ t = s) ∨
    (cnt ≠ 0 ∧ outs ≠ [] ∧ ∃ R X, rows = .ok R ∧ s.readBlock .shard ins off cnt = .ok X ∧ R.cols = X.rows
      ∧ t = s.writeBlock .shard outs off (R.mul X)) := by
  unfold State.code at h
  split at h
  · rename_i hc
    cases h
    refine .inl ⟨?_, rfl⟩
    simpa using hc
  · rename_i hc
    obtain ⟨R, hR, h⟩ := bind_eq_ok.1 h
    obtain ⟨X, hX, h⟩ := bind_eq_ok.1 h
    obtain ⟨Y, hY, h⟩ := bind_eq_ok.1 h
    obtain ⟨u, hu, hY⟩ := bind_eq_ok.1 hY
    cases h
    cases hY
    simp only [Bool.or_eq_true, decide_eq_true_eq, not_or] at hc
    refine .inr ⟨hc.1, fun h0 => hc.2 (by simp [h0]), R, X, hR, hX, ?_, rfl⟩
    unfold requireSpec at hu
    split at hu
    · rename_i he; exact by simpa using he
    · cases hu

/-- `code` on an empty range, or with no output, does nothing. -/
theorem State.code_empty {rows : Except Stop Mat} {ins outs : List Nat} {off cnt : Nat}
    (h : cnt = 0 ∨ outs = []) : s.code rows ins outs off cnt = .ok s := by
  unfold State.code
  rcases h with h | h <;> simp [h]

/-- `code` with its rows and inputs readable writes the product. -/
theorem State.code_ok {R X : Mat} {ins outs : List Nat} {off cnt : Nat} (hc : cnt ≠ 0) (ho : outs ≠ [])
    (hX : s.readBlock .shard ins off cnt = .ok X) (hd : R.cols = X.rows) :
    s.code (.ok R) ins outs off cnt = .ok (s.writeBlock .shard outs off (R.mul X)) := by
  unfold State.code
  simp [hc, ho, hX, matMul, requireSpec, hd]

/-- `check` on an empty range, or with no output, is true. -/
theorem State.check_empty {rows : Except Stop Mat} {ins outs : List Nat} {off cnt : Nat}
    (h : cnt = 0 ∨ outs = []) : s.check rows ins outs off cnt = .ok true := by
  unfold State.check
  rcases h with h | h <;> simp [h]

/-- `check` with its operands readable compares the outputs with the product. -/
theorem State.check_ok {R X Z : Mat} {ins outs : List Nat} {off cnt : Nat} (hc : cnt ≠ 0) (ho : outs ≠ [])
    (hX : s.readBlock .shard ins off cnt = .ok X) (hZ : s.readBlock .shard outs off cnt = .ok Z)
    (hd : R.cols = X.rows) : s.check (.ok R) ins outs off cnt = .ok (Z.eqv (R.mul X)) := by
  unfold State.check
  simp [hc, ho, hX, hZ, matMul, requireSpec, hd]

/-! ## Steps -/

/-- The ways a step answers a next state: there is no fault record, and the Unit, a host or the platform took the turn. -/
theorem step_next (h : step s = .next t) :
    s.faults = [] ∧
      ((s.nextTurn = .unit ∧ unitStep s.popTurn = .next t)
        ∨ (∃ k, s.nextTurn = .host k ∧ hostStep k s.popTurn = .next t)
        ∨ (s.nextTurn = .hwReset ∧ t = s.popTurn.afterReset)) := by
  unfold step at h
  split at h
  · cases h
  · rename_i hf
    refine ⟨hf, ?_⟩
    split at h
    · exact .inl ⟨by assumption, h⟩
    · exact .inr (.inl ⟨_, by assumption, h⟩)
    · cases h; exact .inr (.inr ⟨by assumption, rfl⟩)

/-- The ways the Unit's step answers a next state: it is idle, or it executes the decoded command, or the word is illegal. -/
theorem unitStep_next (h : unitStep s = .next t) :
    (s.busy = false ∧ t = s) ∨ (s.busy = true ∧ ∃ i, decode s.latch = .ok i ∧ exec i s = .next t)
      ∨ (s.busy = true ∧ (∃ e, decode s.latch = .error e) ∧ t = s.raiseError .illegalCommand) := by
  unfold unitStep at h
  split at h
  · rename_i hb
    split at h
    · exact .inr (.inl ⟨hb, _, by assumption, h⟩)
    · rename_i e he
      cases h
      exact .inr (.inr ⟨hb, ⟨e, he⟩, rfl⟩)
  · rename_i hb
    cases h
    exact .inl ⟨by simpa using hb, rfl⟩

/-- The ways a host's step answers a next state: it has nothing to do, makes an access, or branches. -/
theorem hostStep_next {k : Nat} (h : hostStep k s = .next t) :
    t = s ∨ (∃ a u v q, hostAccess s a = .ok (u, v) ∧ t = u.setHost k q) ∨ (∃ q, t = s.setHost k q) := by
  unfold hostStep at h
  split at h
  · cases h; exact .inl rfl
  · split at h
    · cases h; exact .inl rfl
    · split at h
      all_goals
        split at h
        · cases h
        · rename_i u v hu
          cases h
          exact .inr (.inl ⟨_, u, v, _, hu, rfl⟩)
    · split at h
      · cases h
      · cases h
        exact .inr (.inr ⟨_, rfl⟩)

/-- The ways a host access goes well: it reads and changes nothing, accepts a command, resets the unit, writes a register,
or writes bytes of memories. -/
theorem hostRegWrite_ok {j : Nat} {w : Word} (h : hostRegWrite s j w = .ok t) :
    j < 32 ∧ ((j = 3 ∧ s.busy = false ∧ t = s.issue w) ∨ (j = 1 ∧ w.getLsbD 1 = true ∧ t = s.afterReset)
      ∨ (j ≠ 3 ∧ t = { s with regs := s.regs.hostWrite j w })) := by
  unfold hostRegWrite at h
  split at h
  · cases h
  · rename_i hj
    refine ⟨by omega, ?_⟩
    split at h
    · rename_i h3
      split at h
      · cases h
      · rename_i hb
        cases h
        exact .inl ⟨h3, by simpa using hb, rfl⟩
    · rename_i h3
      split at h
      · cases h
      · split at h
        · rename_i h1
          cases h
          simp only [Bool.and_eq_true, decide_eq_true_eq] at h1
          exact .inr (.inl ⟨h1.1, h1.2, rfl⟩)
        · cases h
          exact .inr (.inr ⟨h3, rfl⟩)

theorem hostMemWrite_ok {space : Space} {a : Addr} {v : Byte} (h : hostMemWrite s space a v = .ok t) :
    legalAddr s.lmax space a = true ∧ s.busy = false
      ∧ ((space = .gen ∧ t = s) ∨ (space ≠ .gen ∧ t = s.memWrite space a v)) := by
  unfold hostMemWrite at h
  split at h
  · cases h
  · rename_i hl
    split at h
    · cases h
    · rename_i hb
      refine ⟨by simpa using hl, by simpa using hb, ?_⟩
      split at h
      · rename_i hg; cases h; exact .inl ⟨hg, rfl⟩
      · rename_i hg; cases h; exact .inr ⟨hg, rfl⟩

end Sys2Proof.Machine
end

