-- ==== Sys2Proof/Laws/Field.lean ====
section
/-! SUPPORT. The ROM tables are the ones 41_gf_arith.md R141 defines: the recurrence, the wrap, and LOG as the inverse of
EXP. -/

namespace Sys2Proof.Machine

/-- Multiplication by x: R141's recurrence step. -/
def timesX (a : Byte) : Byte := (a <<< 1) ^^^ (if a.getLsbD 7 then 0x1D#8 else 0x00#8)

theorem expTab_zero : expTab 0 = 1#8 := by decide

/-- R141's recurrence, for 0 ≤ i < 254. -/
theorem expTab_succ : ∀ i, i < 254 → expTab (i + 1) = timesX (expTab i) := by decide +kernel

/-- R141's wrap, for every index. -/
theorem expTab_mod (i : Nat) : expTab (i % 255) = expTab i := by simp [expTab]

/-- The recurrence goes round: EXP[255] = EXP[0]. -/
theorem expTab_last : timesX (expTab 254) = expTab 0 := by decide +kernel

/-- The recurrence holds at every index, by the wrap. -/
theorem expTab_step (i : Nat) : expTab (i + 1) = timesX (expTab i) := by
  have hi : i % 255 < 255 := Nat.mod_lt _ (by omega)
  rw [← expTab_mod (i + 1), ← expTab_mod i]
  by_cases h : i % 255 = 254
  · have h2 : (i + 1) % 255 = 0 := by omega
    rw [h2, h, expTab_last]
  · have h2 : (i + 1) % 255 = i % 255 + 1 := by omega
    rw [h2, expTab_succ _ (by omega)]

/-- EXP has no zero entry (90_conflicts.md C4). -/
theorem expTab_ne_zero (i : Nat) : expTab i ≠ 0#8 := by
  have h : ∀ j, j < 255 → expTab j ≠ 0#8 := by decide +kernel
  rw [← expTab_mod]
  exact h _ (Nat.mod_lt _ (by omega))

theorem logTab_zero : logTab 0#8 = none := by decide

theorem logTab_ne_zero {a : Byte} (h : a ≠ 0#8) : logTab a = some (tableEntry logRows a.toNat) := by
  simp [logTab, h]

/-- LOG[a] is an index below 255 with EXP[LOG[a]] = a, for a ≠ 0. -/
theorem logTab_spec (a : Byte) (h : a ≠ 0#8) :
    ∃ i, i ≤ 254 ∧ logTab a = some i ∧ expTab i = a := by
  have hall : ∀ n, n < 256 → n ≠ 0 →
      tableEntry logRows n ≤ 254 ∧ expTab (tableEntry logRows n) = BitVec.ofNat 8 n := by decide +kernel
  have hn : a.toNat ≠ 0 := fun h0 => h (by simpa using congrArg (BitVec.ofNat 8) h0)
  obtain ⟨h1, h2⟩ := hall a.toNat a.isLt hn
  exact ⟨_, h1, logTab_ne_zero h, by simpa using h2⟩

/-- LOG is the inverse of EXP on 0..254. -/
theorem logTab_expTab : ∀ i, i < 255 → logTab (expTab i) = some i := by decide +kernel

/-! ## Products through the tables -/

@[simp] theorem gfMul_zero_left (b : Byte) : gfMul 0#8 b = 0#8 := by simp [gfMul, logTab_zero]

@[simp] theorem gfMul_zero_right (a : Byte) : gfMul a 0#8 = 0#8 := by
  simp only [gfMul, logTab_zero]
  cases logTab a <;> rfl

/-- The product of two powers of the generator. -/
theorem gfMul_expTab (i j : Nat) : gfMul (expTab i) (expTab j) = expTab (i + j) := by
  rw [← expTab_mod i, ← expTab_mod j]
  simp only [gfMul, logTab_expTab _ (Nat.mod_lt _ (by omega : 0 < 255))]
  rw [← expTab_mod (i + j), ← expTab_mod (i % 255 + j % 255), Nat.add_mod i j]

/-- Every nonzero byte is a power of the generator. -/
theorem eq_expTab {a : Byte} (h : a ≠ 0#8) : ∃ i, i ≤ 254 ∧ a = expTab i := by
  obtain ⟨i, hi, _, he⟩ := logTab_spec a h
  exact ⟨i, hi, he.symm⟩

theorem mulBy_eq (m : Method) (a b : Byte) : mulBy m a b = gfMul a b := by cases m <;> rfl

end Sys2Proof.Machine
end

