-- ==== Sys2Proof/Laws/PerInstr.lean ====
section
/-! SUPPORT. Statements about every command as syntax, one lemma per constructor. -/

namespace Sys2Proof.Laws.EncodedFields

/-- The opcode and the reserved bits of a command's word are those of 30_encoding.md R91 and R92. -/
def Statement (i : Instr) : Prop := opcOf (encode i) = i.opcode ∧ rsvOf (encode i) = 0#19

/-- The fields of a word built from fields (R91). -/
theorem of_cmdWord (opc : BitVec 8) (loop : BitVec 3) (method useTemp : Bool) :
    opcOf (cmdWord opc loop method useTemp) = opc ∧ rsvOf (cmdWord opc loop method useTemp) = 0#19 := by
  constructor
  · apply BitVec.eq_of_getLsbD_eq
    intro i hi
    have h3 : i - 3 < 8 := by omega
    simp [opcOf, cmdWord, fieldAt, hi, show i < 11 by omega, show i < 12 by omega]
    omega
  · apply BitVec.eq_of_getLsbD_eq
    intro i hi
    have h1 : opc.getLsbD (13 + i) = false := BitVec.getLsbD_of_ge _ _ (by omega)
    have h2 : loop.getLsbD (13 + i - 8) = false := BitVec.getLsbD_of_ge _ _ (by omega)
    have h3 : (BitVec.ofBool method).getLsbD (13 + i - 11) = false := BitVec.getLsbD_of_ge _ _ (by omega)
    have h4 : (BitVec.ofBool useTemp).getLsbD (13 + i - 12) = false := BitVec.getLsbD_of_ge _ _ (by omega)
    simp [rsvOf, cmdWord, fieldAt, h1, h2, h3, h4]

theorem nop : Statement .nop := of_cmdWord _ _ _ _
theorem gfAdd : Statement .gfAdd := of_cmdWord _ _ _ _
theorem gfSub : Statement .gfSub := of_cmdWord _ _ _ _
theorem gfMul (method : Method) : Statement (.gfMul method) := of_cmdWord _ _ _ _
theorem gfDiv : Statement .gfDiv := of_cmdWord _ _ _ _
theorem gfExp : Statement .gfExp := of_cmdWord _ _ _ _
theorem gfLog : Statement .gfLog := of_cmdWord _ _ _ _
theorem gfAlog : Statement .gfAlog := of_cmdWord _ _ _ _
theorem matMul : Statement .matMul := of_cmdWord _ _ _ _
theorem matInv : Statement .matInv := of_cmdWord _ _ _ _
theorem mvCode (loop : BitVec 3) (method : Method) : Statement (.mvCode loop method) := of_cmdWord _ _ _ _
theorem mvCheck (loop : BitVec 3) (method : Method) (useTemp : Bool) : Statement (.mvCheck loop method useTemp) :=
  of_cmdWord _ _ _ _
theorem rsConfig (loop : BitVec 3) (method : Method) : Statement (.rsConfig loop method) := of_cmdWord _ _ _ _
theorem rsEncode : Statement .rsEncode := of_cmdWord _ _ _ _
theorem rsCheck (useTemp : Bool) : Statement (.rsCheck useTemp) := of_cmdWord _ _ _ _
theorem rsDecode : Statement .rsDecode := of_cmdWord _ _ _ _

end Sys2Proof.Laws.EncodedFields
end

