-- ==== Sys2Proof/Tests/Slice0.lean ====
section
/-! SUPPORT. Tests of one step each, with expected values from 95_test_vectors.md (the section is named at each group),
and for every obligation with hypotheses a state or a term that meets them. -/

namespace Sys2Proof.Tests

open Sys2Proof Sys2Proof.Machine

/-! ## WellFormed refuses an ill-formed term (30_encoding.md R93, R94) -/

theorem test_wellFormed_mvCode_loop6 : (Instr.mvCode 6 .table).wellFormed = false := by decide
theorem test_wellFormed_mvCheck_loop7 : (Instr.mvCheck 7 .exp true).wellFormed = false := by decide
theorem test_wellFormed_rsConfig_loop6 : (Instr.rsConfig 6 .exp).wellFormed = false := by decide

/-! ## Decoding: words written out from 30_encoding.md R91 to R93, and the illegal words of 95_test_vectors.md 2 and 4 -/

theorem test_decode_nop : decodeTableWord 32 0x00000000 = some .nop := by decide
theorem test_decode_gfAdd : decodeTableWord 32 0x00000001 = some .gfAdd := by decide
theorem test_decode_gfSub : decodeTableWord 32 0x00000002 = some .gfSub := by decide
theorem test_decode_gfMul : decodeTableWord 32 0x00000003 = some (.gfMul .table) := by decide
theorem test_decode_gfMul_exp : decodeTableWord 32 0x00000803 = some (.gfMul .exp) := by decide
theorem test_decode_gfDiv : decodeTableWord 32 0x00000004 = some .gfDiv := by decide
theorem test_decode_gfExp : decodeTableWord 32 0x00000005 = some .gfExp := by decide
theorem test_decode_gfLog : decodeTableWord 32 0x00000006 = some .gfLog := by decide
theorem test_decode_gfAlog : decodeTableWord 32 0x00000007 = some .gfAlog := by decide
theorem test_decode_matMul : decodeTableWord 32 0x00000010 = some .matMul := by decide
theorem test_decode_matInv : decodeTableWord 32 0x00000011 = some .matInv := by decide
theorem test_decode_mvCode_obi_exp : decodeTableWord 32 0x00000B20 = some (.mvCode 3 .exp) := by decide
theorem test_decode_mvCheck_boi_exp_temp : decodeTableWord 32 0x00001D21 = some (.mvCheck 5 .exp true) := by decide
theorem test_decode_rsConfig_oib_exp : decodeTableWord 32 0x00000A30 = some (.rsConfig 2 .exp) := by decide
theorem test_decode_rsEncode : decodeTableWord 32 0x00000031 = some .rsEncode := by decide
theorem test_decode_rsCheck_temp : decodeTableWord 32 0x00001032 = some (.rsCheck true) := by decide
theorem test_decode_rsDecode : decodeTableWord 32 0x00000033 = some .rsDecode := by decide
theorem test_decode_reserved_opcode : decode 0x00000008#32 = .error .reservedOpcode := by decide
theorem test_decode_add_with_loop : decode 0x00000101#32 = .error .loopNotAllowed := by decide
theorem test_decode_mul_with_temp : decode 0x00001003#32 = .error .useTempNotAllowed := by decide
theorem test_decode_add_with_method : decode 0x00000801#32 = .error .methodNotAllowed := by decide
theorem test_decode_loop_reserved : decode 0x00000620#32 = .error .loopReserved := by decide
theorem test_decode_reserved_bits : decode 0x80000000#32 = .error .reservedBits := by decide
theorem test_decodeBytes_rest : decodeBytes [0x20, 0x0B, 0, 0, 0x33] = .ok (.mvCode 3 .exp, [0x33]) := by decide

/-! ## Small states -/

/-- The state after reset with other registers. -/
def withRegs (f : Regs → Regs) : State := { State.reset with regs := f State.reset.regs }

/-- Operands of a scalar command. -/
def scalars (a b : Byte) (n : Word) : State := withRegs fun r => { r with opa := a, opb := b, opn := n }

/-- A row of bytes written to a memory from column 0 on. -/
def line (space : Space) (row : Nat) (vs : List Byte) (s : State) : State :=
  s.writeAll space (vs.mapIdx fun c v => (⟨row, c⟩, v))

/-- STATUS and RESULT after running one word on a state. -/
def outcome (s : State) (w : Nat) : Option (Word × Word) :=
  match step (s.withFetchWord 32 w) with
  | .next t => some (t.regWord 2, t.regWord 4)
  | _ => none

/-- STATUS and some bytes after running one word on a state. -/
def bytesAfter (s : State) (w : Nat) (space : Space) (as : List (Nat × Nat)) : Option (Word × List (Option Byte)) :=
  match step (s.withFetchWord 32 w) with
  | .next t => some (t.regWord 2, as.map fun a => t.byteAt space ⟨a.1, a.2⟩)
  | _ => none

/-- The model fault of running one word on a state. -/
def faultOf (s : State) (w : Nat) : Option Fault :=
  match step (s.withFetchWord 32 w) with
  | .fault f => some f
  | _ => none

/-! ## Scalar commands (95_test_vectors.md 2) -/

theorem test_nop : outcome State.reset 0x00 = some (0x02, 0) := by decide
theorem test_gfAdd : outcome (scalars 0x53 0xCA 0) 0x01 = some (0x02, 0x99) := by decide
theorem test_gfSub : outcome (scalars 0xFF 0xFF 0) 0x02 = some (0x02, 0x00) := by decide
theorem test_gfMul : outcome (scalars 0x53 0xCA 0) 0x03 = some (0x02, 0x8F) := by decide
theorem test_gfMul_exp_reduces : outcome (scalars 0x80 0x80 0) 0x803 = some (0x02, 0x13) := by decide
theorem test_gfDiv : outcome (scalars 0x02 0x03 0) 0x04 = some (0x02, 0xF5) := by decide
theorem test_gfDiv_by_zero : outcome (scalars 0x00 0x00 0) 0x04 = some (0x66, 0x00) := by decide
theorem test_gfExp_largest : outcome (scalars 0x02 0 0x7FFFFFFF) 0x05 = some (0x02, 0xCC) := by decide
theorem test_gfExp_negative : outcome (scalars 0x02 0 0xFFFFFFFF) 0x05 = some (0x36, 0x00) := by decide
theorem test_gfLog_largest : outcome (scalars 0x8E 0 0) 0x06 = some (0x02, 0xFE) := by decide
theorem test_gfLog_zero : outcome (scalars 0x00 0 0) 0x06 = some (0x76, 0x00) := by decide
theorem test_gfAlog_last : outcome (scalars 0 0 0x1FF) 0x07 = some (0x02, 0x02) := by decide
theorem test_gfAlog_outside : outcome (scalars 0 0 0x200) 0x07 = some (0x36, 0x00) := by decide
theorem test_illegal_word : outcome (scalars 0x53 0xCA 0) 0x1003 = some (0xA6, 0x00) := by decide

/-! ## Matrix commands (95_test_vectors.md 3) -/

/-- Operand matrices, row by row. -/
def matrices (da db : Word) (A B : List (List Byte)) : State :=
  let s := withRegs fun r => { r with mdima := Dims.ofWord da, mdimb := Dims.ofWord db }
  let t := (A.mapIdx fun i row => (i, row)).foldl (fun u p => line .matA p.1 p.2 u) s
  (B.mapIdx fun i row => (i, row)).foldl (fun u p => line .matB p.1 p.2 u) t

/-- MDIMC after running one word. -/
def shapeAfter (s : State) (w : Nat) : Option Word :=
  match step (s.withFetchWord 32 w) with
  | .next t => some (t.regWord 21)
  | _ => none

/-- A = [01 02] [03 04], B = [05 06] [07 08]. -/
def mulState : State := matrices 0x00020002 0x00020002 [[1, 2], [3, 4]] [[5, 6], [7, 8]]

/-- A = [00 01] [01 00], the pivot swap. -/
def swapState : State := matrices 0x00020002 0 [[0, 1], [1, 0]] []

/-- A = [01 02] [02 04], singular. -/
def singularState : State := matrices 0x00020002 0 [[1, 2], [2, 4]] []

theorem test_matMul : bytesAfter mulState 0x10 .matC [(0, 0), (0, 1), (1, 0), (1, 1), (0, 2)]
    = some (0x02, [some 0x0B, some 0x16, some 0x13, some 0x2A, none]) := by decide +kernel
theorem test_matMul_shape : shapeAfter (matrices 0x00020001 0x00010002 [[1, 2]] [[3], [4]]) 0x10
    = some 0x00010001 := by decide +kernel
theorem test_matInv_swap : bytesAfter swapState 0x11 .matC [(0, 0), (0, 1), (1, 0), (1, 1)]
    = some (0x02, [some 0, some 1, some 1, some 0]) := by decide +kernel
theorem test_matInv_singular : outcome singularState 0x11 = some (0x56, 0) := by decide +kernel

/-! ## Coding loop (95_test_vectors.md 4) -/

/-- SLEN = 2, the byte range [off, off + cnt), SHARD[0] = [01, 02], SHARD[1] = [03, 04], SHARD[2] as given, MATA row
[02 03]. -/
def mvState (mvcnt off cnt : Word) (ins outs out2 : List Byte) : State :=
  let s := withRegs fun r =>
    { r with mvcnt := Counts.ofWord mvcnt, offset := off, count := cnt, slen := 2, tlen := 2 }
  line .shard 2 out2 (line .idxOut 0 outs (line .idxIn 0 ins (line .matA 0 [2, 3]
    (line .shard 1 [3, 4] (line .shard 0 [1, 2] s)))))

/-- The first row of the table, with the output already in SHARD[2]. -/
def mvDone : State := mvState 0x00010002 0 2 [0, 1] [2] [7, 8]

theorem test_mvCode_range : bytesAfter (mvState 0x00010002 1 1 [0, 1] [2] []) 0xB20 .shard [(2, 0), (2, 1), (0, 1)]
    = some (0x02, [none, some 0x08, some 0x02]) := by decide +kernel
theorem test_mvCode_overlap : outcome (mvState 0x00010002 0 2 [0, 1] [1] []) 0x20 = some (0x96, 0) := by decide +kernel
theorem test_mvCheck_true : outcome mvDone 0x21 = some (0x02, 1) := by decide +kernel
theorem test_mvCheck_temp_false : bytesAfter (line .temp 0 [9, 9, 9] (mvState 0x00010002 0 2 [0, 1] [2] [7, 9])) 0x1021
    .temp [(0, 0), (0, 1), (0, 2)] = some (0x02, [none, none, some 9]) := by decide +kernel

/-! ## Reed–Solomon (95_test_vectors.md 5) -/

/-- Requested counts. -/
def requests (k m : Word) : State := withRegs fun r => { r with kreq := k, mreq := m }

theorem test_rsConfig : bytesAfter (requests 2 2) 0x30 .gen [(0, 0), (0, 1), (2, 0), (2, 1), (3, 0), (3, 1), (4, 0)]
    = some (0x102, [some 1, some 0, some 3, some 2, some 2, some 3, none]) := by decide +kernel
theorem test_rsConfig_too_many : outcome (requests 128 129) 0x30 = some (0x16, 0) := by decide

/-- Configured with k = 4, m = 2 and the generator matrix of 95_test_vectors.md 1.4, the first byte of each shard of
scenario 1 in place, SLEN = 1, and slots 4 and 5 as given. -/
def rsState (present0 : Word) (s0 s4 s5 : List Byte) : State :=
  let s := withRegs fun r =>
    { r with
      status := { r.status with cfgValid := true }
      dsc := 4
      psc := 2
      tsc := 6
      slen := 1
      tlen := 1
      offset := 0
      count := 1
      present := present0.setWidth 256 }
  let g := line .gen 5 [0x1C, 0x1B, 0x14, 0x12] (line .gen 4 [0x1B, 0x1C, 0x12, 0x14] (line .gen 3 [0, 0, 0, 1]
    (line .gen 2 [0, 0, 1, 0] (line .gen 1 [0, 1, 0, 0] (line .gen 0 [1, 0, 0, 0] s)))))
  line .shard 5 s5 (line .shard 4 s4 (line .shard 3 [0x0C] (line .shard 2 [0x08] (line .shard 1 [0x04]
    (line .shard 0 s0 g)))))

theorem test_rsEncode : bytesAfter (rsState 0 [0] [] []) 0x31 .shard [(4, 0), (5, 0), (3, 0)]
    = some (0x102, [some 0x10, some 0x14, some 0x0C]) := by decide +kernel
theorem test_rsEncode_unconfigured : outcome State.reset 0x31 = some (0x86, 0) := by decide
theorem test_rsCheck_true : outcome (rsState 0 [0] [0x10] [0x14]) 0x32 = some (0x102, 1) := by decide +kernel
theorem test_rsCheck_false : outcome (rsState 0 [0] [0x10] [0x15]) 0x1032 = some (0x102, 0) := by decide +kernel
theorem test_rsDecode : bytesAfter (rsState 0x2E [] [0] [0x14]) 0x33 .shard [(0, 0), (4, 0)]
    = some (0x102, [some 0x00, some 0x10]) := by decide +kernel
theorem test_rsDecode_unwritten : faultOf (rsState 0x1E [0] [] [0x14]) 0x33 = some (.unwrittenRead .shard ⟨4, 0⟩) := by
  decide +kernel

/-! ## Host accesses, protocol and reset (95_test_vectors.md 6) -/

/-- A command in flight. -/
def busyState : State := State.reset.issue 0

/-- The value of a register read, if it is no fault. -/
def readOf (s : State) (j : Nat) : Option Word := (hostRegRead s j).toOption

theorem test_read_id : readOf State.reset 0 = some 0x47463238 := by decide
theorem test_read_status_busy : readOf busyState 2 = some 1 := by decide
theorem test_read_lmaxr : readOf State.reset 30 = some 2147483647 := by decide
theorem test_read_unwritten : hostMemRead State.reset .shard ⟨0, 0⟩ = .error (.unwrittenRead .shard ⟨0, 0⟩) := by decide
theorem test_read_result_busy : hostRegRead busyState 4 = .error (.hostAccessWhileBusy (.reg 4)) := by decide
theorem test_cmd_while_busy : hostRegWrite busyState 3 0 = .error .cmdWhileBusy := by decide
theorem test_soft_reset_busy : hostRegWrite busyState 1 3 = .ok State.reset := by decide
theorem test_narrow_read : hostBusRead State.reset 8 2 = .error (.badAccessWidth 8 2) := by decide
theorem test_misaligned_read : hostBusRead State.reset 2 4 = .error (.misaligned 2 4) := by decide
theorem test_wide_write_first_byte : (match step { State.reset with
      hosts := [⟨[.access 0 (.busWrite 0x100 2 0xABCD)], 0, [], []⟩] } with
    | .next t => some (t.byteAt .idxIn ⟨0, 0⟩, t.byteAt .idxIn ⟨0, 1⟩, t.hosts.map HostProc.pc)
    | _ => none) = some (some 0xCD, none, [0]) := by decide
theorem test_present_word : (setPresentWord 0 7 0x80000001).getLsbD 255 = true
    ∧ (setPresentWord 0 7 0x80000001).getLsbD 224 = true := by decide
theorem test_assemble : assemble "mv.code.obi.exp" = some 0x00000B20 := by decide +kernel
theorem test_host_statement : (match step { State.reset with hosts := [⟨command .nop, 0, [], []⟩] } with
    | .next t => some (t.busy, t.latch)
    | _ => none) = some (true, 0#32) := by decide

/-- The machine after an outcome, if it went on. -/
def nextOf (o : Host.Outcome State Fault Refusal) : Option State :=
  match o with
  | .next t => some t
  | _ => none

/-! ## Witnesses: states and terms that meet the hypotheses of the obligations -/

theorem witness_DecodeOfEncode : (Instr.mvCheck 5 .exp true).wellFormed = true := by decide

theorem witness_EncodeOfDecode : decode 0x00001D21#32 = .ok (.mvCheck 5 .exp true) := by decide

theorem witness_SpellingsAssemble : (Instr.mvCode 0 .table).wellFormed = true
    ∧ "mv.code.iob.tbl" ∈ spellings (.mvCode 0 .table) := by decide +kernel

theorem witness_StepRunsDecodedCommand_inFlight : busyState.faults = [] ∧ busyState.nextTurn = .unit
    ∧ busyState.busy = true ∧ decode busyState.latch = .ok .nop := by decide

theorem witness_StepRunsDecodedCommand_fetch : State.reset.faults = [] ∧ decode 0x00000033#32 = .ok .rsDecode := by decide

theorem witness_IllegalWordCompletes : State.reset.busy = false ∧ legalWord 0x620 = false
    ∧ (State.reset.issue 0x620).busy = true
    ∧ legalWord (State.reset.issue 0x620).latch = false := by decide

theorem witness_CommandIssue : busyState.busy = true ∧ State.reset.busy = false := by decide

theorem witness_CompletionRecord : ∃ t, exec .nop State.reset = .next t := ⟨_, rfl⟩

theorem witness_ErrorsChangeOnlyStatus : ∃ t, exec .gfDiv State.reset = .next t ∧ t.regs.status.err = true :=
  ⟨State.reset.raiseError .divByZero, rfl, rfl⟩

theorem witness_CommandsWriteOnlyTheirTableRow : (∃ t, exec .gfExp State.reset = .next t) ∧ writesConfig .gfExp = false :=
  ⟨⟨(State.reset.setResult 1).completeOk, rfl⟩, rfl⟩

theorem witness_CommandsWriteOnlyTheirTableRow_slots : (nextOf (exec .rsEncode (rsState 0 [0] [] []))).isSome = true
    ∧ (nextOf (exec .rsDecode (rsState 0x2E [] [0] [0x14]))).isSome = true
    ∧ legalAddr (rsState 0 [0] [] []).lmax .shard ⟨6, 0⟩ = true ∧ ¬ (4 ≤ 6 ∧ 6 < 4 + 2) := by decide +kernel

theorem witness_CommandInFlightIsServed : busyState.faults = [] ∧ busyState.busy = true := by decide

/-- A configured state in which the platform asserts reset next. -/
def resetComing : State := { rsState 0 [0] [] [] with turns := [.hwReset] }

theorem witness_ResetFromBothSources : (2#32).getLsbD 1 = true ∧ resetComing.faults = []
    ∧ resetComing.nextTurn = .hwReset := by decide

theorem witness_ConfigurationEndsOnlyAtReset : ∃ t, step resetComing = .next t
    ∧ resetComing.regs.status.cfgValid = true ∧ t.regs.status.cfgValid = false := ⟨_, rfl, rfl, rfl⟩

theorem witness_ConfigurationEndsOnlyAtReset_failed : ∃ t, exec (.rsConfig 0 .table) State.reset = .next t
    ∧ t.regs.status.err = true := ⟨State.reset.raiseError .rangeError, rfl, rfl⟩

theorem witness_FaultRecordsAndParametersStay : ∃ t, step State.reset = .next t := ⟨_, rfl⟩

theorem witness_StepKeepsInvariant : busyState.Inv ∧ ∃ t, step busyState = .next t := by
  refine ⟨⟨by decide, ?_, by decide, by decide, by decide, by decide, nofun, .inl rfl⟩, _, rfl⟩
  intro space c h
  cases space <;> exact absurd h List.not_mem_nil

theorem witness_NoStepRaisesSpecBug : (rsState 0 [0] [] []).faults = []
    ∧ (rsState 0 [0] [] []).regs.status.cfgValid = true ∧ 1 ≤ (rsState 0 [0] [] []).regs.dsc.toNat := by decide

theorem witness_RegisterWriteReadsBack : State.reset.busy = false
    ∧ ∀ j ∈ [0, 4, 5, 22, 30, 31], j < 32 ∧ j ≠ 1 ∧ j ≠ 2 ∧ j ≠ 3 := by decide

theorem witness_ControlAndStatusWrites : (0xFFFFFFFD#32).getLsbD 1 = false := by decide

theorem witness_InterruptLine_unit : busyState.busy = true ∧ ∃ t, unitStep busyState = .next t := ⟨rfl, _, rfl⟩

theorem witness_InterruptLine_ctrl : (1#32).getLsbD 1 = false ∧ ∃ t, hostRegWrite State.reset 1 1#32 = .ok t :=
  ⟨by decide, _, rfl⟩

theorem witness_InterruptLine_writes : (∃ t, hostRegWrite State.reset 2 2#32 = .ok t)
    ∧ (∃ t, hostRegWrite State.reset 3 0#32 = .ok t) ∧ (∃ t, hostRegWrite State.reset 31 0#32 = .ok t)
    ∧ ∃ t, hostMemWrite State.reset .temp ⟨0, 0⟩ 1 = .ok t := ⟨⟨_, rfl⟩, ⟨_, rfl⟩, ⟨_, rfl⟩, ⟨_, rfl⟩⟩

theorem witness_AccessWhileBusy : busyState.busy = true ∧ legalAddr busyState.lmax .shard ⟨255, 2147483646⟩ = true
    ∧ legalAddr busyState.lmax .gen ⟨255, 254⟩ = true := by decide

theorem witness_BytePortWriteReadsBack : State.reset.busy = false
    ∧ legalAddr State.reset.lmax .shard ⟨255, 2147483646⟩ = true ∧ legalAddr State.reset.lmax .gen ⟨255, 254⟩ = true
    ∧ State.reset.byteAt .shard ⟨255, 2147483646⟩ = none
    ∧ mvDone.busy = false ∧ mvDone.byteAt .shard ⟨2, 1⟩ = some 8
    ∧ legalAddr State.reset.lmax .shard ⟨256, 0⟩ = false ∧ legalAddr State.reset.lmax .temp ⟨0, 2147483647⟩ = false := by
  decide

theorem witness_BusRegisterAccess : (127 < 128 ∧ (1 : Nat) ≠ 0 ∧ (1 : Nat) ≠ 4) ∧ (126 < 128 ∧ 126 % 4 ≠ 0)
    ∧ (124 < 128 ∧ 124 % 4 = 0 ∧ hostRegRead State.reset (124 / 4) = .ok 0#32)
    ∧ hostRegRead busyState (16 / 4) = .error (.hostAccessWhileBusy (.reg 4)) := by decide

theorem witness_LegalBusMapIsInjective : platformLegal 1 ⟨0, [⟨128, .shard, 0, 256, 0, 1⟩]⟩
    ∧ busTarget ⟨0, [⟨128, .shard, 0, 256, 0, 1⟩]⟩ 383 = some (.shard, ⟨255, 0⟩) ∧ inRegBlock ⟨0, []⟩ 127 = true := by
  refine ⟨⟨by decide, by decide⟩, by decide, by decide⟩

/-- The bytes of a 4-byte access over the end of IDX_IN's window into IDX_OUT's, and of one over the end of a MATA row. -/
def overWindow (t : Nat) : Space × Addr := if t < 2 then (.idxIn, ⟨0, 254 + t⟩) else (.idxOut, ⟨0, t - 2⟩)
def overRow (t : Nat) : Space × Addr := if t < 2 then (.matA, ⟨0, 254 + t⟩) else (.matA, ⟨1, t - 2⟩)

theorem witness_WideBusWriteIsLittleEndian : State.reset.busy = false
    ∧ ∀ access ∈ [((0x1FE : Nat), overWindow), (0x100FE, overRow)],
      (∀ t, t < 4 → inRegBlock State.reset.params.platform (access.1 + t) = false
        ∧ busTarget State.reset.params.platform (access.1 + t) = some (access.2 t)
        ∧ legalAddr State.reset.lmax (access.2 t).1 (access.2 t).2 = true ∧ (access.2 t).1 ≠ .gen)
      ∧ ∀ t, t < 4 → ∀ t', t' < 4 → access.2 t = access.2 t' → t = t' := by decide

theorem witness_WideBusWriteIsLittleEndian_gen : busTarget State.reset.params.platform 0x40000 = some (.gen, ⟨0, 0⟩)
    ∧ legalAddr State.reset.lmax .gen ⟨0, 0⟩ = true ∧ inRegBlock State.reset.params.platform 0x40000 = false := by decide

/-- A host about to make an access of 2 bytes, alone. -/
def wideState (a : HostAccess) : State :=
  { State.reset with hosts := [⟨[.access 0 a], 0, [], []⟩], turns := List.replicate 2 (.host 0) ++ [.unit] }

theorem witness_WideAccessIsItsBytes : ∀ a ∈ [HostAccess.busWrite 0x1FE 2 0xABCD, .busRead 0x1FE 2],
    (wideState a).faults = [] ∧ (wideState a).turns = List.replicate 2 (.host 0) ++ [.unit]
      ∧ (wideState a).hosts[0]? = some ⟨[.access 0 a], 0, [], []⟩
      ∧ inRegBlock (wideState a).params.platform 0x1FE = false := by decide

theorem witness_ReadsArePureAndWritesIdempotent : hostAccess State.reset (.regRead 0) = .ok (State.reset, some 0x47463238)
    ∧ (∃ t, hostMemWrite State.reset .shard ⟨255, 0⟩ 1 = .ok t) ∧ ∃ t, hostRegWrite State.reset 1 3 = .ok t :=
  ⟨by decide, ⟨_, rfl⟩, ⟨_, rfl⟩⟩

/-- A host about to wait, with a command in flight. -/
def waitState : State := { busyState with hosts := [⟨waitDone 0, 0, [], []⟩], turns := [.host 0, .host 0] }

theorem witness_WaitPollsStatus : waitState.faults = [] ∧ waitState.turns = [.host 0, .host 0]
    ∧ waitState.hosts[0]? = some ⟨waitDone 0, 0, [], []⟩ ∧ ∀ i, i < 2 → (waitDone 0)[0 + i]? = (waitDone 0)[i]? := by decide

theorem witness_GfDivRule : (scalars 1 0 0).regs.opb = 0#8 ∧ (scalars 0 1 0).regs.opb ≠ 0#8 := by decide

theorem witness_GfExpRule : sint32 (scalars 2 0 0x80000000).regs.opn < 0 ∧ sint32 (scalars 2 0 0xFFFFFFFF).regs.opn < 0
    ∧ 0 ≤ sint32 (scalars 0 0 0).regs.opn ∧ 0 ≤ sint32 (scalars 2 0 0x7FFFFFFF).regs.opn := by decide

theorem witness_GfLogRule : (scalars 0 0 0).regs.opa = 0#8 ∧ (scalars 0xFF 0 0).regs.opa ≠ 0#8 := by decide

theorem witness_GfAlogRule : sint32 (scalars 0 0 0xFFFFFFFF).regs.opn < 0 ∧ 511 < sint32 (scalars 0 0 512).regs.opn
    ∧ 0 ≤ sint32 (scalars 0 0 0).regs.opn ∧ sint32 (scalars 0 0 511).regs.opn ≤ 511 := by decide

theorem witness_FieldLaws : (1#8 : Byte) ≠ 0#8 := by decide

/-! ### Matrices -/

theorem witness_MatMulRule_dimension : ¬ DimsOk (matrices 0x00010101 0x00010001 [] []).regs.mdima
    ∧ ¬ DimsOk (matrices 0x00010001 0x00000001 [] []).regs.mdimb := by unfold DimsOk; decide

theorem witness_MatMulRule_mismatch : let s := matrices 0x00020001 0x00010001 [] []
    DimsOk s.regs.mdima ∧ DimsOk s.regs.mdimb ∧ s.regs.mdima.cols ≠ s.regs.mdimb.rows := by unfold DimsOk; decide

theorem witness_MatMulRule_unwritten : let s := matrices 0x01000100 0x00010100 [] []
    DimsOk s.regs.mdima ∧ DimsOk s.regs.mdimb ∧ s.regs.mdima.rows.toNat = 256 ∧ s.regs.mdima.cols.toNat = 256
      ∧ s.regs.mdimb.rows.toNat = 256 ∧ s.regs.mdimb.cols.toNat = 1
      ∧ s.byteAt .matA ⟨255, 255⟩ = none := by unfold DimsOk; decide

theorem witness_MatMulRule_product : DimsOk mulState.regs.mdima ∧ DimsOk mulState.regs.mdimb
    ∧ mulState.regs.mdima.rows.toNat = 2 ∧ mulState.regs.mdima.cols.toNat = 2
    ∧ mulState.regs.mdimb.rows.toNat = 2 ∧ mulState.regs.mdimb.cols.toNat = 2
    ∧ (∀ r, r < 2 → ∀ c, c < 2 → mulState.byteAt .matA ⟨r, c⟩ = some (cell [[1, 2], [3, 4]] r c))
    ∧ ∀ r, r < 2 → ∀ c, c < 2 → mulState.byteAt .matB ⟨r, c⟩ = some (cell [[5, 6], [7, 8]] r c) := by
  unfold DimsOk; decide +kernel

theorem witness_MatInvRule_shape : ¬ DimsOk State.reset.regs.mdima
    ∧ DimsOk (matrices 0x00030002 0 [] []).regs.mdima
    ∧ (matrices 0x00030002 0 [] []).regs.mdima.rows ≠ (matrices 0x00030002 0 [] []).regs.mdima.cols := by
  unfold DimsOk; decide

theorem witness_MatInvRule_unwritten : let s := matrices 0x00010001 0 [] []
    DimsOk s.regs.mdima ∧ s.regs.mdima.rows.toNat = 1 ∧ s.regs.mdima.cols.toNat = 1 ∧ s.byteAt .matA ⟨0, 0⟩ = none := by
  unfold DimsOk; decide

theorem witness_MatInvRule_singular : DimsOk singularState.regs.mdima ∧ singularState.regs.mdima.rows.toNat = 2
    ∧ singularState.regs.mdima.cols.toNat = 2
    ∧ (∀ r, r < 2 → ∀ c, c < 2 → singularState.byteAt .matA ⟨r, c⟩ = some (cell [[1, 2], [2, 4]] r c))
    ∧ (Mat.of 2 2 (cell [[1, 2], [2, 4]])).invert = none := by unfold DimsOk; decide +kernel

theorem witness_MatInvRule_inverse : DimsOk swapState.regs.mdima ∧ swapState.regs.mdima.rows.toNat = 2
    ∧ swapState.regs.mdima.cols.toNat = 2
    ∧ (∀ r, r < 2 → ∀ c, c < 2 → swapState.byteAt .matA ⟨r, c⟩ = some (cell [[0, 1], [1, 0]] r c))
    ∧ (Mat.of 2 2 (cell [[0, 1], [1, 0]])).invert = some ⟨2, 2, [[0, 1], [1, 0]]⟩ := by unfold DimsOk; decide +kernel

theorem witness_AugmentAndSubmatrixRule : (⟨1, 2, [[1, 2]]⟩ : Mat).wf = true
    ∧ (⟨1, 2, [[1, 2]]⟩ : Mat).rows = (⟨1, 1, [[3]]⟩ : Mat).rows
    ∧ (⟨1, 2, [[1, 2]]⟩ : Mat).rows ≠ (⟨2, 1, [[3], [4]]⟩ : Mat).rows
    ∧ (0 < 1 ∧ 1 ≤ (⟨1, 2, [[1, 2]]⟩ : Mat).rows ∧ 1 < 2 ∧ 2 ≤ (⟨1, 2, [[1, 2]]⟩ : Mat).cols)
    ∧ ¬ (0 < 2 ∧ 2 ≤ (⟨1, 2, [[1, 2]]⟩ : Mat).rows) := by decide

theorem witness_MatricesHaveRowsAndColumns : (⟨1, 1, [[2]]⟩ : Mat).wf = true
    ∧ matMul ⟨1, 1, [[2]]⟩ ⟨1, 1, [[2]]⟩ = .ok ⟨1, 1, [[4]]⟩ ∧ matInvert ⟨1, 1, [[2]]⟩ = .ok ⟨1, 1, [[0x8E]]⟩
    ∧ buildG .rowPow 1 1 = .ok ⟨2, 1, [[1], [1]]⟩ := by decide +kernel

theorem test_matPick_empty : matPick ⟨1, 1, [[2]]⟩ [] = .error (.fault (.specBug "row")) := by decide

theorem witness_InvertGivesInverse :
    (Mat.of 2 2 (cell [[1, 1], [1, 2]])).invert = some ⟨2, 2, [[0xF5, 0xF4], [0xF4, 0xF4]]⟩ := by decide +kernel

theorem witness_InvertFindsEveryInverse : ∀ i, i < 2 → ∀ j, j < 2 →
    xorSum 2 (fun q => gfMul (cell [[1, 1], [1, 2]] i q) (cell [[0xF5, 0xF4], [0xF4, 0xF4]] q j))
      = (if i = j then 1#8 else 0#8) := by decide +kernel

/-! ### Coding loop -/

theorem witness_MvCodeRule_counts : ¬ CountsOk (mvState 0x00010000 0 2 [] [] [])
    ∧ ¬ CountsOk (mvState 0x00010101 0 2 [] [] []) ∧ ¬ CountsOk (mvState 0x01010001 0 2 [] [] []) := by
  unfold CountsOk; decide

theorem witness_MvCodeRule_range : CountsOk (mvState 0x00010002 1 2 [] [] []) ∧ ¬ RangeOk (mvState 0x00010002 1 2 [] [] [])
    ∧ CountsOk (mvState 0x01000100 0 0xFFFFFFFF [] [] []) ∧ ¬ RangeOk (mvState 0x01000100 0 0xFFFFFFFF [] [] []) := by
  unfold CountsOk RangeOk; decide

theorem witness_MvCodeRule_unwritten : let s := mvState 0x00010002 0 2 [0] [2] []
    CountsOk s ∧ RangeOk s ∧ s.regs.mvcnt.inCount.toNat = 2 ∧ s.regs.mvcnt.outCount.toNat = 1
      ∧ s.byteAt .idxIn ⟨0, 1⟩ = none := by unfold CountsOk RangeOk; decide

theorem witness_MvCodeRule_overlap : let s := mvState 0x00010002 0 2 [0, 1] [1] []
    CountsOk s ∧ RangeOk s ∧ s.regs.mvcnt.inCount.toNat = 2 ∧ s.regs.mvcnt.outCount.toNat = 1
      ∧ (∀ i, i < 2 → s.byteAt .idxIn ⟨0, i⟩ = some (([0, 1] : List Byte).getD i 0))
      ∧ (∀ o, o < 1 → s.byteAt .idxOut ⟨0, o⟩ = some (([1] : List Byte).getD o 0))
      ∧ ([1] : List Byte).getD 0 0 = ([0, 1] : List Byte).getD 1 0 := by unfold CountsOk RangeOk; decide +kernel

theorem witness_MvCodeRule_unwrittenInput : let s := mvState 0x00010001 0 2 [5] [2] []
    CountsOk s ∧ RangeOk s ∧ s.regs.mvcnt.inCount.toNat = 1 ∧ s.regs.mvcnt.outCount.toNat = 1
      ∧ s.byteAt .idxIn ⟨0, 0⟩ = some 5 ∧ s.byteAt .idxOut ⟨0, 0⟩ = some 2 ∧ InRange s 1
      ∧ s.byteAt .shard ⟨5, 1⟩ = none := by unfold CountsOk RangeOk InRange; decide +kernel

theorem witness_MvCodeRule_product : CountsOk mvDone ∧ RangeOk mvDone ∧ mvDone.regs.mvcnt.inCount.toNat = 2
    ∧ mvDone.regs.mvcnt.outCount.toNat = 1
    ∧ (∀ i, i < 2 → mvDone.byteAt .idxIn ⟨0, i⟩ = some (([0, 1] : List Byte).getD i 0))
    ∧ (∀ o, o < 1 → mvDone.byteAt .idxOut ⟨0, o⟩ = some (([2] : List Byte).getD o 0))
    ∧ (∀ o, o < 1 → ∀ i, i < 2 → ([2] : List Byte).getD o 0 ≠ ([0, 1] : List Byte).getD i 0)
    ∧ 0 < sint32 mvDone.regs.count
    ∧ (∀ o, o < 1 → ∀ i, i < 2 → mvDone.byteAt .matA ⟨o, i⟩ = some (cell [[2, 3]] o i))
    ∧ (∀ i, i < 2 → ∀ b, b < 2 → mvDone.byteAt .shard ⟨(([0, 1] : List Byte).getD i 0).toNat, b⟩
        = some (cell [[1, 2], [3, 4]] i b))
    ∧ sint32 mvDone.regs.offset = 0 ∧ sint32 mvDone.regs.count = 2 := by unfold CountsOk RangeOk; decide +kernel

theorem witness_MvCheckRule_temp : let s := { mvDone with regs := { mvDone.regs with tlen := 1 } }
    CountsOk s ∧ RangeOk s ∧ ¬ TempOk s := by unfold CountsOk RangeOk TempOk; decide +kernel

/-- MV_CHECK's other hypotheses are MV_CODE's, met by the witnesses of MvCodeRule; the output bytes are written too. -/
theorem witness_MvCheckRule_compare : TempOk mvDone
    ∧ ∀ o, o < 1 → ∀ b, b < 2 → mvDone.byteAt .shard ⟨(([2] : List Byte).getD o 0).toNat, b⟩ = some (cell [[7, 8]] o b) := by
  unfold TempOk; decide +kernel

theorem witness_MvCheckRule_unwrittenOutput : let s := mvState 0x00010002 0 2 [0, 1] [2] [7]
    CountsOk s ∧ RangeOk s ∧ TempOk s ∧ InRange s 1 ∧ s.byteAt .idxOut ⟨0, 0⟩ = some 2
      ∧ s.byteAt .shard ⟨2, 1⟩ = none := by unfold CountsOk RangeOk TempOk InRange; decide +kernel

theorem witness_LoopNestsComputeTheProduct : (⟨1, 2, [[2, 3]]⟩ : Mat).cols = (⟨2, 2, [[1, 2], [3, 4]]⟩ : Mat).rows
    ∧ 1 ≤ (⟨2, 2, [[1, 2], [3, 4]]⟩ : Mat).rows := by decide

/-! ### Reed–Solomon -/

theorem witness_RsConfigRule_range : sint32 (requests 0 300).regs.kreq = 0 ∧ sint32 (requests 0 300).regs.mreq = 300
    ∧ sint32 (requests 1 0).regs.mreq = 0 ∧ sint32 (requests 0xFFFFFFFF 2).regs.kreq = -1 := by decide

theorem witness_RsConfigRule_tooMany : sint32 (requests 1 256).regs.kreq = 1 ∧ sint32 (requests 1 256).regs.mreq = 256
    ∧ (256 : Int) < 1 + 256 := by decide

theorem witness_RsConfigRule_configured : sint32 (requests 1 255).regs.kreq = 1 ∧ sint32 (requests 1 255).regs.mreq = 255
    ∧ (buildG (requests 1 255).params.vandMode 1 255).toOption.isSome = true := by decide +kernel

theorem witness_GeneratorAlwaysExists : (1 ≤ 255 ∧ 1 ≤ 1 ∧ 255 + 1 ≤ 256) ∧ (1 ≤ 1 ∧ 1 ≤ 255 ∧ 1 + 255 ≤ 256) := by decide

theorem witness_GeneratorIsSystematic : buildG .rowPow 2 2 = .ok ⟨4, 2, [[1, 0], [0, 1], [3, 2], [2, 3]]⟩ := by
  decide +kernel

theorem witness_NopRule : opcOf 0x100#32 = 0#8 ∧ (0x100#32 : Word) ≠ 0#32 := by decide

theorem witness_AnyKRowsAreInvertible : (buildG .genPow 2 253).toOption.isSome = true ∧ 2 + 253 ≤ 255
    ∧ [254, 0].length = 2 ∧ [254, 0].Nodup ∧ ∀ r ∈ [254, 0], r < 2 + 253 := by decide +kernel

theorem witness_AnyKRowsAreInvertible_one : (buildG .genPow 1 255).toOption.isSome = true ∧ [255].length = 1
    ∧ ∀ r ∈ [255], r < 1 + 255 := by decide +kernel

theorem witness_AnyKRowsAreInvertible_fails : (buildG .genPow 2 254).toOption.isSome = true ∧ 2 + 254 = 256 := by
  decide +kernel

/-- The generator matrix of 95_test_vectors.md 1.4. -/
def gen42 : Nat → Nat → Byte :=
  cell [[1, 0, 0, 0], [0, 1, 0, 0], [0, 0, 1, 0], [0, 0, 0, 1], [0x1B, 0x1C, 0x12, 0x14], [0x1C, 0x1B, 0x14, 0x12]]

/-- The first byte of each data shard of scenario 1. -/
def data42 : Nat → Nat → Byte := cell [[0x00], [0x04], [0x08], [0x0C]]

/-- Encoded: every slot written. -/
def encoded : State := rsState 0x3F [0] [0x10] [0x14]

theorem witness_RsEncodeRule_errors : State.reset.regs.status.cfgValid = false ∧ encoded.regs.status.cfgValid = true
    ∧ ¬ RangeOk { encoded with regs := { encoded.regs with count := 2 } } := by unfold RangeOk; decide +kernel

theorem witness_RsEncodeRule_unwritten : let s := rsState 0 [] [] []
    s.regs.status.cfgValid = true ∧ RangeOk s ∧ s.regs.dsc.toNat = 4 ∧ s.regs.psc.toNat = 2 ∧ InRange s 0
      ∧ s.byteAt .shard ⟨0, 0⟩ = none
      ∧ ∀ j, j < 2 → ∀ i, i < 4 → s.byteAt .gen ⟨4 + j, i⟩ = some (gen42 (4 + j) i) := by
  unfold RangeOk InRange; decide +kernel

theorem witness_RsEncodeRule_parity : encoded.regs.status.cfgValid = true ∧ RangeOk encoded
    ∧ encoded.regs.dsc.toNat = 4 ∧ encoded.regs.psc.toNat = 2
    ∧ sint32 encoded.regs.offset = 0 ∧ sint32 encoded.regs.count = 1
    ∧ (∀ j, j < 2 → ∀ i, i < 4 → encoded.byteAt .gen ⟨4 + j, i⟩ = some (gen42 (4 + j) i))
    ∧ ∀ i, i < 4 → ∀ b, b < 1 → encoded.byteAt .shard ⟨i, b⟩ = some (data42 i b) := by unfold RangeOk; decide +kernel

theorem witness_RsCheckRule_temp : let s := { encoded with regs := { encoded.regs with tlen := 0 } }
    s.regs.status.cfgValid = true ∧ RangeOk s ∧ ¬ TempOk s := by unfold RangeOk TempOk; decide +kernel

/-- RS_CHECK's other hypotheses are RS_ENCODE's, met by `encoded`; the parity bytes are written too. -/
theorem witness_RsCheckRule_compare : TempOk encoded
    ∧ ∀ j, j < 2 → ∀ b, b < 1 → encoded.byteAt .shard ⟨4 + j, b⟩ = some (cell [[0x10], [0x14]] j b) := by
  unfold TempOk; decide +kernel

theorem witness_RsCheckRule_unwritten : let s := rsState 0 [0] [0x10] []
    s.regs.status.cfgValid = true ∧ RangeOk s ∧ TempOk s ∧ s.regs.dsc.toNat = 4 ∧ s.regs.psc.toNat = 2 ∧ InRange s 0
      ∧ s.byteAt .shard ⟨4 + 1, 0⟩ = none := by unfold RangeOk TempOk InRange; decide +kernel

theorem witness_RsDecodeRule_tooFew : let s := rsState 0x07 [0] [] []
    s.regs.status.cfgValid = true ∧ RangeOk s ∧ s.regs.dsc.toNat = 4 ∧ s.regs.tsc.toNat = 6
      ∧ ((List.range 6).filter fun i => s.regs.present.getLsbD i) = [0, 1, 2] := by unfold RangeOk; decide +kernel

theorem witness_RsDecodeRule_allPresent : RangeOk encoded
    ∧ ((List.range 6).filter fun i => encoded.regs.present.getLsbD i) = [0, 1, 2, 3, 4, 5] := by
  unfold RangeOk; decide +kernel

/-- A generator matrix with two equal rows, k = 2, n = 3, slot 0 missing: the chosen rows have no inverse. -/
def equalRows : State :=
  let s := rsState 0x6 [] [] []
  line .gen 2 [0, 1] (line .gen 1 [0, 1] { s with regs := { s.regs with dsc := 2, psc := 1, tsc := 3 } })

theorem witness_RsDecodeRule_singular : equalRows.regs.status.cfgValid = true ∧ RangeOk equalRows
    ∧ equalRows.regs.dsc.toNat = 2 ∧ equalRows.regs.tsc.toNat = 3
    ∧ ((List.range 3).filter fun i => equalRows.regs.present.getLsbD i) = [1, 2]
    ∧ (∀ j, j < 2 → ∀ c, c < 2 → equalRows.byteAt .gen ⟨[1, 2].getD j 0, c⟩ = some (cell [[0, 1], [0, 1]] j c))
    ∧ (Mat.of 2 2 (cell [[0, 1], [0, 1]])).invert = none := by unfold RangeOk; decide +kernel

/-- Slots 0 and 4 missing: slot 0 holds no value, slot 4 a wrong one. -/
def damaged : State := rsState 0x2E [] [0] [0x14]

theorem witness_RsDecodeRule_unwritten : let s := rsState 0x1E [0] [] [0x14]
    s.regs.status.cfgValid = true ∧ RangeOk s ∧ s.regs.dsc.toNat = 4 ∧ s.regs.tsc.toNat = 6
      ∧ ((List.range 6).filter fun i => s.regs.present.getLsbD i) = [1, 2, 3, 4]
      ∧ (∀ j, j < 4 → ∀ c, c < 4 → s.byteAt .gen ⟨[1, 2, 3, 4].getD j 0, c⟩ = some (gen42 ([1, 2, 3, 4].getD j 0) c))
      ∧ (Mat.of 4 4 fun j c => gen42 ([1, 2, 3, 4].getD j 0) c).invert.isSome = true
      ∧ InRange s 0 ∧ s.byteAt .shard ⟨[1, 2, 3, 4].getD 3 0, 0⟩ = none := by unfold RangeOk InRange; decide +kernel

/-- The hypotheses of RsDecodeRule's last clause: `damaged` meets RsDecodeRestoresMissingShards' too, below. -/
theorem witness_RsDecodeRule_restores :
    (∀ j, j < 4 → ∀ b, b < 1 → damaged.byteAt .shard ⟨[1, 2, 3, 5].getD j 0, b⟩
        = some (cell [[0x04], [0x08], [0x0C], [0x14]] j b))
    ∧ ∀ c, c < 4 → damaged.regs.present.getLsbD 4 = false ∧ damaged.byteAt .gen ⟨4, c⟩ = some (gen42 4 c) := by
  decide +kernel

/-- The generator matrix of k = 2, m = 254 under GEN_POW. -/
def genPow256Matrix : Mat := (buildG .genPow 2 254).toOption.getD (Mat.zero 1 1)

/-- Its cells, row by row. -/
def genPow256Cells : Memory :=
  (List.range 256).flatMap fun r => (List.range 2).map fun c => (addrKey ⟨r, c⟩, genPow256Matrix.entry r c)

/-- GEN_POW, configured with k = 2, m = 254, slots 0 and 255 present: equal rows of GEN (90_conflicts.md C1). -/
def genPow256 : State :=
  { State.reset with
    params := { State.reset.params with vandMode := .genPow }
    mems := { Mems.empty with gen := genPow256Cells }
    regs :=
      { State.reset.regs with
        status := { State.reset.regs.status with cfgValid := true }
        dsc := 2
        psc := 254
        tsc := 256
        present := 1#256 ||| (1#256 <<< 255) } }

theorem genPow256Cells_wf : Memory.wf genPow256Cells := by
  have : IsTrans Host.Cell fun c d => c.1 < d.1 := ⟨fun _ _ _ h h' => Nat.lt_trans h h'⟩
  exact List.isChain_iff_pairwise.mp (by decide +kernel)

theorem genPow256_mem {r c : Nat} (hr : r < 256) (hc : c < 2) :
    (addrKey ⟨r, c⟩, genPow256Matrix.entry r c) ∈ genPow256Cells :=
  List.mem_flatMap.mpr ⟨r, List.mem_range.mpr hr, List.mem_map.mpr ⟨c, List.mem_range.mpr hc, rfl⟩⟩

theorem genPow256_gen_legal {c : Host.Cell} (h : c ∈ genPow256Cells) :
    ∃ a, legalAddr 2147483647 .gen a = true ∧ c.1 = addrKey a := by
  obtain ⟨r, hr, h⟩ := List.mem_flatMap.mp h
  obtain ⟨k, hk, rfl⟩ := List.mem_map.mp h
  rw [List.mem_range] at hr hk
  exact ⟨⟨r, k⟩, by simp [legalAddr]; omega, rfl⟩

theorem genPow256_genMatrix : buildG .genPow 2 254 = .ok genPow256Matrix := by decide +kernel

theorem genPow256_inv : genPow256.Inv := by
  refine ⟨⟨.nil, .nil, .nil, .nil, .nil, .nil, .nil, genPow256Cells_wf⟩, ?_, by decide, by decide, nofun, ?_, ?_, .inl rfl⟩
  · intro space c h
    cases space
    case gen => exact genPow256_gen_legal h
    all_goals exact absurd h List.not_mem_nil
  · intro _
    decide
  · intro _
    refine ⟨_, genPow256_genMatrix, fun r c hr hc => ?_⟩
    have h1 : r < 256 := hr
    have h2 : c < 2 := hc
    have hg : genPow256.genHolds ⟨r, c⟩ = true := by
      simp [State.genHolds, genPow256, h1, h2]
    rw [State.byteAt, hg, if_neg (by simp)]
    exact Memory.read_of_mem genPow256Cells_wf (genPow256_mem hr hc)

theorem witness_SingularOnlyUnderGenPow256 : genPow256.Inv
    ∧ ((nextOf (exec .rsDecode genPow256)).map fun t => t.regs.status.errcode) = some 5 :=
  ⟨genPow256_inv, by decide +kernel⟩

theorem witness_RsDecodeRestoresMissingShards : damaged.regs.status.cfgValid = true ∧ RangeOk damaged
    ∧ damaged.regs.dsc.toNat = 4 ∧ damaged.regs.tsc.toNat = 6
    ∧ ((List.range 6).filter fun i => damaged.regs.present.getLsbD i) = [1, 2, 3, 5]
    ∧ (∀ r, r < 6 → ∀ c, c < 4 → damaged.byteAt .gen ⟨r, c⟩ = some (gen42 r c))
    ∧ (∀ r, r < 4 → ∀ c, c < 4 → gen42 r c = if r = c then 1#8 else 0#8)
    ∧ (Mat.of 4 4 fun j c => gen42 ([1, 2, 3, 5].getD j 0) c).invert
        = some ⟨4, 4, [[0x46, 0x68, 0x8F, 0xA0], [1, 0, 0, 0], [0, 1, 0, 0], [0, 0, 1, 0]]⟩
    ∧ sint32 damaged.regs.offset = 0 ∧ sint32 damaged.regs.count = 1
    ∧ (∀ i, i < 6 → damaged.regs.present.getLsbD i = true → ∀ b, b < 1 →
        damaged.byteAt .shard ⟨i, b⟩ = some (xorSum 4 fun c => gfMul (gen42 i c) (data42 c b))) := by
  unfold RangeOk; decide +kernel

theorem witness_EncodeThenCheckAgrees : ((nextOf (exec .rsEncode (rsState 0 [0] [] []))).map fun t =>
    (t.regs.status.err, decide (t.regs.tlen.toNat ≤ t.lmax
      ∧ sint32 t.regs.offset + sint32 t.regs.count ≤ (t.regs.tlen.toNat : Int)))) = some (false, true) := by decide +kernel

end Sys2Proof.Tests
end

/-! # State family: host register writes, the reset state, the invariant and what every step keeps -/

namespace Sys2Proof.Machine

/-! ## STATUS after a host write -/

/-- What a STATUS write leaves: DONE falls exactly when bit 1 is 1, and no other field changes (10_state.md R26). -/
theorem Status.hostWrite_eq (st : Status) (w : Word) :
    st.hostWrite w = { st with done := st.done && !w.getLsbD 1 } := by
  unfold Status.hostWrite
  cases h : w.getLsbD 1 <;> simp

/-! ## PRESENT words -/

theorem getLsbD_setPresentWord (mask : BitVec 256) (q : Nat) (w : Word) {i : Nat} (hi : i < 256) :
    (setPresentWord mask q w).getLsbD i
      = if 32 * q ≤ i ∧ i < 32 * q + 32 then w.getLsbD (i - 32 * q) else mask.getLsbD i := by
  have hones : ∀ k, ((0xFFFFFFFF#32).setWidth 256).getLsbD k = decide (k < 32) := by
    intro k
    rw [show (0xFFFFFFFF#32) = BitVec.allOnes 32 from rfl, BitVec.getLsbD_setWidth, BitVec.getLsbD_allOnes]
    grind
  simp only [setPresentWord, BitVec.getLsbD_or, BitVec.getLsbD_and, BitVec.getLsbD_not, BitVec.getLsbD_shiftLeft,
    BitVec.getLsbD_setWidth, hones, hi]
  by_cases hlo : 32 * q ≤ i
  · by_cases hin : i < 32 * q + 32
    · simp [hlo, hin, show ¬ i < 32 * q by omega, show i - 32 * q < 32 by omega, show i - 32 * q < 256 by omega]
    · have hw : w.getLsbD (i - 32 * q) = false := BitVec.getLsbD_of_ge _ _ (by omega)
      simp [hin, hw, show ¬ i - 32 * q < 32 by omega]
  · simp [hlo, show i < 32 * q by omega]

/-- A PRESENT word that was written reads back, and the other seven stay (10_state.md R39). -/
theorem presentWord_setPresentWord (mask : BitVec 256) {p : Nat} (hp : p < 8) (q : Nat) (w : Word) :
    presentWord (setPresentWord mask q w) p = if p = q then w else presentWord mask p := by
  apply BitVec.eq_of_getLsbD_eq
  intro i hi
  rw [presentWord, BitVec.getLsbD_extractLsb', getLsbD_setPresentWord _ _ _ (by omega)]
  by_cases h : p = q
  · subst h
    simp [hi]
  · have hout : ¬ (32 * q ≤ 32 * p + i ∧ 32 * p + i < 32 * q + 32) := by omega
    simp [presentWord, h, hi, hout]

/-! ## Each register field after a host write -/

section
variable (r : Regs) (j : Nat) (w : Word)

/-! The registers a host cannot write keep their fields. -/

@[simp] theorem Regs.hostWrite_result : (r.hostWrite j w).result = r.result := by unfold Regs.hostWrite; split <;> rfl
@[simp] theorem Regs.hostWrite_dsc : (r.hostWrite j w).dsc = r.dsc := by unfold Regs.hostWrite; split <;> rfl
@[simp] theorem Regs.hostWrite_psc : (r.hostWrite j w).psc = r.psc := by unfold Regs.hostWrite; split <;> rfl
@[simp] theorem Regs.hostWrite_tsc : (r.hostWrite j w).tsc = r.tsc := by unfold Regs.hostWrite; split <;> rfl
@[simp] theorem Regs.hostWrite_cfgstrat : (r.hostWrite j w).cfgstrat = r.cfgstrat := by
  unfold Regs.hostWrite; split <;> rfl
@[simp] theorem Regs.hostWrite_mdimc : (r.hostWrite j w).mdimc = r.mdimc := by unfold Regs.hostWrite; split <;> rfl

/-! A register a host can write takes the word, or its field of the word, on a write to its own index. -/

@[simp] theorem Regs.hostWrite_irqEn : (r.hostWrite j w).irqEn = if j = 1 then w.getLsbD 0 else r.irqEn := by
  unfold Regs.hostWrite; split <;> simp_all
@[simp] theorem Regs.hostWrite_status : (r.hostWrite j w).status = if j = 2 then r.status.hostWrite w else r.status := by
  unfold Regs.hostWrite; split <;> simp_all
@[simp] theorem Regs.hostWrite_opa : (r.hostWrite j w).opa = if j = 5 then w.extractLsb' 0 8 else r.opa := by
  unfold Regs.hostWrite; split <;> simp_all
@[simp] theorem Regs.hostWrite_opb : (r.hostWrite j w).opb = if j = 6 then w.extractLsb' 0 8 else r.opb := by
  unfold Regs.hostWrite; split <;> simp_all
@[simp] theorem Regs.hostWrite_opn : (r.hostWrite j w).opn = if j = 7 then w else r.opn := by
  unfold Regs.hostWrite; split <;> simp_all
@[simp] theorem Regs.hostWrite_offset : (r.hostWrite j w).offset = if j = 8 then w else r.offset := by
  unfold Regs.hostWrite; split <;> simp_all
@[simp] theorem Regs.hostWrite_count : (r.hostWrite j w).count = if j = 9 then w else r.count := by
  unfold Regs.hostWrite; split <;> simp_all
@[simp] theorem Regs.hostWrite_kreq : (r.hostWrite j w).kreq = if j = 10 then w else r.kreq := by
  unfold Regs.hostWrite; split <;> simp_all
@[simp] theorem Regs.hostWrite_mreq : (r.hostWrite j w).mreq = if j = 11 then w else r.mreq := by
  unfold Regs.hostWrite; split <;> simp_all
@[simp] theorem Regs.hostWrite_slen : (r.hostWrite j w).slen = if j = 16 then w else r.slen := by
  unfold Regs.hostWrite; split <;> simp_all
@[simp] theorem Regs.hostWrite_tlen : (r.hostWrite j w).tlen = if j = 17 then w else r.tlen := by
  unfold Regs.hostWrite; split <;> simp_all
@[simp] theorem Regs.hostWrite_mvcnt : (r.hostWrite j w).mvcnt = if j = 18 then Counts.ofWord w else r.mvcnt := by
  unfold Regs.hostWrite; split <;> simp_all
@[simp] theorem Regs.hostWrite_mdima : (r.hostWrite j w).mdima = if j = 19 then Dims.ofWord w else r.mdima := by
  unfold Regs.hostWrite; split <;> simp_all
@[simp] theorem Regs.hostWrite_mdimb : (r.hostWrite j w).mdimb = if j = 20 then Dims.ofWord w else r.mdimb := by
  unfold Regs.hostWrite; split <;> simp_all

theorem Regs.hostWrite_present : (r.hostWrite j w).present
    = if 22 ≤ j ∧ j ≤ 29 then setPresentWord r.present (j - 22) w else r.present := by
  unfold Regs.hostWrite
  split <;> simp_all
  grind

@[simp] theorem Regs.presentWord_hostWrite {p : Nat} (hp : p < 8) :
    presentWord (r.hostWrite j w).present p = if j = 22 + p then w else presentWord r.present p := by
  rw [Regs.hostWrite_present]
  split
  · rw [presentWord_setPresentWord _ hp]
    simp only [show p = j - 22 ↔ j = 22 + p by omega]
  · rw [if_neg (by omega)]

end

/-! ## The words read back -/

theorem setWidth_lowByte (w : Word) : (w.extractLsb' 0 8).setWidth 32 = w &&& 0xFF#32 := by
  apply BitVec.eq_of_getLsbD_eq
  intro i hi
  interval_cases i <;> simp

theorem pairWord_fields (w : Word) : pairWord (lowField w) (highField w) = w &&& 0x01FF01FF#32 := by
  apply BitVec.eq_of_getLsbD_eq
  intro i hi
  interval_cases i <;> simp [pairWord, lowField, highField, fieldAt]

theorem ctrlWord_lowBit (w : Word) : ctrlWord (w.getLsbD 0) = w &&& 1#32 := by
  apply BitVec.eq_of_getLsbD_eq
  intro i hi
  interval_cases i <;> simp [ctrlWord, fieldAt]

theorem and_fullMask (w : Word) : w &&& 0xFFFFFFFF#32 = w := BitVec.and_allOnes

section
variable (r : Regs) (j : Nat) (w : Word) (lmax : Nat)

/-- A host write to register j changes no other register's word. -/
theorem Regs.word_hostWrite_other {j' : Nat} (h : j' ≠ j) : (r.hostWrite j w).word lmax j' = r.word lmax j' := by
  have hne : j ≠ j' := Ne.symm h
  unfold Regs.word
  split <;> simp [hne]

/-- A host write to a register other than CTRL, STATUS and CMD stores its writable bits (10_state.md R22, R23). -/
theorem Regs.word_hostWrite_same (h1 : j ≠ 1) (h2 : j ≠ 2) :
    (r.hostWrite j w).word lmax j = if rwMask j ≠ 0#32 then w &&& rwMask j else r.word lmax j := by
  unfold Regs.word
  split
  case h_2 => exact absurd rfl h1
  case h_3 => exact absurd rfl h2
  case h_32 =>
    have hmask : rwMask j = 0#32 := by unfold rwMask; grind
    simp [hmask]
  all_goals
    simp [rwMask, setWidth_lowByte, and_fullMask, Counts.word, Counts.ofWord, Dims.word, Dims.ofWord, pairWord_fields]

/-- What every register reads after a host write to a register other than CTRL, STATUS and CMD. -/
theorem Regs.word_hostWrite (h1 : j ≠ 1) (h2 : j ≠ 2) (j' : Nat) :
    (r.hostWrite j w).word lmax j' = if j' = j ∧ rwMask j ≠ 0#32 then w &&& rwMask j else r.word lmax j' := by
  by_cases hj : j' = j
  · subst hj
    simpa using Regs.word_hostWrite_same r j' w lmax h1 h2
  · rw [if_neg fun h => hj h.1]
    exact Regs.word_hostWrite_other r j w lmax hj

theorem Regs.hostWrite_cfgValid : (r.hostWrite j w).status.cfgValid = r.status.cfgValid := by
  rw [Regs.hostWrite_status]
  split
  · rw [Status.hostWrite_eq]
  · rfl

end

/-! ## Host writes that only store -/

section
variable {s : State} {j : Nat} {w : Word}

/-- A register write that is allowed, is no CMD write and asserts no SRST stores its bits (20_memory.md R61). -/
theorem hostRegWrite_stores (hj : j < 32) (h3 : j ≠ 3) (hbusy : (s.busy && !writableWhileBusy j) = false)
    (hsrst : j = 1 → w.getLsbD 1 = false) :
    hostRegWrite s j w = .ok { s with regs := s.regs.hostWrite j w } := by
  have hnr : ¬ (j = 1 && w.getLsbD 1) = true := by simpa using hsrst
  rw [hostRegWrite, if_neg (by omega), if_neg h3, if_neg (by simp [hbusy]), if_neg hnr]

theorem sameMems_hostWrite : SameMems [] s { s with regs := s.regs.hostWrite j w } := fun _ _ a =>
  State.byteAt_congr (s := s) (t := { s with regs := s.regs.hostWrite j w }) rfl (Regs.hostWrite_cfgValid _ _ _)
    (Regs.hostWrite_tsc _ _ _) (Regs.hostWrite_dsc _ _ _) a

theorem sameRegs_hostWrite : SameRegs [j] s { s with regs := s.regs.hostWrite j w } := fun _ hj' =>
  Regs.word_hostWrite_other _ _ _ _ (by simpa using hj')

theorem sameRest_withRegs {r : Regs} : SameRest s { s with regs := r } := ⟨rfl, rfl, rfl, rfl, rfl⟩

end

/-- Settles O20: such a write only stores, and `Regs.word_hostWrite` says what every register then reads. -/
theorem registerWriteReadsBack : Obligations.RegisterWriteReadsBack := by
  intro s j w hbusy hj h1 h2 h3
  exact ⟨_, hostRegWrite_stores hj h3 (by simp [hbusy]) (absurd · h1), Regs.word_hostWrite s.regs j w s.lmax h1 h2,
    sameMems_hostWrite, sameRest_withRegs⟩

/-- Settles O21: both writes only store, and they are allowed whatever BUSY is. -/
theorem controlAndStatusWrites : Obligations.ControlAndStatusWrites := by
  intro s w
  constructor
  · intro hsrst
    refine ⟨_, hostRegWrite_stores (by decide) (by decide) (by simp [writableWhileBusy]) fun _ => hsrst, ?_,
      sameRegs_hostWrite, sameMems_hostWrite, sameRest_withRegs⟩
    change ctrlWord (s.regs.hostWrite 1 w).irqEn = _
    rw [Regs.hostWrite_irqEn, if_pos rfl, ctrlWord_lowBit]
  · refine ⟨_, hostRegWrite_stores (by decide) (by decide) (by simp [writableWhileBusy]) nofun, ?_,
      sameRegs_hostWrite, sameMems_hostWrite, sameRest_withRegs⟩
    simp [StatusIs, Regs.hostWrite_status, Status.hostWrite_eq]

/-! ## The reset state -/

theorem Memory.read_nil (k : Nat) : Memory.read [] k = none := rfl

@[simp] theorem Mems.get_empty (space : Space) : Mems.empty.get space = [] := by cases space <;> rfl

/-- Every register but ID and LMAXR reads 0 after reset (10_state.md R22, R50). -/
theorem Regs.word_reset {j : Nat} (h0 : j ≠ 0) (h30 : j ≠ 30) (lmax : Nat) : Regs.reset.word lmax j = 0#32 := by
  unfold Regs.word
  split
  case h_1 => exact absurd rfl h0
  case h_31 => exact absurd rfl h30
  all_goals rfl

/-- Registers at their reset values and empty memories read as 10_state.md R50 says. -/
theorem resetValues_of {t : State} (hr : t.regs = Regs.reset) (hm : t.mems = Mems.empty) : ResetValues t := by
  refine ⟨fun j => ?_, fun space a => ?_, by simp [State.irq, hr, Regs.reset]⟩
  · rw [State.regWord, hr]
    split
    · subst j; rfl
    · split
      · subst j; rfl
      · exact Regs.word_reset ‹_› ‹_› _
  · simp [State.byteAt, hm, Memory.read_nil]

/-- Settles O14: the start state has the reset registers and empty memories. -/
theorem startStateIsReset : Obligations.StartStateIsReset := ⟨resetValues_of rfl rfl, rfl, rfl⟩

/-! ## The record in STATUS -/

/-- ERRCODE is a code of 60_exceptions.md R270 and 0 exactly when ERR = 0 (10_state.md R26), and a command in flight has
cleared DONE and ERR (40_command_protocol.md R121): the clauses of `State.Inv` that speak of the record alone. -/
def Status.Recorded (st : Status) : Prop :=
  (st.errcode.toNat ≤ 10 ∧ (st.err = false ↔ st.errcode = 0)) ∧ (st.busy = true → st.done = false ∧ st.err = false)

theorem ErrCode.code_legal (e : ErrCode) : e.code.toNat ≤ 10 ∧ e.code ≠ 0 := by cases e <;> decide

theorem Status.recorded_issued (st : Status) : st.issued.Recorded := by simp [Status.Recorded, Status.issued]

theorem Status.recorded_succeeded (st : Status) : st.succeeded.Recorded := by simp [Status.Recorded, Status.succeeded]

theorem Status.recorded_failed (st : Status) (e : ErrCode) : (st.failed e).Recorded := by
  obtain ⟨hle, hne⟩ := e.code_legal
  simpa [Status.Recorded, Status.failed, hle] using hne

theorem Status.Recorded.hostWrite {st : Status} (h : st.Recorded) (w : Word) : (st.hostWrite w).Recorded := by
  obtain ⟨hcode, hbusy⟩ := h
  rw [Status.hostWrite_eq]
  exact ⟨hcode, fun hb => by simp [hbusy hb]⟩

/-! ## Bytes a list of writes or clears leaves -/

section
variable {s : State} {space : Space}

theorem State.mem_writeAll {l : List (Addr × Byte)} {c : Host.Cell} (h : c ∈ (s.writeAll space l).mems.get space) :
    (∃ x ∈ l, c = (addrKey x.1, x.2)) ∨ c ∈ s.mems.get space := by
  induction l with
  | nil => exact .inr h
  | cons x l ih =>
    rw [State.writeAll_cons, State.memWrite_mems, Mems.get_put_same] at h
    rcases Memory.mem_write h with rfl | h
    · exact .inl ⟨x, List.mem_cons_self, rfl⟩
    · rcases ih h with ⟨y, hy, rfl⟩ | h
      · exact .inl ⟨y, List.mem_cons_of_mem _ hy, rfl⟩
      · exact .inr h

theorem State.mem_clearAll {l : List Addr} {c : Host.Cell} (h : c ∈ (s.clearAll space l).mems.get space) :
    c ∈ s.mems.get space := by
  induction l with
  | nil => exact h
  | cons a l ih =>
    rw [State.clearAll_cons, State.memClear_mems, Mems.get_put_same] at h
    exact ih (Memory.mem_clear h)

/-- What a memory lists at an address after a list of writes that give it one value. Unlike `State.byteAt_writeAll` it
speaks of the memory itself, so it holds of GEN before the configuration that makes its bytes readable. -/
theorem State.read_writeAll {l : List (Addr × Byte)} {b : Addr} {v : Byte} (hl : ∀ x ∈ l, x.1.col < 2 ^ 32)
    (hb : b.col < 2 ^ 32) (hv : ∀ x ∈ l, x.1 = b → x.2 = v) (hm : ∃ x ∈ l, x.1 = b) :
    Memory.read ((s.writeAll space l).mems.get space) (addrKey b) = some v := by
  induction l with
  | nil => simp at hm
  | cons x l ih =>
    have hx := hl x List.mem_cons_self
    rw [State.writeAll_cons, State.memWrite_mems, Mems.get_put_same, Memory.read_write]
    by_cases hxb : x.1 = b
    · rw [if_pos (by rw [hxb]), hv x List.mem_cons_self hxb]
    · rw [if_neg fun h => hxb ((addrKey_inj hx hb).1 h.symm)]
      obtain ⟨y, hy, hyb⟩ := hm
      rcases List.mem_cons.1 hy with rfl | hy
      · exact absurd hyb hxb
      · exact ih (fun z hz => hl z (List.mem_cons_of_mem _ hz)) (fun z hz => hv z (List.mem_cons_of_mem _ hz))
          ⟨y, hy, hyb⟩

theorem State.writeAll_append (s : State) (space : Space) (l m : List (Addr × Byte)) :
    s.writeAll space (l ++ m) = (s.writeAll space m).writeAll space l := List.foldr_append

end

/-! ## Bytes at legal addresses only -/

/-- Every byte that holds a value stands at a legal address (20_memory.md R60): `State.Inv.memsLegal`. -/
def Mems.Legal (lmax : Nat) (m : Mems) : Prop :=
  ∀ space, ∀ c ∈ m.get space, ∃ a, legalAddr lmax space a = true ∧ c.1 = addrKey a

section
variable {s : State} {lmax : Nat}

theorem State.legal_writeAll (h : s.mems.Legal lmax) {space : Space} {l : List (Addr × Byte)}
    (hl : ∀ x ∈ l, legalAddr lmax space x.1 = true) : (s.writeAll space l).mems.Legal lmax := by
  intro space' c hc
  by_cases hsp : space' = space
  · subst hsp
    rcases State.mem_writeAll hc with ⟨x, hx, rfl⟩ | hc
    · exact ⟨x.1, hl x hx, rfl⟩
    · exact h _ c hc
  · exact h _ c (State.writeAll_get_other l hsp ▸ hc)

theorem State.legal_clearAll (h : s.mems.Legal lmax) (space : Space) (l : List Addr) :
    (s.clearAll space l).mems.Legal lmax := by
  intro space' c hc
  by_cases hsp : space' = space
  · subst hsp
    exact h _ c (State.mem_clearAll hc)
  · exact h _ c (State.clearAll_get_other l hsp ▸ hc)

theorem Mems.legal_empty : Mems.empty.Legal lmax := fun space c hc => by simp at hc

end

/-! ## What the invariant depends on -/

/-- The fields that say which configuration is active (10_state.md R32, R33). -/
def Regs.SameConfig (r q : Regs) : Prop :=
  q.status.cfgValid = r.status.cfgValid ∧ q.dsc = r.dsc ∧ q.psc = r.psc ∧ q.tsc = r.tsc ∧ q.cfgstrat = r.cfgstrat

namespace State.Inv
variable {s t : State}

/-- A change of the memories that keeps GEN. Latch, hosts and turns are free: the invariant does not speak of them. -/
theorem of_mems (h : s.Inv) (hp : t.params = s.params) (hr : t.regs = s.regs) (hwf : t.mems.wf)
    (hl : t.mems.Legal s.lmax) (hg : t.mems.gen = s.mems.gen) : t.Inv where
  memsWf := hwf
  memsLegal := by rw [show t.lmax = s.lmax by rw [State.lmax, hp, State.lmax]]; exact hl
  errcode := hr ▸ h.errcode
  busyClean := hr ▸ h.busyClean
  unconfigured := by rw [hr, hg]; exact h.unconfigured
  configured := hr ▸ h.configured
  genMatrix := by
    have hbyte := State.byteAt_congr (s := s) (t := t) (space := .gen) hg (by rw [hr]) (by rw [hr]) (by rw [hr])
    simp only [hbyte, hr, hp]
    exact h.genMatrix
  mdimc := hr ▸ h.mdimc

/-- A change of the registers that keeps the configuration and leaves a legal record and result shape. -/
theorem of_regs (h : s.Inv) (hp : t.params = s.params) (hm : t.mems = s.mems) (hc : s.regs.SameConfig t.regs)
    (hst : t.regs.status.Recorded) (hd : t.regs.mdimc = ⟨0, 0⟩ ∨ DimsOk t.regs.mdimc) : t.Inv := by
  obtain ⟨hv, hk, hpar, hn, hcs⟩ := hc
  have hbyte := State.byteAt_congr (s := s) (t := t) (space := .gen) (by rw [hm]) hv hn hk
  exact {
    memsWf := hm ▸ h.memsWf
    memsLegal := by rw [hm, show t.lmax = s.lmax by rw [State.lmax, hp, State.lmax]]; exact h.memsLegal
    errcode := hst.1
    busyClean := hst.2
    unconfigured := by rw [hv, hk, hpar, hn, hcs, hm]; exact h.unconfigured
    configured := by rw [hv, hk, hpar, hn, hcs]; exact h.configured
    genMatrix := by simp only [hbyte, hv, hk, hpar, hn, hp]; exact h.genMatrix
    mdimc := hd }

theorem recorded (h : s.Inv) : s.regs.status.Recorded := ⟨h.errcode, h.busyClean⟩

/-- The reset state satisfies the invariant, whatever the parameters and the agents are. -/
theorem of_reset (hr : t.regs = Regs.reset) (hm : t.mems = Mems.empty) : t.Inv where
  memsWf := hm ▸ Mems.wf_empty
  memsLegal := hm ▸ Mems.legal_empty
  errcode := hr ▸ by decide
  busyClean := hr ▸ by decide
  unconfigured := by rw [hr, hm]; decide
  configured := hr ▸ nofun
  genMatrix := hr ▸ nofun
  mdimc := .inl (by rw [hr]; rfl)

/-! ## The shared operations keep the invariant -/

/-- A change of STATUS that keeps CFG_VALID. -/
theorem withStatus (h : s.Inv) {st : Status} (hst : st.Recorded) (hv : st.cfgValid = s.regs.status.cfgValid)
    (latch : Word) : State.Inv { s with latch := latch, regs := { s.regs with status := st } } :=
  h.of_regs rfl rfl ⟨hv, rfl, rfl, rfl, rfl⟩ hst h.mdimc

theorem issue (h : s.Inv) (w : Word) : (s.issue w).Inv := h.withStatus (Status.recorded_issued _) rfl w
theorem completeOk (h : s.Inv) : s.completeOk.Inv := h.withStatus (Status.recorded_succeeded _) rfl _
theorem raiseError (h : s.Inv) (e : ErrCode) : (s.raiseError e).Inv := h.withStatus (Status.recorded_failed _ e) rfl _

theorem hostWrite (h : s.Inv) (j : Nat) (w : Word) : State.Inv { s with regs := s.regs.hostWrite j w } := by
  refine h.of_regs rfl rfl ⟨Regs.hostWrite_cfgValid _ _ _, ?_, ?_, ?_, ?_⟩ ?_ ?_
  · simp
  · simp
  · simp
  · simp
  · rw [Regs.hostWrite_status]
    split
    · exact h.recorded.hostWrite w
    · exact h.recorded
  · rw [Regs.hostWrite_mdimc]
    exact h.mdimc

theorem agents (h : s.Inv) (hosts : List HostProc) (turns : List Turn) :
    State.Inv { s with hosts := hosts, turns := turns } :=
  h.of_mems rfl rfl h.memsWf h.memsLegal rfl

theorem writeAll (h : s.Inv) {space : Space} (hg : space ≠ .gen) {l : List (Addr × Byte)}
    (hl : ∀ x ∈ l, legalAddr s.lmax space x.1 = true) : (s.writeAll space l).Inv :=
  h.of_mems (by simp) (by simp) (State.writeAll_wf h.memsWf _ _) (State.legal_writeAll h.memsLegal hl)
    (State.writeAll_get_other l (Ne.symm hg))

theorem setResult (h : s.Inv) (v : Byte) : (s.setResult v).Inv :=
  h.of_regs rfl rfl ⟨rfl, rfl, rfl, rfl, rfl⟩ h.recorded h.mdimc

theorem spoilTemp (h : s.Inv) (used : Bool) (off cnt : Nat) : (s.spoilTemp used off cnt).Inv := by
  cases used
  · exact h
  · exact h.of_mems (by simp) (by simp) (State.spoilTemp_wf h.memsWf true off cnt)
      (State.legal_clearAll h.memsLegal _ _) (State.clearAll_get_other (space := .temp) (space' := .gen) _ (by decide))

/-- A result of a legal shape stored in MATC and MDIMC (42_matrix.md R182 to R185). -/
theorem storeResult (h : s.Inv) {C : Mat} (hr : 1 ≤ C.rows ∧ C.rows ≤ 256) (hc : 1 ≤ C.cols ∧ C.cols ≤ 256) :
    (s.storeResult C).Inv := by
  have hlegal : ∀ x ∈ blockBytes (List.range C.rows) 0 C, legalAddr s.lmax .matC x.1 = true := by
    intro x hx
    obtain ⟨o, ho, c, hcc, rfl⟩ := mem_blockBytes.1 hx
    rw [List.length_range] at ho
    simp [legalAddr, ho]
    omega
  have hshape : DimsOk ⟨BitVec.ofNat 9 C.rows, BitVec.ofNat 9 C.cols⟩ := by
    simp only [DimsOk, BitVec.toNat_ofNat]
    omega
  have hw : (s.writeAll .matC (blockBytes (List.range C.rows) 0 C)).Inv := h.writeAll (by decide) hlegal
  exact hw.of_regs rfl rfl ⟨rfl, rfl, rfl, rfl, rfl⟩ hw.recorded (.inr hshape)

end State.Inv

/-- Settles O17: the reset state has empty memories, a clean record and no configuration, for every parameter. -/
theorem invariantAtReset : Obligations.InvariantAtReset := ⟨.of_reset rfl rfl, fun _ => .of_reset rfl rfl⟩

/-! ## The decoder gives well-formed commands -/

section
variable {w : Word} {i : Instr}

theorem withoutLoop_eq_ok {k : Except DecodeError Instr} (h : withoutLoop w k = .ok i) : k = .ok i := by
  unfold withoutLoop at h
  split at h
  · exact h
  · cases h

theorem withoutMethod_eq_ok {k : Except DecodeError Instr} (h : withoutMethod w k = .ok i) : k = .ok i := by
  unfold withoutMethod at h
  split at h
  · cases h
  · exact h

theorem withoutTemp_eq_ok {k : Except DecodeError Instr} (h : withoutTemp w k = .ok i) : k = .ok i := by
  unfold withoutTemp at h
  split at h
  · cases h
  · exact h

theorem withLoop_eq_ok {k : BitVec 3 → Except DecodeError Instr} (h : withLoop w k = .ok i) :
    loopLegal (loopOf w) = true ∧ k (loopOf w) = .ok i := by
  unfold withLoop at h
  split at h
  · exact ⟨‹_›, h⟩
  · cases h

theorem bare_eq_ok {j : Instr} (h : bare w j = .ok i) : i = j := by
  cases withoutTemp_eq_ok (withoutMethod_eq_ok (withoutLoop_eq_ok h))
  rfl

/-- A word that decodes gives a command whose LOOP is legal (30_encoding.md R94). -/
theorem decode_wellFormed (h : decode w = .ok i) : i.wellFormed = true := by
  unfold decode at h
  split at h
  · split at h
    case h_4 => cases withoutTemp_eq_ok (withoutLoop_eq_ok h); rfl
    case h_11 =>
      obtain ⟨hl, h⟩ := withLoop_eq_ok h
      cases withoutTemp_eq_ok h
      exact hl
    case h_12 =>
      obtain ⟨hl, h⟩ := withLoop_eq_ok h
      cases h
      exact hl
    case h_13 =>
      obtain ⟨hl, h⟩ := withLoop_eq_ok h
      cases withoutTemp_eq_ok h
      exact hl
    case h_15 => cases withoutMethod_eq_ok (withoutLoop_eq_ok h); rfl
    case h_17 => cases h
    all_goals cases bare_eq_ok h; rfl
  · cases h

end

/-! ## Shapes of the matrices commands build -/

theorem require_eq_ok {ok : Bool} {e : ErrCode} {u : Unit} : require ok e = .ok u ↔ ok = true := by
  unfold require
  split <;> simp_all

theorem matMul_eq_ok {A B C : Mat} (h : matMul A B = .ok C) : C = A.mul B := by
  obtain ⟨_, _, h⟩ := bind_eq_ok.1 h
  cases h
  rfl

theorem matSubmatrix_eq_ok {A B : Mat} {rmin cmin rmax cmax : Nat} (h : matSubmatrix A rmin cmin rmax cmax = .ok B) :
    B = A.submatrix rmin cmin rmax cmax := by
  obtain ⟨_, _, h⟩ := bind_eq_ok.1 h
  cases h
  rfl

theorem matInvert_shape {A D : Mat} (h : matInvert A = .ok D) : D.rows = A.rows ∧ D.cols = A.rows := by
  obtain ⟨_, _, h⟩ := bind_eq_ok.1 h
  obtain ⟨W, _, h⟩ := bind_eq_ok.1 h
  split at h
  · cases h
  · rw [matSubmatrix_eq_ok h, Mat.submatrix_rows, Mat.submatrix_cols]
    omega

/-- The generator matrix is n × k (44_reed_solomon.md R232). -/
theorem buildG_shape {mode : VandMode} {k m : Nat} {G : Mat} (h : buildG mode k m = .ok G) :
    G.rows = k + m ∧ G.cols = k := by
  obtain ⟨T, hT, h⟩ := bind_eq_ok.1 h
  obtain ⟨Ti, hTi, h⟩ := bind_eq_ok.1 h
  obtain ⟨-, hcols⟩ := matInvert_shape hTi
  rw [matSubmatrix_eq_ok hT, Mat.submatrix_rows] at hcols
  rw [matMul_eq_ok h, Mat.mul_rows, Mat.mul_cols, hcols]
  exact ⟨rfl, Nat.sub_zero k⟩

/-! ## What a command rule that ends well has done -/

/-- A dimension register accepted by the check of 42_matrix.md R180. -/
theorem Dims.dimsOk_of_legal {d : Dims} (h : d.legal = true) : DimsOk d := by
  simpa [Dims.legal, DimsOk, and_assoc] using h

/-- The effect of a command rule that ends well: bytes of SHARD; or RESULT, with TEMP spoiled or not; or a matrix in MATC
with its shape in MDIMC; or a configuration (30_encoding.md R98). Nothing else changes. -/
inductive RuleEffect (i : Instr) (s : State) : State → Prop
  | shards (l : List (Addr × Byte)) (legal : s.Inv → ∀ x ∈ l, legalAddr s.lmax .shard x.1 = true) :
    RuleEffect i s (s.writeAll .shard l)
  | result (v : Byte) (used : Bool) (off cnt : Nat) : RuleEffect i s ((s.setResult v).spoilTemp used off cnt)
  | matrix (C : Mat) (rows : 1 ≤ C.rows ∧ C.rows ≤ 256) (cols : 1 ≤ C.cols ∧ C.cols ≤ 256) :
    RuleEffect i s (s.storeResult C)
  | config (k m : Nat) (loop : BitVec 3) (method : Method) (G : Mat) (word : i = .rsConfig loop method)
    (counts : 1 ≤ k ∧ 1 ≤ m ∧ k + m ≤ 256) (gen : buildG s.params.vandMode k m = .ok G) :
    RuleEffect i s (s.configure k m loop method G)

section
variable {i : Instr} {s t u : State}

theorem RuleEffect.nothing : RuleEffect i s s := .shards [] fun _ => nofun

/-- A scalar result: RESULT only. -/
theorem RuleEffect.scalar (v : Byte) : RuleEffect i s (s.setResult v) := .result v false 0 0

/-- `code` writes bytes of the output slots, within the byte range. -/
theorem State.code_writes {rows : Except Stop Mat} {ins outs : List Nat} {off cnt : Nat}
    (h : s.code rows ins outs off cnt = .ok t) :
    ∃ l, t = s.writeAll .shard l ∧ ∀ x ∈ l, x.1.row ∈ outs ∧ x.1.col < off + cnt := by
  rcases State.code_eq_ok h with ⟨-, rfl⟩ | ⟨-, -, R, X, -, hX, -, rfl⟩
  · exact ⟨[], rfl, nofun⟩
  · refine ⟨_, rfl, fun x hx => ?_⟩
    obtain ⟨o, ho, c, hc, rfl⟩ := mem_blockBytes.1 hx
    obtain ⟨-, hcols, -⟩ := State.readBlock_shape hX
    rw [Mat.mul_cols, hcols] at hc
    exact ⟨by simp [List.getD_eq_getElem?_getD, ho], by simpa using hc⟩

/-- A byte range that passed `check_range` ends at LMAX or below (43_coding_loop.md R203). -/
theorem range_le_lmax (h : s.checkRange = .ok ()) : s.regs.off.toNat + s.regs.cnt.toNat ≤ s.lmax := by
  have hr := checkRange_ok.1 h
  simp only [rangeLegal, Bool.and_eq_true, decide_eq_true_eq] at hr
  omega

theorem legal_shard {lmax off cnt : Nat} {outs : List Nat} {a : Addr} (hrow : a.row ∈ outs) (hcol : a.col < off + cnt)
    (houts : ∀ o ∈ outs, o < 256) (hrange : off + cnt ≤ lmax) : legalAddr lmax .shard a = true := by
  have := houts _ hrow
  simp [legalAddr]
  omega

theorem readIndices_lt {space : Space} {n : Nat} {is : List Nat} (h : s.readIndices space n = .ok is) :
    ∀ i ∈ is, i < 256 := by
  unfold State.readIndices at h
  split at h
  · cases h
  · cases h
    intro i hi
    obtain ⟨b, -, rfl⟩ := List.mem_map.1 hi
    exact b.isLt

theorem matMulRule_effect (h : matMulRule s = .ok u) : RuleEffect i s u := by
  obtain ⟨_, hd, h⟩ := bind_eq_ok.1 h
  obtain ⟨_, _, h⟩ := bind_eq_ok.1 h
  obtain ⟨A, hA, h⟩ := bind_eq_ok.1 h
  obtain ⟨B, hB, h⟩ := bind_eq_ok.1 h
  obtain ⟨C, hC, h⟩ := bind_eq_ok.1 h
  cases h
  obtain ⟨hda, hdb⟩ := Bool.and_eq_true_iff.1 (require_eq_ok.1 hd)
  obtain ⟨hr1, hr2, -, -⟩ := Dims.dimsOk_of_legal hda
  obtain ⟨-, -, hc1, hc2⟩ := Dims.dimsOk_of_legal hdb
  obtain ⟨hrows, -, -⟩ := State.readBlock_shape hA
  obtain ⟨-, hcols, -⟩ := State.readBlock_shape hB
  rw [List.length_range] at hrows
  rw [matMul_eq_ok hC]
  exact .matrix _ (by rw [Mat.mul_rows, hrows]; exact ⟨hr1, hr2⟩) (by rw [Mat.mul_cols, hcols]; exact ⟨hc1, hc2⟩)

theorem matInvRule_effect (h : matInvRule s = .ok u) : RuleEffect i s u := by
  obtain ⟨_, hd, h⟩ := bind_eq_ok.1 h
  obtain ⟨_, _, h⟩ := bind_eq_ok.1 h
  obtain ⟨A, hA, h⟩ := bind_eq_ok.1 h
  obtain ⟨R, hR, h⟩ := bind_eq_ok.1 h
  cases h
  obtain ⟨hr1, hr2, -, -⟩ := Dims.dimsOk_of_legal (require_eq_ok.1 hd)
  obtain ⟨hrows, -, -⟩ := State.readBlock_shape hA
  rw [List.length_range] at hrows
  obtain ⟨hRr, hRc⟩ := matInvert_shape hR
  exact .matrix _ (by rw [hRr, hrows]; exact ⟨hr1, hr2⟩) (by rw [hRc, hrows]; exact ⟨hr1, hr2⟩)

theorem mvCodeRule_effect (h : mvCodeRule s = .ok u) : RuleEffect i s u := by
  obtain ⟨_, _, h⟩ := bind_eq_ok.1 h
  obtain ⟨_, hrange, h⟩ := bind_eq_ok.1 h
  obtain ⟨ins, _, h⟩ := bind_eq_ok.1 h
  obtain ⟨outs, houts, h⟩ := bind_eq_ok.1 h
  obtain ⟨_, _, h⟩ := bind_eq_ok.1 h
  obtain ⟨l, rfl, hl⟩ := State.code_writes h
  exact .shards l fun _ x hx => legal_shard (hl x hx).1 (hl x hx).2 (readIndices_lt houts) (range_le_lmax hrange)

theorem mvCheckRule_effect {useTemp : Bool} (h : mvCheckRule useTemp s = .ok u) : RuleEffect i s u := by
  obtain ⟨_, _, h⟩ := bind_eq_ok.1 h
  obtain ⟨_, _, h⟩ := bind_eq_ok.1 h
  obtain ⟨_, _, h⟩ := bind_eq_ok.1 h
  obtain ⟨_, _, h⟩ := bind_eq_ok.1 h
  obtain ⟨_, _, h⟩ := bind_eq_ok.1 h
  obtain ⟨_, _, h⟩ := bind_eq_ok.1 h
  cases h
  exact .result _ _ _ _

theorem rsConfigRule_effect {loop : BitVec 3} {method : Method} (h : rsConfigRule loop method s = .ok u) :
    RuleEffect (.rsConfig loop method) s u := by
  obtain ⟨_, hone, h⟩ := bind_eq_ok.1 h
  obtain ⟨_, hsum, h⟩ := bind_eq_ok.1 h
  obtain ⟨G, hG, h⟩ := bind_eq_ok.1 h
  cases h
  have hone := require_eq_ok.1 hone
  have hsum := require_eq_ok.1 hsum
  simp only [Bool.and_eq_true, decide_eq_true_eq] at hone hsum
  exact .config _ _ loop method G rfl (by omega) hG

/-- While configured, k + m = n ≤ 256 (44_reed_solomon.md R233). -/
theorem State.Inv.codeword_le (h : s.Inv) (hcfg : s.regs.status.cfgValid = true) : s.k + s.m = s.n ∧ s.n ≤ 256 := by
  obtain ⟨-, -, hsum, hle, -⟩ := h.configured hcfg
  exact ⟨hsum.symm, hle⟩

theorem rsEncodeRule_effect (h : rsEncodeRule s = .ok u) : RuleEffect i s u := by
  obtain ⟨_, hready, h⟩ := bind_eq_ok.1 h
  obtain ⟨_, hrange, h⟩ := bind_eq_ok.1 h
  obtain ⟨l, rfl, hl⟩ := State.code_writes h
  refine .shards l fun hinv x hx => legal_shard (hl x hx).1 (hl x hx).2 (fun o ho => ?_) (range_le_lmax hrange)
  obtain ⟨hsum, hle⟩ := hinv.codeword_le (require_eq_ok.1 hready)
  obtain ⟨-, hlt⟩ := List.mem_range'_1.1 ho
  omega

theorem rsCheckRule_effect {useTemp : Bool} (h : rsCheckRule useTemp s = .ok u) : RuleEffect i s u := by
  obtain ⟨_, _, h⟩ := bind_eq_ok.1 h
  obtain ⟨_, _, h⟩ := bind_eq_ok.1 h
  obtain ⟨_, _, h⟩ := bind_eq_ok.1 h
  obtain ⟨_, _, h⟩ := bind_eq_ok.1 h
  cases h
  exact .result _ _ _ _

theorem mem_missingList {r : Regs} {lo hi i : Nat} (h : i ∈ r.missingList lo hi) : i < hi := by
  have := (List.mem_range'_1.1 (List.mem_filter.1 h).1)
  omega

theorem rsDecodeRule_effect (h : rsDecodeRule s = .ok u) : RuleEffect i s u := by
  obtain ⟨_, hready, h⟩ := bind_eq_ok.1 h
  obtain ⟨_, hrange, h⟩ := bind_eq_ok.1 h
  obtain ⟨_, _, h⟩ := bind_eq_ok.1 h
  split at h
  · cases h
    exact .nothing
  · obtain ⟨S, _, h⟩ := bind_eq_ok.1 h
    obtain ⟨D, _, h⟩ := bind_eq_ok.1 h
    obtain ⟨t, ht, h⟩ := bind_eq_ok.1 h
    obtain ⟨ld, rfl, hld⟩ := State.code_writes ht
    obtain ⟨lp, rfl, hlp⟩ := State.code_writes h
    rw [← State.writeAll_append]
    refine .shards _ fun hinv x hx => ?_
    obtain ⟨hsum, hle⟩ := hinv.codeword_le (require_eq_ok.1 hready)
    have hk : s.k ≤ 256 := by omega
    rcases List.mem_append.1 hx with hx | hx
    · exact legal_shard (hlp x hx).1 (hlp x hx).2 (fun o ho => lt_of_lt_of_le (mem_missingList ho) hle)
        (range_le_lmax hrange)
    · exact legal_shard (hld x hx).1 (hld x hx).2 (fun o ho => lt_of_lt_of_le (mem_missingList ho) hk)
        (range_le_lmax hrange)

/-- Every command rule that ends well has one of the four effects. -/
theorem ruleOf_effect (h : ruleOf i s = .ok u) : RuleEffect i s u := by
  cases i with
  | nop => cases h; exact .nothing
  | gfAdd => cases h; exact .scalar _
  | gfSub => cases h; exact .scalar _
  | gfMul method => cases h; exact .scalar _
  | gfDiv =>
    simp only [ruleOf] at h
    split at h <;> cases h
    exact .scalar _
  | gfExp =>
    obtain ⟨_, _, h⟩ := bind_eq_ok.1 h
    cases h; exact .scalar _
  | gfLog =>
    simp only [ruleOf] at h
    split at h <;> cases h
    exact .scalar _
  | gfAlog =>
    obtain ⟨_, _, h⟩ := bind_eq_ok.1 h
    cases h; exact .scalar _
  | matMul => exact matMulRule_effect h
  | matInv => exact matInvRule_effect h
  | mvCode loop method => exact mvCodeRule_effect h
  | mvCheck loop method useTemp => exact mvCheckRule_effect h
  | rsConfig loop method => exact rsConfigRule_effect h
  | rsEncode => exact rsEncodeRule_effect h
  | rsCheck useTemp => exact rsCheckRule_effect h
  | rsDecode => exact rsDecodeRule_effect h

end

section
variable {s t u : State}

/-! ## RS_CONFIG keeps the invariant -/

/-- GEN's memory after `GEN <- G` lists the matrix, whether or not its bytes are readable yet. -/
theorem State.read_setGen {G : Mat} (hcols : G.cols ≤ 2 ^ 32) {r c : Nat} (hr : r < G.rows) (hc : c < G.cols) :
    Memory.read ((s.setGen G).mems.get .gen) (addrKey ⟨r, c⟩) = some (G.entry r c) := by
  have hat : ∀ o < G.rows, (List.range G.rows).getD o 0 = o := fun o ho => by simp [ho]
  refine State.read_writeAll (fun x hx => ?_) (by simp only; omega) (fun x hx hxb => ?_)
    ⟨_, mem_blockBytes.2 ⟨r, by simpa using hr, c, hc, rfl⟩, ?_⟩
  · obtain ⟨o, ho, d, hd, rfl⟩ := mem_blockBytes.1 hx
    simp only
    omega
  · obtain ⟨o, ho, d, hd, rfl⟩ := mem_blockBytes.1 hx
    rw [List.length_range] at ho
    rw [hat o ho, Nat.zero_add] at hxb
    cases hxb
    rfl
  · rw [hat r hr, Nat.zero_add]

theorem State.legal_setGen (h : s.mems.Legal s.lmax) {G : Mat} (hr : G.rows ≤ 256) (hc : G.cols ≤ 255) :
    (s.setGen G).mems.Legal s.lmax := by
  have hempty : (s.mems.put .gen []).Legal s.lmax := by
    intro space c hcell
    rw [Mems.get_put] at hcell
    split at hcell
    · cases hcell
    · exact h space c hcell
  refine State.legal_writeAll (s := { s with mems := s.mems.put .gen [] }) hempty fun x hx => ?_
  obtain ⟨o, ho, d, hd, rfl⟩ := mem_blockBytes.1 hx
  rw [List.length_range] at ho
  simp [legalAddr, ho]
  omega

@[simp] theorem State.setGen_params (G : Mat) : (s.setGen G).params = s.params := State.writeAll_params _ _ _
@[simp] theorem State.setGen_regs (G : Mat) : (s.setGen G).regs = s.regs := State.writeAll_regs _ _ _
@[simp] theorem State.setGen_faults (G : Mat) : (s.setGen G).faults = s.faults := State.writeAll_faults _ _ _

theorem State.Inv.configure (h : s.Inv) {k m : Nat} (hk : 1 ≤ k) (hm : 1 ≤ m) (hn : k + m ≤ 256) {loop : BitVec 3}
    (hloop : loop.toNat ≤ 5) (method : Method) {G : Mat} (hG : buildG s.params.vandMode k m = .ok G) :
    (s.configure k m loop method G).Inv := by
  obtain ⟨hrows, hcols⟩ := buildG_shape hG
  have hk9 : (BitVec.ofNat 9 k).toNat = k := by rw [BitVec.toNat_ofNat]; omega
  have hm9 : (BitVec.ofNat 9 m).toNat = m := by rw [BitVec.toNat_ofNat]; omega
  have hn9 : (BitVec.ofNat 9 (k + m)).toNat = k + m := by rw [BitVec.toNat_ofNat]; omega
  exact {
    memsWf := State.writeBlock_wf (s := { s with mems := s.mems.put .gen [] }) (Mems.wf_put h.memsWf .gen .nil) _ _ _ _
    memsLegal := by
      rw [show (s.configure k m loop method G).lmax = s.lmax by simp [State.lmax, State.configure]]
      exact State.legal_setGen h.memsLegal (by omega) (by omega)
    errcode := by simpa [State.configure] using h.errcode
    busyClean := by simpa [State.configure] using h.busyClean
    unconfigured := nofun
    configured := fun _ => ⟨hk9.symm ▸ hk, hm9.symm ▸ hm, by simp only [State.configure, hk9, hm9, hn9],
      hn9.symm ▸ hn, hloop⟩
    genMatrix := fun _ => by
      simp only [State.configure, State.setGen_params, hk9, hm9, hn9]
      refine ⟨G, hG, fun r c hr hc => ?_⟩
      simp only [State.byteAt, State.genHolds, hk9, hn9, hr, hc]
      exact State.read_setGen (by omega) (by omega) (by omega)
    mdimc := by simpa [State.configure] using h.mdimc }

/-! ## What every agent's step keeps -/

/-- A property of states that each thing an agent can do keeps: the end of a command, well or with an error, a host's
register or byte write, the platform's reset, and a change of the agents themselves. -/
structure KeptByAgents (P : State → Prop) : Prop where
  complete : ∀ {s u i}, P s → decode s.latch = .ok i → RuleEffect i s u → P u.completeOk
  error : ∀ {s}, P s → ∀ e, P (s.raiseError e)
  regWrite : ∀ {s t j w}, P s → hostRegWrite s j w = .ok t → P t
  memWrite : ∀ {s t space a v}, P s → hostMemWrite s space a v = .ok t → P t
  reset : ∀ {s}, P s → P s.afterReset
  agents : ∀ {s}, P s → ∀ hosts turns, P { s with hosts := hosts, turns := turns }

namespace KeptByAgents
variable {P : State → Prop} (hP : KeptByAgents P)
include hP

theorem busByteWrite {addr : Nat} {v : Byte} (h : P s) (hw : Machine.busByteWrite s addr v = .ok t) : P t := by
  unfold Machine.busByteWrite at hw
  split at hw
  · cases hw
  · split at hw
    · cases hw
    · exact hP.memWrite h hw

theorem busWriteBytes {addr value : Nat} {l : List Nat} (h : P s) (hw : Machine.busWriteBytes s addr value l = .ok t) :
    P t := by
  induction l generalizing s with
  | nil => cases hw; exact h
  | cons k rest ih =>
    simp only [Machine.busWriteBytes] at hw
    split at hw
    · cases hw
    · exact ih (hP.busByteWrite h ‹_›) hw

theorem hostBusWrite {addr size value : Nat} (h : P s) (hw : Machine.hostBusWrite s addr size value = .ok t) : P t := by
  unfold Machine.hostBusWrite at hw
  split at hw
  · cases hw
  · split at hw
    · split at hw
      · cases hw
      · exact hP.regWrite h hw
    · exact hP.busWriteBytes h hw

theorem hostAccess {a : HostAccess} {v : Option Nat} (h : P s) (ha : Machine.hostAccess s a = .ok (t, v)) : P t := by
  cases a <;> simp only [Machine.hostAccess] at ha <;> split at ha <;> cases ha
  -- The accesses in the order of their constructors: the three reads leave the state as it is.
  · exact h
  · exact hP.regWrite h ‹_›
  · exact h
  · exact hP.memWrite h ‹_›
  · exact h
  · exact hP.hostBusWrite h ‹_›

theorem unitStep (h : P s) (hs : Machine.unitStep s = .next t) : P t := by
  rcases unitStep_next hs with ⟨-, rfl⟩ | ⟨-, i, hi, he⟩ | ⟨-, -, rfl⟩
  · exact h
  · rcases exec_next he with ⟨u, hu, rfl⟩ | ⟨e, -, rfl⟩
    · exact hP.complete h hi (ruleOf_effect hu)
    · exact hP.error h e
  · exact hP.error h _

theorem hostStep {k : Nat} (h : P s) (hs : Machine.hostStep k s = .next t) : P t := by
  rcases hostStep_next hs with rfl | ⟨a, u, v, q, ha, rfl⟩ | ⟨q, rfl⟩
  · exact h
  · exact hP.agents (hP.hostAccess h ha) _ _
  · exact hP.agents h _ _

/-- Every step keeps such a property, whichever agent takes the turn. -/
theorem step (h : P s) (hs : Machine.step s = .next t) : P t := by
  have hpop : P s.popTurn := hP.agents h _ _
  obtain ⟨-, ⟨-, hs⟩ | ⟨k, -, hs⟩ | ⟨-, rfl⟩⟩ := step_next hs
  · exact hP.unitStep hpop hs
  · exact hP.hostStep hpop hs
  · exact hP.reset hpop

end KeptByAgents

/-! ## The invariant is kept -/

theorem State.Inv.ruleEffect {i : Instr} (h : s.Inv) (hi : i.wellFormed = true) (he : RuleEffect i s u) : u.Inv := by
  cases he with
  | shards l legal => exact h.writeAll (by decide) (legal h)
  | result v used off cnt => exact (h.setResult v).spoilTemp used off cnt
  | matrix C rows cols => exact h.storeResult rows cols
  | config k m loop method G word counts gen =>
    subst word
    obtain ⟨hk, hm, hn⟩ := counts
    have hloop : loop.toNat ≤ 5 := by simpa [Instr.wellFormed, loopLegal] using hi
    exact h.configure hk hm hn hloop method gen

theorem State.Inv.hostRegWrite {j : Nat} {w : Word} (h : s.Inv) (hw : hostRegWrite s j w = .ok t) : t.Inv := by
  obtain ⟨-, ⟨-, -, rfl⟩ | ⟨-, -, rfl⟩ | ⟨-, rfl⟩⟩ := hostRegWrite_ok hw
  · exact h.issue w
  · exact .of_reset rfl rfl
  · exact h.hostWrite j w

theorem State.Inv.hostMemWrite {space : Space} {a : Addr} {v : Byte} (h : s.Inv)
    (hw : hostMemWrite s space a v = .ok t) : t.Inv := by
  obtain ⟨ha, -, ⟨-, rfl⟩ | ⟨hg, rfl⟩⟩ := hostMemWrite_ok hw
  · exact h
  · exact h.writeAll hg (l := [(a, v)]) (by simpa using ha)

theorem inv_keptByAgents : KeptByAgents State.Inv where
  complete h hi he := (h.ruleEffect (decode_wellFormed hi) he).completeOk
  error h e := h.raiseError e
  regWrite h hw := h.hostRegWrite hw
  memWrite h hw := h.hostMemWrite hw
  reset _ := .of_reset rfl rfl
  agents h hosts turns := h.agents hosts turns

end

/-- Settles O18: each thing an agent can do keeps the invariant, so every step does. -/
theorem stepKeepsInvariant : Obligations.StepKeepsInvariant := fun _ _ h hs => inv_keptByAgents.step h hs

/-! ## Fault records and parameters stay -/

section
variable {s t u : State}

/-- The fault records and the parameters are the given ones. -/
def State.FixedPart (f : List Fault) (p : Params) (s : State) : Prop := s.faults = f ∧ s.params = p

theorem RuleEffect.fixedPart {i : Instr} (he : RuleEffect i s u) : u.FixedPart s.faults s.params := by
  cases he with
  | shards l _ => exact ⟨State.writeAll_faults _ _ _, State.writeAll_params _ _ _⟩
  | result v used off cnt => exact ⟨State.spoilTemp_faults _ _ _ _, State.spoilTemp_params _ _ _ _⟩
  | matrix C _ _ => exact ⟨State.writeAll_faults _ _ _, State.writeAll_params _ _ _⟩
  | config k m loop method G _ _ _ => exact ⟨State.setGen_faults G, State.setGen_params G⟩

theorem hostRegWrite_fixedPart {j : Nat} {w : Word} (hw : hostRegWrite s j w = .ok t) :
    t.FixedPart s.faults s.params := by
  obtain ⟨-, ⟨-, -, rfl⟩ | ⟨-, -, rfl⟩ | ⟨-, rfl⟩⟩ := hostRegWrite_ok hw
  all_goals exact ⟨rfl, rfl⟩

theorem hostMemWrite_fixedPart {space : Space} {a : Addr} {v : Byte} (hw : hostMemWrite s space a v = .ok t) :
    t.FixedPart s.faults s.params := by
  obtain ⟨-, -, ⟨-, rfl⟩ | ⟨-, rfl⟩⟩ := hostMemWrite_ok hw
  all_goals exact ⟨rfl, rfl⟩

theorem fixedPart_keptByAgents (f : List Fault) (p : Params) : KeptByAgents (State.FixedPart f p) where
  complete := by rintro s u i ⟨rfl, rfl⟩ - he; exact he.fixedPart
  error h _ := h
  regWrite := by rintro s t j w ⟨rfl, rfl⟩ hw; exact hostRegWrite_fixedPart hw
  memWrite := by rintro s t space a v ⟨rfl, rfl⟩ hw; exact hostMemWrite_fixedPart hw
  reset h := h
  agents h _ _ := h

end

/-- Settles O16: a state with a record has no next state, and nothing an agent does touches records or parameters. -/
theorem faultRecordsAndParametersStay : Obligations.FaultRecordsAndParametersStay := fun s _ hs =>
  ⟨(step_next hs).1, (fixedPart_keptByAgents s.faults s.params).step ⟨rfl, rfl⟩ hs⟩

end Sys2Proof.Machine

/-! # Memory family: byte ports, bus accesses, the bus map and a host's wide access -/

namespace Sys2Proof.Machine

theorem SameRest.trans {s t u : State} (h : SameRest s t) (h' : SameRest t u) : SameRest s u := by
  obtain ⟨hp, hl, hf, hh, ht⟩ := h
  obtain ⟨hp', hl', hf', hh', ht'⟩ := h'
  exact ⟨hp'.trans hp, hl'.trans hl, hf'.trans hf, hh'.trans hh, ht'.trans ht⟩

/-! ## The byte a host stores -/

/-- What a byte write by a host leaves where it is allowed: the byte stored, and nothing stored in GEN (20_memory.md
R61). `hostMemWrite_eq_ok` ties it to the port. -/
def State.hostStore (s : State) (space : Space) (a : Addr) (v : Byte) : State :=
  if space = .gen then s else s.memWrite space a v

section
variable (s : State) (space : Space) (a : Addr) (v : Byte)

@[simp] theorem State.hostStore_gen : s.hostStore .gen a v = s := rfl

theorem State.hostStore_of_ne_gen {space : Space} (hg : space ≠ .gen) : s.hostStore space a v = s.memWrite space a v :=
  if_neg hg

@[simp] theorem State.hostStore_params : (s.hostStore space a v).params = s.params := by
  unfold State.hostStore; split <;> rfl
@[simp] theorem State.hostStore_regs : (s.hostStore space a v).regs = s.regs := by
  unfold State.hostStore; split <;> rfl
@[simp] theorem State.hostStore_lmax : (s.hostStore space a v).lmax = s.lmax := by simp [State.lmax]
@[simp] theorem State.hostStore_busy : (s.hostStore space a v).busy = s.busy := by simp [State.busy]

theorem State.sameRegs_hostStore : SameRegs [] s (s.hostStore space a v) := fun _ _ => by simp [State.regWord]

theorem State.sameRest_hostStore : SameRest s (s.hostStore space a v) := by
  unfold State.hostStore
  split <;> exact ⟨rfl, rfl, rfl, rfl, rfl⟩

/-- A host's byte write leaves the other memories as they are, and GEN always. -/
theorem State.hostStore_get_other {space' : Space} (h : space' ≠ space ∨ space' = .gen) :
    (s.hostStore space a v).mems.get space' = s.mems.get space' := by
  unfold State.hostStore
  split
  · rfl
  · exact Mems.get_put_other _ _ (h.elim id fun hg => by rw [hg]; exact Ne.symm ‹_›)

end

section
variable {s t : State} {space : Space} {a : Addr} {v : Byte}

/-- The stored byte holds the value. -/
theorem State.byteAt_hostStore_same (hg : space ≠ .gen) (ha : a.col < 2 ^ 32) :
    (s.hostStore space a v).byteAt space a = some v := by
  rw [State.hostStore_of_ne_gen _ _ _ hg, State.byteAt_memWrite v ha (absurd · hg) _ ha, if_pos ⟨rfl, rfl⟩]

/-- Every other byte holds what it held. -/
theorem State.byteAt_hostStore_other (ha : a.col < 2 ^ 32) {space' : Space} {b : Addr} (hb : b.col < 2 ^ 32)
    (h : (space, a) ≠ (space', b)) : (s.hostStore space a v).byteAt space' b = s.byteAt space' b := by
  by_cases hg : space = .gen
  · subst hg; rfl
  · rw [State.hostStore_of_ne_gen _ _ _ hg, State.byteAt_memWrite v ha (absurd · hg) _ hb,
      if_neg fun hs => h (by rw [hs.1, hs.2])]

/-- Every byte of another memory, and of GEN always, holds what it held, at an illegal address too. -/
theorem State.byteAt_hostStore_space {space' : Space} (h : space' ≠ space ∨ space' = .gen) (b : Addr) :
    (s.hostStore space a v).byteAt space' b = s.byteAt space' b :=
  State.byteAt_congr (s.hostStore_get_other space a v h) (by simp) (by simp) (by simp) b

theorem Memory.write_write (m : Memory) (k : Nat) (v : Byte) :
    Memory.write (Memory.write m k v) k v = Memory.write m k v := by
  induction m with
  | nil => simp [Memory.write]
  | cons c rest ih =>
    obtain ⟨b, x⟩ := c
    by_cases hlt : k < b
    · simp [Memory.write, hlt]
    · by_cases heq : k = b <;> simp [Memory.write, hlt, heq, ih]

theorem Mems.put_put (m : Mems) (space : Space) (x y : Memory) : (m.put space x).put space y = m.put space y := by
  cases space <;> rfl

/-- Storing the same byte again changes nothing more (20_memory.md R69). -/
theorem State.hostStore_hostStore :
    (s.hostStore space a v).hostStore space a v = s.hostStore space a v := by
  by_cases hg : space = .gen
  · subst hg; rfl
  · simp [State.hostStore, hg, State.memWrite, Memory.write_write, Mems.put_put]

/-! ## The byte ports (20_memory.md R61) -/

/-- A host's byte write goes well exactly at a legal address while BUSY = 0, and only stores. -/
theorem hostMemWrite_eq_ok :
    hostMemWrite s space a v = .ok t
      ↔ legalAddr s.lmax space a = true ∧ s.busy = false ∧ t = s.hostStore space a v := by
  constructor
  · intro h
    obtain ⟨ha, hb, ⟨rfl, rfl⟩ | ⟨hg, rfl⟩⟩ := hostMemWrite_ok h
    · exact ⟨ha, hb, rfl⟩
    · exact ⟨ha, hb, (State.hostStore_of_ne_gen _ _ _ hg).symm⟩
  · rintro ⟨ha, hb, rfl⟩
    rw [hostMemWrite, if_neg (by simp [ha]), if_neg (by simp [hb]), State.hostStore]
    split <;> rfl

/-- A host's byte read goes well exactly at a legal address while BUSY = 0, where the byte holds the value. -/
theorem hostMemRead_eq_ok :
    hostMemRead s space a = .ok v
      ↔ legalAddr s.lmax space a = true ∧ s.busy = false ∧ s.byteAt space a = some v := by
  unfold hostMemRead
  cases s.byteAt space a <;> grind

theorem hostMemRead_unwritten (ha : legalAddr s.lmax space a = true) (hb : s.busy = false)
    (hn : s.byteAt space a = none) : hostMemRead s space a = .error (.unwrittenRead space a) := by
  simp [hostMemRead, ha, hb, hn]

theorem hostMemRead_illegal (ha : legalAddr s.lmax space a = false) :
    hostMemRead s space a = .error (.badAddress (.mem space a)) := by simp [hostMemRead, ha]

theorem hostMemWrite_illegal (ha : legalAddr s.lmax space a = false) :
    hostMemWrite s space a v = .error (.badAddress (.mem space a)) := by simp [hostMemWrite, ha]

/-- Every legal address of this machine has a column that keys can tell apart. -/
theorem State.legalAddr_col (ha : legalAddr s.lmax space a = true) : a.col < 2 ^ 32 :=
  Machine.legalAddr_col (lmax_lt s.params) ha

end

section
variable {s : State} {j : Nat} {w : Word}

theorem hostRegRead_illegal (hj : 32 ≤ j) : hostRegRead s j = .error (.badAddress (.reg j)) := if_pos hj

theorem hostRegWrite_illegal (hj : 32 ≤ j) : hostRegWrite s j w = .error (.badAddress (.reg j)) := if_pos hj

end

/-- Settles O24: an allowed byte write is `State.hostStore`, and each other outcome is one branch of the port. -/
theorem bytePortWriteReadsBack : Obligations.BytePortWriteReadsBack := by
  intro s space a v hbusy
  refine ⟨fun ha hg => ?_, fun ha => ?_, fun ha hn => hostMemRead_unwritten ha hbusy hn,
    fun ha => ⟨hostMemRead_illegal ha, hostMemWrite_illegal ha⟩,
    fun ha hv => hostMemRead_eq_ok.2 ⟨ha, hbusy, hv⟩, fun j w hj => ⟨hostRegRead_illegal hj, hostRegWrite_illegal hj⟩⟩
  · have hcol := State.legalAddr_col ha
    refine ⟨s.hostStore space a v, hostMemWrite_eq_ok.2 ⟨ha, hbusy, rfl⟩, ?_, fun space' b hb hne => ?_,
      s.sameRegs_hostStore space a v, s.sameRest_hostStore space a v⟩
    · exact hostMemRead_eq_ok.2 ⟨by simpa using ha, by simpa using hbusy, State.byteAt_hostStore_same hg hcol⟩
    · exact State.byteAt_hostStore_other hcol (State.legalAddr_col hb) (by simp only [ne_eq, Prod.mk.injEq]; tauto)
  · exact hostMemWrite_eq_ok.2 ⟨ha, hbusy, rfl⟩

/-! ## No side effects of reads, and writes made twice (20_memory.md R69) -/

section
variable {s t : State}

/-- An access that reads a value leaves the state as it is. -/
theorem hostAccess_read_pure {a : HostAccess} {v : Nat} (h : hostAccess s a = .ok (t, some v)) : t = s := by
  cases a <;> simp only [hostAccess] at h <;> split at h <;> cases h <;> rfl

theorem setPresentWord_setPresentWord (mask : BitVec 256) (q : Nat) (w : Word) :
    setPresentWord (setPresentWord mask q w) q w = setPresentWord mask q w := by
  apply BitVec.eq_of_getLsbD_eq
  intro i hi
  rw [getLsbD_setPresentWord _ _ _ hi]
  split
  · rw [getLsbD_setPresentWord _ _ _ hi, if_pos ‹_›]
  · rfl

theorem Status.hostWrite_hostWrite (st : Status) (w : Word) : (st.hostWrite w).hostWrite w = st.hostWrite w := by
  simp [Status.hostWrite_eq]

/-- A register that only stores holds the same after the same write again. -/
theorem Regs.hostWrite_hostWrite (r : Regs) (j : Nat) (w : Word) :
    (r.hostWrite j w).hostWrite j w = r.hostWrite j w := by
  unfold Regs.hostWrite
  split <;> simp [Status.hostWrite_hostWrite, setPresentWord_setPresentWord]

theorem Regs.hostWrite_busy (r : Regs) (j : Nat) (w : Word) : (r.hostWrite j w).status.busy = r.status.busy := by
  rw [Regs.hostWrite_status]
  split
  · rw [Status.hostWrite_eq]
  · rfl

theorem hostRegWrite_srst (s : State) {w : Word} (hw : w.getLsbD 1 = true) : hostRegWrite s 1 w = .ok s.afterReset := by
  simp [hostRegWrite, writableWhileBusy, hw]

theorem hostRegWrite_allowed {j : Nat} {w : Word} (h3 : j ≠ 3) (h : hostRegWrite s j w = .ok t) :
    (s.busy && !writableWhileBusy j) = false := by
  by_contra hne
  obtain ⟨hj, -⟩ := hostRegWrite_ok h
  rw [hostRegWrite, if_neg (by omega), if_neg h3, if_pos (by simpa using hne)] at h
  cases h

/-- A register write other than a command does the same again: a second reset finds the reset state, and any other write
stores bits that are already there. -/
theorem hostRegWrite_again {j : Nat} {w : Word} (h3 : j ≠ 3) (h : hostRegWrite s j w = .ok t) :
    hostRegWrite t j w = .ok t := by
  by_cases hreset : j = 1 ∧ w.getLsbD 1 = true
  · obtain ⟨rfl, hw⟩ := hreset
    rw [hostRegWrite_srst s hw] at h
    cases h
    exact hostRegWrite_srst s.afterReset hw
  · have hj := (hostRegWrite_ok h).1
    have hsrst : j = 1 → w.getLsbD 1 = false := fun h1 => by simpa [h1] using hreset
    have hallowed := hostRegWrite_allowed h3 h
    rw [hostRegWrite_stores hj h3 hallowed hsrst] at h
    cases h
    have hbusy : State.busy { s with regs := s.regs.hostWrite j w } = s.busy := Regs.hostWrite_busy s.regs j w
    rw [hostRegWrite_stores hj h3 (by rw [hbusy, hallowed]) hsrst]
    simp only [Regs.hostWrite_hostWrite]

end

/-- Settles O29: reads answer the state they were given, and a store or a register write made again finds its own effect
in place. -/
theorem readsArePureAndWritesIdempotent : Obligations.ReadsArePureAndWritesIdempotent := by
  refine ⟨fun s t a v h => hostAccess_read_pure h, fun s t space a v h => ?_,
    fun s t j w h3 h => hostRegWrite_again h3 h⟩
  obtain ⟨ha, hb, rfl⟩ := hostMemWrite_eq_ok.1 h
  refine ⟨s.sameRegs_hostStore space a v,
    fun space' hne b => State.byteAt_hostStore_space (.inl (by simpa using hne)) b, s.sameRest_hostStore space a v, ?_⟩
  exact hostMemWrite_eq_ok.2 ⟨by simpa using ha, by simpa using hb, State.hostStore_hostStore.symm⟩

/-! ## Bus accesses to the register block (20_memory.md R64, R65) -/

theorem inRegBlock_offset (p : Platform) {off : Nat} (h : off < 128) : inRegBlock p (p.regBase + off) = true := by
  simp [inRegBlock, h]

/-- Which register an access at a byte offset of the block names: width first, then alignment (log 8). -/
theorem busRegIndex_offset (p : Platform) (off size : Nat) :
    busRegIndex p (p.regBase + off) size =
      if size ≠ 4 then .error (.badAccessWidth off size)
      else if off % 4 ≠ 0 then .error (.misaligned off size) else .ok (off / 4) := by
  simp only [busRegIndex, Nat.add_sub_cancel_left]

/-- Settles O25: both accesses go through `busRegIndex`, and then the register primitive. -/
theorem busRegisterAccess : Obligations.BusRegisterAccess := by
  intro s off size value hoff hsize
  have hin := inRegBlock_offset s.params.platform hoff
  simp only [hostBusRead, hostBusWrite, hsize, hin, if_true, if_false, busRegIndex_offset]
  refine ⟨fun h4 => ?_, fun h4 hal => ?_, fun h4 hal => ⟨?_, fun w hw => ?_, fun f hf => ?_⟩⟩
  · simp [h4]
  · simp [h4, hal]
  · simp [h4, hal]
  · simp [h4, hal, hw]
  · simp [h4, hal, hf]

/-! ## The bus map (20_memory.md R66) -/

section
variable {p : Platform} {lmax : Nat} {w v : PortWindow} {space : Space} {x : Addr} {a b : Nat}

/-- A window maps an address of its range to the byte in the row and column the offset names. -/
theorem PortWindow.target_eq_some :
    PortWindow.target w a = some (space, x) ↔ w.base ≤ a ∧ a < w.base + w.rows * w.cols
      ∧ w.space = space ∧ x = ⟨w.row0 + (a - w.base) / w.cols, w.col0 + (a - w.base) % w.cols⟩ := by
  unfold PortWindow.target
  split <;> grind

/-- The byte lies in the window's rows and columns. -/
theorem PortWindow.target_mem (h : PortWindow.target w a = some (space, x)) :
    w.row0 ≤ x.row ∧ x.row < w.row0 + w.rows ∧ w.col0 ≤ x.col ∧ x.col < w.col0 + w.cols := by
  obtain ⟨hlo, hhi, -, rfl⟩ := PortWindow.target_eq_some.1 h
  have hoff : a - w.base < w.rows * w.cols := by omega
  have hcols : 0 < w.cols := Nat.pos_of_ne_zero fun h0 => by simp [h0] at hoff
  have hrow := (Nat.div_lt_iff_lt_mul hcols).2 hoff
  have hcol := Nat.mod_lt (a - w.base) hcols
  exact ⟨by simp, by simpa using hrow, by simp, by simpa using hcol⟩

/-- A window maps no two addresses to one byte: the offset is the row's quotient and the column's remainder. -/
theorem PortWindow.target_inj (ha : PortWindow.target w a = some (space, x))
    (hb : PortWindow.target w b = some (space, x)) : a = b := by
  obtain ⟨ha, -, -, rfl⟩ := PortWindow.target_eq_some.1 ha
  obtain ⟨hb, -, -, hx⟩ := PortWindow.target_eq_some.1 hb
  simp only [Addr.mk.injEq, Nat.add_left_cancel_iff] at hx
  have hoff : a - w.base = b - w.base := by
    rw [← Nat.div_add_mod (a - w.base) w.cols, ← Nat.div_add_mod (b - w.base) w.cols, hx.1, hx.2]
  omega

theorem apart_comm (a n b m : Nat) : apart a n b m = apart b m a n := Bool.or_comm _ _

theorem windowsApart_comm (v w : PortWindow) : windowsApart v w = windowsApart w v := by
  simp only [windowsApart, apart_comm v.base, apart_comm v.row0, apart_comm v.col0, bne_comm (a := v.space)]

/-- Windows that are apart share no byte. -/
theorem windowsApart_target (h : windowsApart v w = true) (hv : PortWindow.target v a = some (space, x)) :
    PortWindow.target w b ≠ some (space, x) := by
  intro hw
  have hvs := (PortWindow.target_eq_some.1 hv).2.2.1
  have hws := (PortWindow.target_eq_some.1 hw).2.2.1
  have hvm := PortWindow.target_mem hv
  have hwm := PortWindow.target_mem hw
  simp only [windowsApart, apart, hvs, hws, bne_self_eq_false, Bool.false_or, Bool.and_eq_true, Bool.or_eq_true,
    decide_eq_true_eq] at h
  omega

/-- A mapped address is mapped by one of the windows. -/
theorem busTarget_window {y : Space × Addr} (h : busTarget p a = some y) :
    ∃ w ∈ p.ports, PortWindow.target w a = some y :=
  List.exists_of_findSome?_eq_some h

/-- On a legal map two bus addresses of one byte are equal. -/
theorem busTarget_inj (hp : platformLegal lmax p) {y : Space × Addr} (ha : busTarget p a = some y)
    (hb : busTarget p b = some y) : a = b := by
  obtain ⟨v, hv, hva⟩ := busTarget_window ha
  obtain ⟨w, hw, hwb⟩ := busTarget_window hb
  by_cases hvw : v = w
  · subst hvw
    exact PortWindow.target_inj hva hwb
  · have : Std.Symm fun v w => windowsApart v w = true := ⟨fun v w h => by rwa [windowsApart_comm]⟩
    exact absurd hwb (windowsApart_target (hp.1.forall hv hw hvw) hva)

/-- On a legal map no address of the register block is a byte of a memory. -/
theorem busTarget_regBlock (hp : platformLegal lmax p) (ha : inRegBlock p a = true) : busTarget p a = none := by
  rw [Option.eq_none_iff_forall_ne_some]
  intro y hy
  obtain ⟨w, hw, hwa⟩ := busTarget_window hy
  obtain ⟨hlo, hhi, -⟩ := PortWindow.target_eq_some.1 hwa
  have hapart := (hp.2 w hw).1
  simp only [inRegBlock, apart, Bool.and_eq_true, Bool.or_eq_true, decide_eq_true_eq] at ha hapart
  omega

/-- The legal addresses of a memory are its rows and columns. -/
theorem legalAddr_of_lt (hrow : x.row < spaceRows space) (hcol : x.col < spaceCols lmax space) :
    legalAddr lmax space x = true := by
  cases space <;> simp_all [legalAddr, spaceRows, spaceCols]

/-- On a legal map every mapped byte is at a legal address. -/
theorem busTarget_legal (hp : platformLegal lmax p) (ha : busTarget p a = some (space, x)) :
    legalAddr lmax space x = true := by
  obtain ⟨w, hw, hwa⟩ := busTarget_window ha
  obtain ⟨-, hrows, hcols⟩ := hp.2 w hw
  have hspace := (PortWindow.target_eq_some.1 hwa).2.2.1
  have hm := PortWindow.target_mem hwa
  rw [hspace] at hrows hcols
  exact legalAddr_of_lt (by omega) (by omega)

end

/-- R66's illustrative map with the model's bases is legal (log 3). -/
theorem platformLegal_reset : platformLegal State.reset.lmax State.reset.params.platform := by
  constructor <;> decide

/-- Settles O26: a byte lies in one window only, at one offset of it, within the memory and off the register block. -/
theorem legalBusMapIsInjective : Obligations.LegalBusMapIsInjective :=
  ⟨fun _ _ hp => ⟨fun _ _ _ => busTarget_inj hp, fun _ => busTarget_regBlock hp, fun _ _ _ => busTarget_legal hp⟩,
    platformLegal_reset⟩

/-! ## Little-endian values (20_memory.md R67) -/

theorem byteOfValue_eq (value t : Nat) : byteOfValue value t = BitVec.ofNat 8 (value / 2 ^ (8 * t)) := by
  rw [byteOfValue, Nat.pow_mul]

/-- The first bytes of a number, put together again, are its low bits. -/
theorem valueOfBytes_byteOfValue (value n : Nat) :
    valueOfBytes ((List.range n).map (byteOfValue value)) = value % 2 ^ (8 * n) := by
  induction n generalizing value with
  | zero => simp [valueOfBytes, Nat.mod_one]
  | succ n ih =>
    have hshift : byteOfValue value ∘ Nat.succ = byteOfValue (value / 256) := by
      funext t
      simp [byteOfValue, Nat.pow_succ', Nat.div_div_eq_div_mul]
    rw [List.range_succ_eq_map, List.map_cons, List.map_map, hshift, valueOfBytes, ih, Nat.mul_succ,
      Nat.add_comm (8 * n), Nat.pow_add, Nat.mod_mul]
    simp [byteOfValue]

theorem valueOfBytes_append (bs : List Byte) (b : Byte) :
    valueOfBytes (bs ++ [b]) = valueOfBytes bs + 256 ^ bs.length * b.toNat := by
  induction bs with
  | nil => simp [valueOfBytes]
  | cons c bs ih => simp only [List.cons_append, valueOfBytes, ih, List.length_cons]; ring

/-! ## A list of byte writes by a host -/

/-- The state after a host's byte writes of a number, byte `t` to `target t`, in the order of a list. -/
def State.hostStores (s : State) (target : Nat → Space × Addr) (value : Nat) (l : List Nat) : State :=
  l.foldl (fun u t => u.hostStore (target t).1 (target t).2 (byteOfValue value t)) s

section
variable (s : State) (target : Nat → Space × Addr) (value : Nat) (l : List Nat)

@[simp] theorem State.hostStores_nil : s.hostStores target value [] = s := rfl
@[simp] theorem State.hostStores_cons (t : Nat) : s.hostStores target value (t :: l)
    = (s.hostStore (target t).1 (target t).2 (byteOfValue value t)).hostStores target value l := rfl

@[simp] theorem State.hostStores_params : (s.hostStores target value l).params = s.params := by
  induction l generalizing s <;> simp [*]
@[simp] theorem State.hostStores_regs : (s.hostStores target value l).regs = s.regs := by
  induction l generalizing s <;> simp [*]

theorem State.sameRest_hostStores : SameRest s (s.hostStores target value l) := by
  induction l generalizing s with
  | nil => exact ⟨rfl, rfl, rfl, rfl, rfl⟩
  | cons t l ih => exact (s.sameRest_hostStore _ _ _).trans (ih _)

end

section
variable {s : State} {target : Nat → Space × Addr} {value : Nat} {l : List Nat}

/-- A memory none of whose bytes is written, and GEN always, reads as before. -/
theorem State.byteAt_hostStores_space {space : Space} (h : (∀ t ∈ l, (target t).1 ≠ space) ∨ space = .gen) (a : Addr) :
    (s.hostStores target value l).byteAt space a = s.byteAt space a := by
  induction l generalizing s with
  | nil => rfl
  | cons t l ih =>
    rw [State.hostStores_cons, ih (h.imp_left fun h t ht => h t (List.mem_cons_of_mem _ ht)),
      State.byteAt_hostStore_space (h.imp_left fun h => (h t List.mem_cons_self).symm)]

/-- A byte that is not written reads as before. -/
theorem State.byteAt_hostStores_other (hl : ∀ t ∈ l, (target t).2.col < 2 ^ 32) {space : Space} {a : Addr}
    (ha : a.col < 2 ^ 32) (h : ∀ t ∈ l, target t ≠ (space, a)) :
    (s.hostStores target value l).byteAt space a = s.byteAt space a := by
  induction l generalizing s with
  | nil => rfl
  | cons t l ih =>
    rw [State.hostStores_cons,
      ih (fun t ht => hl t (List.mem_cons_of_mem _ ht)) fun t ht => h t (List.mem_cons_of_mem _ ht),
      State.byteAt_hostStore_other (hl t List.mem_cons_self) ha (h t List.mem_cons_self)]

/-- Where the targets are distinct, each written byte holds its part of the number. -/
theorem State.byteAt_hostStores_same (hl : ∀ t ∈ l, (target t).2.col < 2 ^ 32) (hd : (l.map target).Nodup) {t : Nat}
    (ht : t ∈ l) (hg : (target t).1 ≠ .gen) :
    (s.hostStores target value l).byteAt (target t).1 (target t).2 = some (byteOfValue value t) := by
  induction l generalizing s with
  | nil => cases ht
  | cons t' l ih =>
    have hl' := fun t ht => hl t (List.mem_cons_of_mem t' ht)
    obtain ⟨hfresh, hd⟩ := List.nodup_cons.1 hd
    rw [State.hostStores_cons]
    rcases List.mem_cons.1 ht with rfl | ht
    · have hcol := hl t List.mem_cons_self
      rw [State.byteAt_hostStores_other hl' hcol fun t' ht' he => hfresh (List.mem_map.2 ⟨t', ht', he⟩),
        State.byteAt_hostStore_same hg hcol]
    · exact ih hl' hd ht

end

/-! ## Wide bus accesses to the byte memories (20_memory.md R67) -/

section
variable {s : State} {addr size : Nat} (hsize : 1 ≤ size) (hreg : inRegBlock s.params.platform addr = false)
include hsize hreg

/-- A bus write off the register block is its byte writes. -/
theorem hostBusWrite_bytes (value : Nat) :
    hostBusWrite s addr size value = busWriteBytes s addr value (List.range size) := by
  rw [hostBusWrite, if_neg (by omega), if_neg (by simp [hreg])]

/-- A bus read off the register block is its byte reads, and its value the bytes'. -/
theorem hostBusRead_bytes :
    hostBusRead s addr size = (collect (fun t => busByteRead s (addr + t)) (List.range size)).map valueOfBytes := by
  rw [hostBusRead, if_neg (by omega), if_neg (by simp [hreg])]
  cases collect (fun t => busByteRead s (addr + t)) (List.range size) <;> rfl

end

/-- The bus address is no register's, and is mapped to a byte at a legal address. -/
def State.MapsByte (s : State) (addr : Nat) (x : Space × Addr) : Prop :=
  inRegBlock s.params.platform addr = false ∧ busTarget s.params.platform addr = some x
    ∧ legalAddr s.lmax x.1 x.2 = true

section
variable {s : State} {addr size value : Nat} {x : Space × Addr} {v : Byte} {target : Nat → Space × Addr}

theorem State.MapsByte.of_params {u : State} (h : s.MapsByte addr x) (hp : u.params = s.params) :
    u.MapsByte addr x := by
  simpa [State.MapsByte, State.lmax, hp] using h

theorem busByteWrite_mapped (h : s.MapsByte addr x) (hbusy : s.busy = false) :
    busByteWrite s addr v = .ok (s.hostStore x.1 x.2 v) := by
  obtain ⟨hreg, hmap, ha⟩ := h
  simp only [busByteWrite, hreg, hmap]
  exact hostMemWrite_eq_ok.2 ⟨ha, hbusy, rfl⟩

theorem busByteRead_mapped (h : s.MapsByte addr x) (hbusy : s.busy = false) (hv : s.byteAt x.1 x.2 = some v) :
    busByteRead s addr = .ok v := by
  obtain ⟨hreg, hmap, ha⟩ := h
  simp only [busByteRead, hreg, hmap]
  exact hostMemRead_eq_ok.2 ⟨ha, hbusy, hv⟩

theorem busWriteBytes_mapped {l : List Nat} (h : ∀ t ∈ l, s.MapsByte (addr + t) (target t)) (hbusy : s.busy = false) :
    busWriteBytes s addr value l = .ok (s.hostStores target value l) := by
  induction l generalizing s with
  | nil => rfl
  | cons t l ih =>
    rw [busWriteBytes, busByteWrite_mapped (h t List.mem_cons_self) hbusy]
    exact ih (fun t' ht' => (h t' (List.mem_cons_of_mem _ ht')).of_params (State.hostStore_params _ _ _ _))
      (by simpa using hbusy)

variable (h : ∀ t, t < size → s.MapsByte (addr + t) (target t)) (hsize : 1 ≤ size) (hbusy : s.busy = false)
include h hsize hbusy

theorem hostBusWrite_mapped :
    hostBusWrite s addr size value = .ok (s.hostStores target value (List.range size)) := by
  rw [hostBusWrite_bytes (addr := addr) hsize (h 0 hsize).1,
    busWriteBytes_mapped (fun t ht => h t (List.mem_range.1 ht)) hbusy]

theorem hostBusRead_mapped (hv : ∀ t, t < size → s.byteAt (target t).1 (target t).2 = some (byteOfValue value t)) :
    hostBusRead s addr size = .ok (value % 2 ^ (8 * size)) := by
  have hread : ∀ t ∈ List.range size, busByteRead s (addr + t) = .ok (byteOfValue value t) := fun t ht =>
    busByteRead_mapped (h t (List.mem_range.1 ht)) hbusy (hv t (List.mem_range.1 ht))
  rw [hostBusRead_bytes (addr := addr) hsize (h 0 hsize).1, collect_ok hread, Except.map, valueOfBytes_byteOfValue]

end

/-- Settles O27: the write is `State.hostStores` of its bytes, whose bytes are distinct. -/
theorem wideBusWriteIsLittleEndian : Obligations.WideBusWriteIsLittleEndian := by
  intro s addr size value target hbusy hsize hmaps hinj
  have hmaps : ∀ t, t < size → s.MapsByte (addr + t) (target t) := hmaps
  have hcol : ∀ t ∈ List.range size, (target t).2.col < 2 ^ 32 := fun t ht =>
    State.legalAddr_col (hmaps t (List.mem_range.1 ht)).2.2
  have hdistinct : ((List.range size).map target).Nodup := List.nodup_range.map_on fun t ht t' ht' =>
    hinj t t' (List.mem_range.1 ht) (List.mem_range.1 ht')
  have hbyte : ∀ t, t < size → (target t).1 ≠ .gen →
      (s.hostStores target value (List.range size)).byteAt (target t).1 (target t).2 = some (byteOfValue value t) :=
    fun t ht hg => State.byteAt_hostStores_same hcol hdistinct (List.mem_range.2 ht) hg
  refine ⟨_, hostBusWrite_mapped hmaps hsize hbusy, fun t ht hg => ?_, fun hg => ?_, fun space a ha hne => ?_,
    fun space hsp a => ?_, fun j _ => ?_, s.sameRest_hostStores target value _⟩
  · rw [hbyte t ht hg, byteOfValue_eq]
  · exact hostBusRead_mapped (fun t ht => (hmaps t ht).of_params (by simp)) hsize (by simpa [State.busy] using hbusy)
      fun t ht => hbyte t ht (hg t ht)
  · exact State.byteAt_hostStores_other hcol (State.legalAddr_col ha) fun t ht => hne t (List.mem_range.1 ht)
  · exact State.byteAt_hostStores_space (hsp.imp_left fun h t ht => h t (List.mem_range.1 ht)) a
  · simp [State.regWord, State.lmax]

/-! ## A host's wide access, byte by byte (20_memory.md R67, R72) -/

/-- The machine with other hosts and turns: the agents are no part of the unit. -/
def State.withAgents (s : State) (hosts : List HostProc) (turns : List Turn) : State :=
  { s with hosts := hosts, turns := turns }

section
variable (s : State) (hosts : List HostProc) (turns : List Turn)

@[simp] theorem State.withAgents_params : (s.withAgents hosts turns).params = s.params := rfl
@[simp] theorem State.withAgents_faults : (s.withAgents hosts turns).faults = s.faults := rfl
@[simp] theorem State.withAgents_hosts : (s.withAgents hosts turns).hosts = hosts := rfl
@[simp] theorem State.withAgents_busy : (s.withAgents hosts turns).busy = s.busy := rfl
@[simp] theorem State.withAgents_lmax : (s.withAgents hosts turns).lmax = s.lmax := rfl
@[simp] theorem State.withAgents_popTurn (turn : Turn) :
    (s.withAgents hosts (turn :: turns)).popTurn = s.withAgents hosts turns := rfl
@[simp] theorem State.withAgents_setHost (h : Nat) (p : HostProc) :
    (s.withAgents hosts turns).setHost h p = s.withAgents (hosts.set h p) turns := rfl

/-! A byte access neither reads nor changes the agents. -/

theorem hostMemWrite_withAgents (space : Space) (a : Addr) (v : Byte) :
    hostMemWrite (s.withAgents hosts turns) space a v
      = (hostMemWrite s space a v).map fun t => t.withAgents hosts turns := by
  simp only [hostMemWrite, State.withAgents_lmax, State.withAgents_busy, apply_ite (Except.map _)]
  rfl

theorem busByteRead_withAgents (addr : Nat) : busByteRead (s.withAgents hosts turns) addr = busByteRead s addr := rfl

theorem busByteWrite_withAgents (addr : Nat) (v : Byte) :
    busByteWrite (s.withAgents hosts turns) addr v = (busByteWrite s addr v).map fun t => t.withAgents hosts turns := by
  simp only [busByteWrite, State.withAgents_params, apply_ite (Except.map _)]
  cases busTarget s.params.platform addr with
  | none => rfl
  | some x => simp only [hostMemWrite_withAgents]; rfl

end

section
variable {s t : State} {addr : Nat} {v : Byte}

/-- A byte write that goes well leaves everything but registers and memories as it was. -/
theorem busByteWrite_sameRest (h : busByteWrite s addr v = .ok t) : SameRest s t := by
  unfold busByteWrite at h
  split at h
  · cases h
  · split at h
    · cases h
    · obtain ⟨-, -, rfl⟩ := hostMemWrite_eq_ok.1 h
      exact s.sameRest_hostStore _ _ _

theorem byteOfValue_zero (v : Byte) : byteOfValue v.toNat 0 = v := by simp [byteOfValue]

/-- A bus write of one byte is the byte write, also at an address of the register block, which no byte fits (R64). -/
theorem hostBusWrite_one (s : State) (addr : Nat) (v : Byte) :
    hostBusWrite s addr 1 v.toNat = busByteWrite s addr v := by
  by_cases hreg : inRegBlock s.params.platform addr = true
  · simp [hostBusWrite, busByteWrite, busRegIndex, hreg]
  · rw [hostBusWrite_bytes (Nat.le_refl 1) (by simpa using hreg)]
    simp only [List.range_one, busWriteBytes, byteOfValue_zero, Nat.add_zero]
    cases busByteWrite s addr v <;> rfl

/-- A bus read of one byte is the byte read. -/
theorem hostBusRead_one (s : State) (addr : Nat) : hostBusRead s addr 1 = (busByteRead s addr).map BitVec.toNat := by
  by_cases hreg : inRegBlock s.params.platform addr = true
  · simp [hostBusRead, busByteRead, busRegIndex, hreg, Except.map]
  · rw [hostBusRead_bytes (Nat.le_refl 1) (by simpa using hreg)]
    simp only [List.range_one, collect, Nat.add_zero]
    cases busByteRead s addr <;> simp [Except.map, valueOfBytes]

end

/-- The outcome of a step that makes an access. -/
def outcomeOf : Except Fault State → Host.Outcome State Fault Refusal
  | .error f => .fault f
  | .ok t => .next t

theorem coreRun_fault {M : Host.Core} {s : M.State} {f : M.Fault} (h : M.step s = .fault f) (n : Nat) :
    M.run (n + 1) s = .fault f := by rw [Host.Core.run, h]

theorem coreRun_next {M : Host.Core} {s t : M.State} (h : M.step s = .next t) (n : Nat) :
    M.run (n + 1) s = M.run n t := by rw [Host.Core.run, h]

/-- `core.run`, with states of type `State` where `core.run` has them of type `core.State`. -/
def State.run (n : Nat) (s : State) : Host.Outcome State Fault Refusal := core.run n s

theorem State.run_fault {s : State} {f : Fault} (h : step s = .fault f) (n : Nat) : s.run (n + 1) = .fault f :=
  coreRun_fault (M := core) h n

theorem State.run_next {s t : State} (h : step s = .next t) (n : Nat) : s.run (n + 1) = t.run n :=
  coreRun_next (M := core) h n

/-- A host in an access of `size` bytes that has moved some of them, or past it, with its value, once all are moved. -/
def HostProc.moving (p : HostProc) (name size : Nat) (moved : List Byte) (v : Option Nat) : HostProc :=
  if moved.length < size then { p with moved := moved } else p.past name v

section
variable {p : HostProc} {name size : Nat} {moved : List Byte}

theorem HostProc.moving_of_lt (h : moved.length < size) (v : Option Nat) :
    p.moving name size moved v = { p with moved := moved } := if_pos h

theorem HostProc.moving_all (h : moved.length = size) (v : Option Nat) : p.moving name size moved v = p.past name v :=
  if_neg (by omega)

/-- One more byte of the access. -/
theorem HostProc.pastByte_moving (h : moved.length < size) (v w : Option Nat) :
    (p.moving name size moved w).pastByte name size v = p.moving name size (moved ++ [BitVec.ofNat 8 (v.getD 0)])
      (v.map fun x => valueOfBytes moved + 256 ^ moved.length * x) := by
  rw [HostProc.moving_of_lt h, HostProc.moving, List.length_append, List.length_singleton]
  rfl

variable {s : State} {h : Nat} {hosts : List HostProc} {turns : List Turn} {addr value : Nat} {v : Option Nat}

theorem HostAccess.piece_busWrite {pl : Platform} {k : Nat} (hreg : inRegBlock pl addr = false) (hk : k < size) :
    (HostAccess.busWrite addr size value).piece pl k
      = some (.busWrite (addr + k) 1 (byteOfValue value k).toNat) := by
  simp [HostAccess.piece, hreg, show size ≠ 0 by omega]

theorem HostAccess.piece_busRead {pl : Platform} {k : Nat} (hreg : inRegBlock pl addr = false) (hk : k < size) :
    (HostAccess.busRead addr size).piece pl k = some (.busRead (addr + k) 1) := by
  simp [HostAccess.piece, hreg, show size ≠ 0 by omega]

variable (hf : s.faults = []) (hlt : h < hosts.length) (hmoved : moved.length < size)
include hf hlt hmoved

/-- A turn of a host in a wide access is the next piece of it. -/
theorem step_piece {a b : HostAccess} (hp : p.prog[p.pc]? = some (.access name a)) (hsize : a.size = size)
    (hb : a.piece s.params.platform moved.length = some b) :
    step (s.withAgents (hosts.set h (p.moving name size moved v)) (.host h :: turns)) =
      outcomeOf ((hostAccess (s.withAgents (hosts.set h (p.moving name size moved v)) turns) b).map fun r =>
        r.1.setHost h (p.moving name size (moved ++ [BitVec.ofNat 8 (r.2.getD 0)])
          (r.2.map fun x => valueOfBytes moved + 256 ^ moved.length * x))) := by
  have hq := p.moving_of_lt (name := name) hmoved v
  have hturn : (s.withAgents (hosts.set h (p.moving name size moved v)) (.host h :: turns)).nextTurn = .host h := rfl
  have hprog : (p.moving name size moved v).prog[(p.moving name size moved v).pc]? = some (.access name a) := by
    rw [hq]; exact hp
  have hpiece : a.piece s.params.platform (p.moving name size moved v).moved.length = some b := by rw [hq]; exact hb
  simp only [step, State.withAgents_faults, hf, hturn, State.withAgents_popTurn, hostStep, State.withAgents_hosts,
    List.getElem?_set_self hlt, hprog, State.withAgents_params, hpiece, hsize, HostProc.pastByte_moving hmoved]
  cases hostAccess (s.withAgents (hosts.set h (p.moving name size moved v)) turns) b <;> rfl

variable (hreg : inRegBlock s.params.platform addr = false)
include hreg

/-- One byte of a wide write. -/
theorem step_writeByte (hp : p.prog[p.pc]? = some (.access name (.busWrite addr size value))) :
    step (s.withAgents (hosts.set h (p.moving name size moved none)) (.host h :: turns)) =
      outcomeOf ((busByteWrite s (addr + moved.length) (byteOfValue value moved.length)).map fun t =>
        t.withAgents (hosts.set h (p.moving name size (moved ++ [0]) none)) turns) := by
  rw [step_piece hf hlt hmoved hp rfl (HostAccess.piece_busWrite hreg hmoved)]
  simp only [hostAccess, hostBusWrite_one, busByteWrite_withAgents]
  cases busByteWrite s (addr + moved.length) (byteOfValue value moved.length) with
  | error f => rfl
  | ok t => simp [Except.map]

/-- One byte of a wide read, which leaves the unit as it is. -/
theorem step_readByte (hp : p.prog[p.pc]? = some (.access name (.busRead addr size))) :
    step (s.withAgents (hosts.set h (p.moving name size moved (some (valueOfBytes moved)))) (.host h :: turns)) =
      outcomeOf ((busByteRead s (addr + moved.length)).map fun b => s.withAgents
        (hosts.set h (p.moving name size (moved ++ [b]) (some (valueOfBytes (moved ++ [b]))))) turns) := by
  rw [step_piece hf hlt hmoved hp rfl (HostAccess.piece_busRead hreg hmoved)]
  simp only [hostAccess, hostBusRead_one, busByteRead_withAgents]
  cases busByteRead s (addr + moved.length) with
  | error f => rfl
  | ok b => simp [Except.map, valueOfBytes_append]

end

theorem busWriteBytes_sameRest {s u : State} {addr value : Nat} {l : List Nat}
    (h : busWriteBytes s addr value l = .ok u) :
    SameRest s u := by
  induction l generalizing s with
  | nil => cases h; exact ⟨rfl, rfl, rfl, rfl, rfl⟩
  | cons t l ih =>
    rw [busWriteBytes] at h
    split at h
    · cases h
    · exact (busByteWrite_sameRest ‹_›).trans (ih h)

section
variable {s : State} {p : HostProc} {h name addr size value n : Nat} {hosts : List HostProc} {rest : List Turn}
  {moved : List Byte} (hf : s.faults = []) (hlt : h < hosts.length) (hreg : inRegBlock s.params.platform addr = false)
  (hn : moved.length + n = size)
include hf hlt hreg hn

/-- The turns of a host that are left to a wide write write the bytes that are left. -/
theorem run_writeBytes (hp : p.prog[p.pc]? = some (.access name (.busWrite addr size value))) :
    State.run n (s.withAgents (hosts.set h (p.moving name size moved none)) (List.replicate n (.host h) ++ rest)) =
      outcomeOf ((busWriteBytes s addr value (List.range' moved.length n)).map fun t =>
        t.withAgents (hosts.set h (p.past name none)) rest) := by
  induction n generalizing s moved with
  | zero => rw [HostProc.moving_all hn]; rfl
  | succ n ih =>
    have hlen : moved.length < size := by omega
    have hstep := step_writeByte (turns := List.replicate n (.host h) ++ rest) hf hlt hlen hreg hp
    rw [List.replicate_succ, List.cons_append, List.range'_succ, busWriteBytes]
    cases hw : busByteWrite s (addr + moved.length) (byteOfValue value moved.length) with
    | error f => exact State.run_fault (by rw [hstep, hw]; rfl) n
    | ok t =>
      obtain ⟨hparams, -, hfaults, -⟩ := busByteWrite_sameRest hw
      rw [State.run_next (by rw [hstep, hw]; rfl) n,
        ih (moved := moved ++ [0]) (by rw [hfaults, hf]) (by rw [hparams, hreg]) (by simp; omega)]
      simp only [List.length_append, List.length_singleton]

/-- The turns of a host that are left to a wide read read the bytes that are left. -/
theorem run_readBytes (hp : p.prog[p.pc]? = some (.access name (.busRead addr size))) :
    State.run n (s.withAgents (hosts.set h (p.moving name size moved (some (valueOfBytes moved))))
        (List.replicate n (.host h) ++ rest)) =
      outcomeOf ((collect (fun t => busByteRead s (addr + t)) (List.range' moved.length n)).map fun bs =>
        s.withAgents (hosts.set h (p.past name (some (valueOfBytes (moved ++ bs))))) rest) := by
  induction n generalizing moved with
  | zero => rw [HostProc.moving_all hn, List.range'_zero, collect, Except.map, List.append_nil]; rfl
  | succ n ih =>
    have hlen : moved.length < size := by omega
    have hstep := step_readByte (turns := List.replicate n (.host h) ++ rest) hf hlt hlen hreg hp
    rw [List.replicate_succ, List.cons_append, List.range'_succ, collect]
    cases hb : busByteRead s (addr + moved.length) with
    | error f => exact State.run_fault (by rw [hstep, hb]; rfl) n
    | ok b =>
      rw [State.run_next (by rw [hstep, hb]; rfl) n, ih (moved := moved ++ [b]) (by simp; omega)]
      simp only [List.length_append, List.length_singleton]
      cases collect (fun t => busByteRead s (addr + t)) (List.range' (moved.length + 1) n) <;> simp [Except.map]

end

/-- A host about to make its next access, with the turns given, is a host that has moved none of its bytes. -/
theorem State.eq_withAgents_moving {s : State} {h name size : Nat} {p : HostProc} {turns : List Turn} {v : Option Nat}
    (hturns : s.turns = turns) (hhost : s.hosts[h]? = some p) (hmoved : p.moved = []) (hsize : 1 ≤ size) :
    s = s.withAgents (s.hosts.set h (p.moving name size [] v)) turns := by
  obtain ⟨hlt, hp⟩ := List.getElem?_eq_some_iff.1 hhost
  have hmoving : p.moving name size [] v = p := by
    rw [HostProc.moving_of_lt (by simp; omega), ← hmoved]
  rw [hmoving, ← hp, List.set_getElem_self, ← hturns]
  rfl

/-- Settles O28: each turn moves one byte, and a run of them moves the bytes in the order of the whole access. -/
theorem wideAccessIsItsBytes : Obligations.WideAccessIsItsBytes := by
  intro s h name addr size value p rest hf hturns hhost hmoved hsize hreg
  have hlt : h < s.hosts.length := (List.getElem?_eq_some_iff.1 hhost).1
  have hn : ([] : List Byte).length + size = size := by simp
  refine ⟨fun hp => ?_, fun hp => ?_⟩
  · have hrun := run_writeBytes (rest := rest) hf hlt hreg hn hp
    rw [← State.eq_withAgents_moving hturns hhost hmoved hsize, List.length_nil, ← List.range_eq_range',
      ← hostBusWrite_bytes hsize hreg] at hrun
    refine hrun.trans ?_
    cases hw : hostBusWrite s addr size value with
    | error f => rfl
    | ok u =>
      rw [hostBusWrite_bytes hsize hreg] at hw
      obtain ⟨-, -, -, hhosts, -⟩ := busWriteBytes_sameRest hw
      simp only [Except.map, outcomeOf, State.withAgents, State.setHost, hhosts]; rfl
  · have hrun := run_readBytes (rest := rest) hf hlt hreg hn hp
    rw [← State.eq_withAgents_moving hturns hhost hmoved hsize, List.length_nil, ← List.range_eq_range'] at hrun
    refine hrun.trans ?_
    rw [hostBusRead_bytes hsize hreg]
    cases collect (fun t => busByteRead s (addr + t)) (List.range size) <;> rfl

end Sys2Proof.Machine

/-! # Encoding family: command words, their decoder and assembler, the table of written operands, the wait loop -/

namespace Sys2Proof

/-! ## Fields of a command word (30_encoding.md R91) -/

section
variable (opc : BitVec 8) (loop : BitVec 3) (method useTemp : Bool)

/-- A word built from fields, bit by bit. -/
theorem getLsbD_cmdWord (i : Nat) : (cmdWord opc loop method useTemp).getLsbD i =
    if i < 8 then opc.getLsbD i else if i < 11 then loop.getLsbD (i - 8)
    else if i = 11 then method else if i = 12 then useTemp else false := by
  simp only [cmdWord, fieldAt, BitVec.getLsbD_or, BitVec.getLsbD_shiftLeft, BitVec.getLsbD_setWidth,
    BitVec.getLsbD_ofBool]
  have hopc : 8 ≤ i → opc.getLsbD i = false := BitVec.getLsbD_of_ge _ _
  have hloop : 3 ≤ i - 8 → loop.getLsbD (i - 8) = false := BitVec.getLsbD_of_ge _ _
  grind

@[simp] theorem opcOf_cmdWord : opcOf (cmdWord opc loop method useTemp) = opc :=
  (Laws.EncodedFields.of_cmdWord opc loop method useTemp).1

@[simp] theorem rsvOf_cmdWord : rsvOf (cmdWord opc loop method useTemp) = 0#19 :=
  (Laws.EncodedFields.of_cmdWord opc loop method useTemp).2

@[simp] theorem loopOf_cmdWord : loopOf (cmdWord opc loop method useTemp) = loop := by
  apply BitVec.eq_of_getLsbD_eq
  intro i hi
  simp [loopOf, getLsbD_cmdWord, hi]
  omega

@[simp] theorem methodBit_cmdWord : methodBit (cmdWord opc loop method useTemp) = method := by
  simp only [methodBit, getLsbD_cmdWord, reduceIte, Nat.reduceLT, Nat.lt_irrefl]

@[simp] theorem useTempOf_cmdWord : useTempOf (cmdWord opc loop method useTemp) = useTemp := by
  simp only [useTempOf, getLsbD_cmdWord, reduceIte, Nat.reduceLT, Nat.reduceEqDiff]

end

/-- A word with RSV = 0 is the word of its fields. -/
theorem cmdWord_fields {w : Word} (h : rsvOf w = 0#19) :
    cmdWord (opcOf w) (loopOf w) (methodBit w) (useTempOf w) = w := by
  apply BitVec.eq_of_getLsbD_eq
  intro i hi
  have hrsv : (rsvOf w).getLsbD (i - 13) = false := by simp [h]
  simp only [rsvOf, BitVec.getLsbD_extractLsb'] at hrsv
  simp only [getLsbD_cmdWord, opcOf, loopOf, methodBit, useTempOf, BitVec.getLsbD_extractLsb']
  grind

theorem Method.ofBit_bit (m : Method) : Method.ofBit m.bit = m := by cases m <;> rfl
theorem Method.bit_ofBit (b : Bool) : (Method.ofBit b).bit = b := by cases b <;> rfl

/-! ## Fields of a command (R92, R93) -/

/-- The LOOP field of a command's word. -/
def Instr.loopField : Instr → BitVec 3
  | .mvCode loop _ => loop
  | .mvCheck loop _ _ => loop
  | .rsConfig loop _ => loop
  | _ => 0

/-- The METHOD bit of a command's word. -/
def Instr.methodField : Instr → Bool
  | .gfMul method => method.bit
  | .mvCode _ method => method.bit
  | .mvCheck _ method _ => method.bit
  | .rsConfig _ method => method.bit
  | _ => false

/-- The USE_TEMP bit of a command's word. -/
def Instr.useTempField : Instr → Bool
  | .mvCheck _ _ useTemp => useTemp
  | .rsCheck useTemp => useTemp
  | _ => false

theorem encode_eq_cmdWord (i : Instr) : encode i = cmdWord i.opcode i.loopField i.methodField i.useTempField := by
  cases i <;> rfl

end Sys2Proof

namespace Sys2Proof.Machine

/-! ## Decoding (R92, R94) -/

section
variable {w : Word} {i : Instr}

theorem withoutLoop_iff {k : Except DecodeError Instr} :
    withoutLoop w k = .ok i ↔ loopOf w = 0 ∧ k = .ok i := by
  unfold withoutLoop
  split <;> simp [*]

theorem withoutMethod_iff {k : Except DecodeError Instr} :
    withoutMethod w k = .ok i ↔ methodBit w = false ∧ k = .ok i := by
  unfold withoutMethod
  split <;> simp [*]

theorem withoutTemp_iff {k : Except DecodeError Instr} :
    withoutTemp w k = .ok i ↔ useTempOf w = false ∧ k = .ok i := by
  unfold withoutTemp
  split <;> simp [*]

theorem bare_iff {j : Instr} :
    bare w j = .ok i ↔ loopOf w = 0 ∧ methodBit w = false ∧ useTempOf w = false ∧ j = i := by
  simp [bare, withoutLoop_iff, withoutMethod_iff, withoutTemp_iff]

theorem opcOf_eq {n : Nat} (h : (opcOf w).toNat = n) : opcOf w = BitVec.ofNat 8 n := by simp [← h]

end

/-- Decoding the word of a well-formed command gives the command. -/
theorem decode_encode {i : Instr} (h : i.wellFormed = true) : decode (encode i) = .ok i := by
  rw [encode_eq_cmdWord]
  cases i with
  | mvCode loop _ | mvCheck loop _ _ | rsConfig loop _ =>
    have hloop : loopLegal loop = true := h
    simp [decode, withLoop, withoutTemp, hloop, Method.ofBit_bit, Instr.opcode, Instr.loopField, Instr.methodField,
      Instr.useTempField]
  | _ =>
    simp [decode, bare, withoutLoop, withoutMethod, withoutTemp, Method.ofBit_bit, Instr.opcode, Instr.loopField,
      Instr.methodField, Instr.useTempField]

/-- A word that decodes has RSV = 0 and, field by field, the fields of its command. -/
theorem fields_of_decode {w : Word} {i : Instr} (h : decode w = .ok i) :
    rsvOf w = 0#19 ∧ opcOf w = i.opcode ∧ loopOf w = i.loopField ∧ methodBit w = i.methodField
      ∧ useTempOf w = i.useTempField := by
  unfold decode at h
  split at h
  · refine ⟨‹_›, ?_⟩
    split at h
    -- In the order of the opcodes: GF_MUL; MV_CODE and RS_CONFIG; MV_CHECK; RS_CHECK; a reserved opcode; the rest.
    case h_4 =>
      obtain ⟨hloop, h⟩ := withoutLoop_iff.1 h
      obtain ⟨htemp, h⟩ := withoutTemp_iff.1 h
      cases h
      exact ⟨opcOf_eq ‹_›, hloop, (Method.bit_ofBit _).symm, htemp⟩
    case h_11 | h_13 =>
      obtain ⟨htemp, h⟩ := withoutTemp_iff.1 (withLoop_eq_ok h).2
      cases h
      exact ⟨opcOf_eq ‹_›, rfl, (Method.bit_ofBit _).symm, htemp⟩
    case h_12 =>
      cases (withLoop_eq_ok h).2
      exact ⟨opcOf_eq ‹_›, rfl, (Method.bit_ofBit _).symm, rfl⟩
    case h_15 =>
      obtain ⟨hloop, h⟩ := withoutLoop_iff.1 h
      obtain ⟨hmethod, h⟩ := withoutMethod_iff.1 h
      cases h
      exact ⟨opcOf_eq ‹_›, hloop, hmethod, rfl⟩
    case h_17 => cases h
    all_goals
      obtain ⟨hloop, hmethod, htemp, rfl⟩ := bare_iff.1 h
      exact ⟨opcOf_eq ‹_›, hloop, hmethod, htemp⟩
  · cases h

/-- A word that decodes is the word of its command. -/
theorem encode_of_decode {w : Word} {i : Instr} (h : decode w = .ok i) : encode i = w := by
  obtain ⟨hrsv, hopc, hloop, hmethod, htemp⟩ := fields_of_decode h
  rw [encode_eq_cmdWord, ← hopc, ← hloop, ← hmethod, ← htemp, cmdWord_fields hrsv]

/-- Settles O2: the word's fields are the command's, and the decoder reads them back. -/
theorem decodeOfEncode : Obligations.DecodeOfEncode := fun _ h => decode_encode h

/-- Settles O3: the word and the command agree in every field, and a word is its fields. -/
theorem encodeOfDecode : Obligations.EncodeOfDecode := fun _ _ h => ⟨encode_of_decode h, decode_wellFormed h⟩

/-- Settles O1: the decoder is run on each word. -/
theorem specWordsDecode : Obligations.SpecWordsDecode := by
  unfold Obligations.SpecWordsDecode
  decide

/-! ## Legal words (R94)

Whether the decoder accepts, as a Boolean: each of its checks is the clause of R94 for one field. -/

@[simp] theorem isOk_withoutLoop (w : Word) (k : Except DecodeError Instr) :
    (withoutLoop w k).isOk = (loopOf w == 0#3 && k.isOk) := by
  unfold withoutLoop
  split <;> simp_all [Except.isOk, Except.toBool]

@[simp] theorem isOk_withoutMethod (w : Word) (k : Except DecodeError Instr) :
    (withoutMethod w k).isOk = (!methodBit w && k.isOk) := by
  unfold withoutMethod
  split <;> simp_all [Except.isOk, Except.toBool]

@[simp] theorem isOk_withoutTemp (w : Word) (k : Except DecodeError Instr) :
    (withoutTemp w k).isOk = (!useTempOf w && k.isOk) := by
  unfold withoutTemp
  split <;> simp_all [Except.isOk, Except.toBool]

@[simp] theorem isOk_withLoop (w : Word) (k : BitVec 3 → Except DecodeError Instr) :
    (withLoop w k).isOk = (decide ((loopOf w).toNat ≤ 5) && (k (loopOf w)).isOk) := by
  unfold withLoop loopLegal
  split <;> simp_all [Except.isOk, Except.toBool]

@[simp] theorem isOk_ok (i : Instr) : (Except.ok i : Except DecodeError Instr).isOk = true := rfl
@[simp] theorem isOk_error (e : DecodeError) : (Except.error e : Except DecodeError Instr).isOk = false := rfl

/-- Branch by branch, the decoder's checks are the clauses of the opcode's row of R92. -/
theorem isOk_decode (w : Word) : (decode w).isOk = legalWord w := by
  unfold decode
  split
  · split
    case h_17 => simp_all [legalWord, opRows, @eq_comm Nat _ (opcOf w).toNat]
    all_goals simp [legalWord, opRows, bare, Bool.and_assoc, *]
  · simp [legalWord, *]

/-- Settles O4: the decoder's checks are the clauses of R94. -/
theorem legalWordsDecode : Obligations.LegalWordsDecode := by
  intro w
  rw [← isOk_decode]
  cases decode w <;> simp

/-- An illegal word is rejected by name. -/
theorem decode_of_illegal {w : Word} (h : legalWord w = false) : ∃ e, decode w = .error e := by
  rw [← isOk_decode] at h
  cases hd : decode w with
  | error e => exact ⟨e, rfl⟩
  | ok i => simp [hd] at h

/-! ## The assembler (R99) -/

theorem mem_loopValues : ∀ loop, loopLegal loop = true → loop ∈ loopValues := by decide

theorem mem_methodValues (method : Method) : method ∈ methodValues := by cases method <;> decide

theorem mem_hintPairs {loop : BitVec 3} (h : loopLegal loop = true) (method : Method) : (loop, method) ∈ hintPairs :=
  List.mem_flatMap.2 ⟨loop, mem_loopValues loop h, List.mem_map_of_mem (mem_methodValues method)⟩

/-- The assembler's list holds every well-formed command. -/
theorem mem_allCommands {i : Instr} (h : i.wellFormed = true) : i ∈ allCommands := by
  cases i with
  | mvCode loop method =>
    have hpair := mem_hintPairs h method
    simp [allCommands, hpair]
  | mvCheck loop method useTemp =>
    have hpair := mem_hintPairs h method
    cases useTemp <;> simp [allCommands, hpair]
  | rsConfig loop method =>
    have hpair := mem_hintPairs h method
    simp [allCommands, hpair]
  | gfMul method => cases method <;> simp [allCommands]
  | rsCheck useTemp => cases useTemp <;> simp [allCommands]
  | _ => simp [allCommands]

/-- No text is written twice among the spellings of all commands (30_encoding.md R99). -/
theorem spellings_nodup : (allCommands.flatMap spellings).Nodup := by decide +kernel

/-- A text spells at most one command. -/
theorem spellings_inj {i j : Instr} (hi : i ∈ allCommands) (hj : j ∈ allCommands) {text : String}
    (hti : text ∈ spellings i) (htj : text ∈ spellings j) : i = j := by
  by_contra hne
  obtain ⟨-, hdisj⟩ := List.nodup_flatMap.1 spellings_nodup
  have hsymm : Std.Symm (Function.onFun List.Disjoint spellings) := ⟨fun _ _ h => h.symm⟩
  exact hdisj.forall hi hj hne hti htj

/-- The first command a text spells is the only one, so the assembler's search finds it. -/
theorem assemble_spelling {i : Instr} (hi : i ∈ allCommands) {text : String} (ht : text ∈ spellings i) :
    assemble text = some (encode i) := by
  have hfind : allCommands.find? (fun j => (spellings j).contains text) = some i := by
    cases hf : allCommands.find? (fun j => (spellings j).contains text) with
    | none => exact absurd ht (by simpa using List.find?_eq_none.1 hf i hi)
    | some j =>
      have hj : text ∈ spellings j := by simpa using List.find?_some hf
      rw [spellings_inj (List.mem_of_find?_eq_some hf) hi hj ht]
  rw [assemble, hfind, Option.map_some]

/-- Settles O5: every well-formed command is in the assembler's list, and its texts spell no other command. -/
theorem spellingsAssemble : Obligations.SpellingsAssemble := fun _ h _ ht => assemble_spelling (mem_allCommands h) ht

/-! ## Frames of the shared operations -/

section
variable {regs regs' : List Nat} {mems mems' : List Space} {s t u : State}

theorem Frame.mono (h : Frame regs mems s t) (hr : regs ⊆ regs') (hm : mems ⊆ mems') : Frame regs' mems' s t := by
  obtain ⟨hregs, hmems, hrest⟩ := h
  exact ⟨fun j hj => hregs j fun hj' => hj (hr hj'), fun space hsp => hmems space fun hsp' => hsp (hm hsp'), hrest⟩

theorem Frame.byteAt_eq (h : Frame regs mems s t) {space : Space} (hsp : space ∉ mems) (a : Addr) :
    t.byteAt space a = s.byteAt space a := by
  obtain ⟨-, hmems, -⟩ := h
  exact hmems space hsp a

theorem Frame.refl (s : State) : Frame regs mems s s :=
  ⟨fun _ _ => rfl, fun _ _ _ => rfl, rfl, rfl, rfl, rfl, rfl⟩

theorem Frame.trans (h : Frame regs mems s t) (h' : Frame regs mems t u) : Frame regs mems s u := by
  obtain ⟨hregs, hmems, hrest⟩ := h
  obtain ⟨hregs', hmems', hrest'⟩ := h'
  exact ⟨fun j hj => (hregs' j hj).trans (hregs j hj),
    fun space hsp a => (hmems' space hsp a).trans (hmems space hsp a), hrest.trans hrest'⟩

/-- A change of STATUS reads back at index 2 only. -/
theorem Regs.word_withStatus (r : Regs) (st : Status) (lmax : Nat) {j : Nat} (h : j ≠ 2) :
    { r with status := st }.word lmax j = r.word lmax j := by
  unfold Regs.word
  split
  case h_3 => exact absurd rfl h
  all_goals rfl

theorem Regs.word_withResult (r : Regs) (v : Byte) (lmax : Nat) {j : Nat} (h : j ≠ 4) :
    { r with result := v }.word lmax j = r.word lmax j := by
  unfold Regs.word
  split
  case h_5 => exact absurd rfl h
  all_goals rfl

theorem Regs.word_withMdimc (r : Regs) (d : Dims) (lmax : Nat) {j : Nat} (h : j ≠ 21) :
    { r with mdimc := d }.word lmax j = r.word lmax j := by
  unfold Regs.word
  split
  case h_22 => exact absurd rfl h
  all_goals rfl

theorem Regs.word_withConfig (r : Regs) (k m n : BitVec 9) (c : Strategy) (st : Status) (lmax : Nat) {j : Nat}
    (h : j ∉ [2, 12, 13, 14, 15]) :
    { r with dsc := k, psc := m, tsc := n, cfgstrat := c, status := st }.word lmax j = r.word lmax j := by
  unfold Regs.word
  split
  case h_3 | h_13 | h_14 | h_15 | h_16 => simp at h
  all_goals rfl

/-- A change of registers that keeps what GEN's bytes depend on. -/
theorem frame_withRegs {r : Regs} (hword : ∀ j, j ∉ regs → r.word s.lmax j = s.regs.word s.lmax j)
    (hv : r.status.cfgValid = s.regs.status.cfgValid) (hn : r.tsc = s.regs.tsc) (hk : r.dsc = s.regs.dsc) :
    Frame regs [] s { s with regs := r } :=
  ⟨hword, fun _ _ => State.byteAt_congr rfl hv hn hk, sameRest_withRegs⟩

theorem frame_withStatus (s : State) {st : Status} (hv : st.cfgValid = s.regs.status.cfgValid) :
    Frame [2] [] s { s with regs := { s.regs with status := st } } :=
  frame_withRegs (fun _ hj => Regs.word_withStatus _ _ _ (by simpa using hj)) hv rfl rfl

theorem frame_completeOk (s : State) : Frame [2] [] s s.completeOk := frame_withStatus s rfl

theorem frame_raiseError (s : State) (e : ErrCode) : Frame [2] [] s (s.raiseError e) := frame_withStatus s rfl

theorem frame_setResult (s : State) (v : Byte) : Frame [4] [] s (s.setResult v) :=
  frame_withRegs (fun _ hj => Regs.word_withResult _ _ _ (by simpa using hj)) rfl rfl rfl

theorem frame_withMdimc (s : State) (d : Dims) : Frame [21] [] s { s with regs := { s.regs with mdimc := d } } :=
  frame_withRegs (fun _ hj => Regs.word_withMdimc _ _ _ (by simpa using hj)) rfl rfl rfl

theorem frame_writeAll (s : State) (space : Space) (l : List (Addr × Byte)) :
    Frame [] [space] s (s.writeAll space l) := by
  refine ⟨fun j _ => by simp [State.regWord, State.lmax], fun space' hsp => ?_, ?_⟩
  · exact State.byteAt_congr (State.writeAll_get_other l (by simpa using hsp)) (by simp) (by simp) (by simp)
  · simp [SameRest]

theorem frame_spoilTemp (s : State) (used : Bool) (off cnt : Nat) :
    Frame [] (if used then [.temp] else []) s (s.spoilTemp used off cnt) := by
  cases used with
  | false => exact .refl s
  | true =>
    refine ⟨fun j _ => by simp [State.regWord, State.lmax], fun space hsp => ?_, by simp [SameRest]⟩
    exact State.byteAt_congr (State.clearAll_get_other _ (by simpa using hsp)) (by simp) (by simp) (by simp)

/-- A check's verdict in RESULT, and TEMP spoiled only with USE_TEMP = 1. -/
theorem frame_verdict (s : State) (v : Byte) {used useTemp : Bool} (h : used = true → useTemp = true)
    (off cnt : Nat) :
    Frame [2, 4] (if useTemp then [.temp] else []) s ((s.setResult v).spoilTemp used off cnt) := by
  refine ((frame_setResult s v).mono (by simp) (by simp)).trans ((frame_spoilTemp _ used off cnt).mono (by simp) ?_)
  cases used
  · simp
  · simp [h rfl]

theorem frame_storeResult (s : State) (C : Mat) : Frame [21] [.matC] s (s.storeResult C) := by
  have hbytes := frame_writeAll s .matC (blockBytes (List.range C.rows) 0 C)
  exact (hbytes.mono (by simp) (by simp)).trans ((frame_withMdimc _ _).mono (by simp) (by simp))

theorem State.setGen_get_other (s : State) (G : Mat) {space : Space} (h : space ≠ .gen) :
    (s.setGen G).mems.get space = s.mems.get space :=
  (State.writeAll_get_other _ h).trans (Mems.get_put_other _ _ h)

theorem frame_configure (s : State) (k m : Nat) (loop : BitVec 3) (method : Method) (G : Mat) :
    Frame [2, 12, 13, 14, 15] [.gen] s (s.configure k m loop method G) := by
  refine ⟨fun j hj => ?_, fun space hsp a => ?_, ?_⟩
  · simp only [State.regWord, State.lmax, State.configure, State.setGen_regs, State.setGen_params]
    exact Regs.word_withConfig _ _ _ _ _ _ _ hj
  · have hg : space ≠ .gen := by simpa using hsp
    rw [State.byteAt_eq_read hg, State.byteAt_eq_read hg]
    exact congrArg (Memory.read · _) (s.setGen_get_other G hg)
  · simp [SameRest, State.configure, State.setGen, State.writeBlock]

end

/-! ## The table row of each command (30_encoding.md R98) -/

section
variable {i : Instr} {s t u : State}

theorem State.code_frame {rows : Except Stop Mat} {ins outs : List Nat} {off cnt : Nat}
    (h : s.code rows ins outs off cnt = .ok t) : Frame [2] [.shard] s t := by
  obtain ⟨l, rfl, -⟩ := State.code_writes h
  exact (frame_writeAll s .shard l).mono (by simp) (by simp)

theorem matMulRule_frame (h : matMulRule s = .ok u) : Frame [2, 21] [.matC] s u := by
  obtain ⟨_, _, h⟩ := bind_eq_ok.1 h
  obtain ⟨_, _, h⟩ := bind_eq_ok.1 h
  obtain ⟨A, _, h⟩ := bind_eq_ok.1 h
  obtain ⟨B, _, h⟩ := bind_eq_ok.1 h
  obtain ⟨C, _, h⟩ := bind_eq_ok.1 h
  cases h
  exact (frame_storeResult s C).mono (by simp) (by simp)

theorem matInvRule_frame (h : matInvRule s = .ok u) : Frame [2, 21] [.matC] s u := by
  obtain ⟨_, _, h⟩ := bind_eq_ok.1 h
  obtain ⟨_, _, h⟩ := bind_eq_ok.1 h
  obtain ⟨A, _, h⟩ := bind_eq_ok.1 h
  obtain ⟨R, _, h⟩ := bind_eq_ok.1 h
  cases h
  exact (frame_storeResult s R).mono (by simp) (by simp)

theorem mvCodeRule_frame (h : mvCodeRule s = .ok u) : Frame [2] [.shard] s u := by
  obtain ⟨_, _, h⟩ := bind_eq_ok.1 h
  obtain ⟨_, _, h⟩ := bind_eq_ok.1 h
  obtain ⟨ins, _, h⟩ := bind_eq_ok.1 h
  obtain ⟨outs, _, h⟩ := bind_eq_ok.1 h
  obtain ⟨_, _, h⟩ := bind_eq_ok.1 h
  exact State.code_frame h

theorem mvCheckRule_frame {useTemp : Bool} (h : mvCheckRule useTemp s = .ok u) :
    Frame [2, 4] (if useTemp then [.temp] else []) s u := by
  obtain ⟨_, _, h⟩ := bind_eq_ok.1 h
  obtain ⟨_, _, h⟩ := bind_eq_ok.1 h
  obtain ⟨_, _, h⟩ := bind_eq_ok.1 h
  obtain ⟨ins, _, h⟩ := bind_eq_ok.1 h
  obtain ⟨outs, _, h⟩ := bind_eq_ok.1 h
  obtain ⟨same, _, h⟩ := bind_eq_ok.1 h
  cases h
  exact frame_verdict s _ (fun hused => (Bool.and_eq_true_iff.1 hused).1) _ _

theorem rsConfigRule_frame {loop : BitVec 3} {method : Method} (h : rsConfigRule loop method s = .ok u) :
    Frame [2, 12, 13, 14, 15] [.gen] s u := by
  obtain ⟨_, _, h⟩ := bind_eq_ok.1 h
  obtain ⟨_, _, h⟩ := bind_eq_ok.1 h
  obtain ⟨G, _, h⟩ := bind_eq_ok.1 h
  cases h
  exact frame_configure s _ _ loop method G

theorem rsEncodeRule_eq_code (h : rsEncodeRule s = .ok u) :
    s.checkRange = .ok () ∧ s.code (s.genRows s.paritySlots) s.dataSlots s.paritySlots s.regs.off.toNat
      s.regs.cnt.toNat = .ok u := by
  obtain ⟨_, _, h⟩ := bind_eq_ok.1 h
  obtain ⟨_, hrange, h⟩ := bind_eq_ok.1 h
  exact ⟨hrange, h⟩

theorem rsCheckRule_frame {useTemp : Bool} (h : rsCheckRule useTemp s = .ok u) :
    Frame [2, 4] (if useTemp then [.temp] else []) s u := by
  obtain ⟨_, _, h⟩ := bind_eq_ok.1 h
  obtain ⟨_, _, h⟩ := bind_eq_ok.1 h
  obtain ⟨_, _, h⟩ := bind_eq_ok.1 h
  obtain ⟨same, _, h⟩ := bind_eq_ok.1 h
  cases h
  exact frame_verdict s _ id _ _

/-- What RS_DECODE does when it ends well: nothing, or one kernel over the missing data slots and one over the missing
parity slots (44_reed_solomon.md R242). It has found k present slots among n. -/
theorem rsDecodeRule_eq_codes (h : rsDecodeRule s = .ok u) :
    s.checkRange = .ok () ∧ s.k ≤ s.n ∧ (u = s ∨ ∃ t rows rows',
      s.code rows s.chosen (s.regs.missingList 0 s.k) s.regs.off.toNat s.regs.cnt.toNat = .ok t
      ∧ t.code rows' t.dataSlots (s.regs.missingList s.k s.n) s.regs.off.toNat s.regs.cnt.toNat = .ok u) := by
  obtain ⟨_, _, h⟩ := bind_eq_ok.1 h
  obtain ⟨_, hrange, h⟩ := bind_eq_ok.1 h
  obtain ⟨_, henough, h⟩ := bind_eq_ok.1 h
  have hk : s.k ≤ (s.regs.presentList s.n).length := by simpa using require_eq_ok.1 henough
  have hn : (s.regs.presentList s.n).length ≤ s.n := by
    simpa [Regs.presentList] using List.length_filter_le s.regs.isPresent (List.range s.n)
  refine ⟨hrange, hk.trans hn, ?_⟩
  split at h
  · cases h
    exact .inl rfl
  · obtain ⟨S, _, h⟩ := bind_eq_ok.1 h
    obtain ⟨D, _, h⟩ := bind_eq_ok.1 h
    obtain ⟨t, ht, h⟩ := bind_eq_ok.1 h
    exact .inr ⟨t, _, _, ht, h⟩

theorem rsDecodeRule_frame (h : rsDecodeRule s = .ok u) : Frame [2] [.shard] s u := by
  obtain ⟨-, -, rfl | ⟨t, rows, rows', ht, hu⟩⟩ := rsDecodeRule_eq_codes h
  · exact .refl u
  · exact (State.code_frame ht).trans (State.code_frame hu)

theorem frame_scalar (s : State) (v : Byte) : Frame [2, 4] [] s (s.setResult v) :=
  (frame_setResult s v).mono (by simp) (by simp)

/-- A command rule that ends well has written the registers and memories of its row, and STATUS at most besides. -/
theorem ruleOf_frame (h : ruleOf i s = .ok u) : Frame (2 :: writtenRegs i) (writtenMems i) s u := by
  cases i with
  | nop => cases h; exact .refl s
  | gfAdd => cases h; exact frame_scalar s _
  | gfSub => cases h; exact frame_scalar s _
  | gfMul method => cases h; exact frame_scalar s _
  | gfDiv =>
    simp only [ruleOf] at h
    split at h <;> cases h
    exact frame_scalar s _
  | gfExp =>
    obtain ⟨_, _, h⟩ := bind_eq_ok.1 h
    cases h; exact frame_scalar s _
  | gfLog =>
    simp only [ruleOf] at h
    split at h <;> cases h
    exact frame_scalar s _
  | gfAlog =>
    obtain ⟨_, _, h⟩ := bind_eq_ok.1 h
    cases h; exact frame_scalar s _
  | matMul => exact matMulRule_frame h
  | matInv => exact matInvRule_frame h
  | mvCode loop method => exact mvCodeRule_frame h
  | mvCheck loop method useTemp => exact mvCheckRule_frame h
  | rsConfig loop method => exact rsConfigRule_frame h
  | rsEncode => exact State.code_frame (rsEncodeRule_eq_code h).2
  | rsCheck useTemp => exact rsCheckRule_frame h
  | rsDecode => exact rsDecodeRule_frame h

/-- RS_CONFIG alone has the effect that sets CFG_VALID. -/
theorem RuleEffect.cfgValid (he : RuleEffect i s u) (hi : writesConfig i = false) :
    u.regs.status.cfgValid = s.regs.status.cfgValid := by
  cases he with
  | shards l _ => simp
  | result v used off cnt => simp
  | matrix C _ _ => simp [State.storeResult, State.writeBlock]
  | config k m loop method G word _ _ => simp [word, writesConfig] at hi

/-! ## The slots RS_ENCODE and RS_DECODE leave -/

/-- `code` leaves the slots that are no outputs. -/
theorem State.code_byteAt_other {rows : Except Stop Mat} {ins outs : List Nat} {off cnt : Nat}
    (h : s.code rows ins outs off cnt = .ok t) (hend : off + cnt ≤ 2 ^ 32) {a : Addr} (ha : a.col < 2 ^ 32)
    (hrow : a.row ∉ outs) : t.byteAt .shard a = s.byteAt .shard a := by
  obtain ⟨l, rfl, hl⟩ := State.code_writes h
  have hnone : l.find? (fun w => w.1 == a) = none := by
    rw [List.find?_eq_none]
    intro x hx hxa
    exact hrow (by simpa [beq_iff_eq.1 hxa] using (hl x hx).1)
  rw [State.byteAt_writeAll (by decide) l (fun x hx => by have := (hl x hx).2; omega) ha, hnone]

theorem range_le_pow (h : s.checkRange = .ok ()) : s.regs.off.toNat + s.regs.cnt.toNat ≤ 2 ^ 32 :=
  (range_le_lmax h).trans (lmax_lt s.params).le

theorem rsEncodeRule_byteAt_other (h : rsEncodeRule s = .ok u) {a : Addr} (ha : legalAddr s.lmax .shard a = true)
    (hrow : ¬ (s.k ≤ a.row ∧ a.row < s.k + s.m)) : u.byteAt .shard a = s.byteAt .shard a := by
  obtain ⟨hrange, hcode⟩ := rsEncodeRule_eq_code h
  refine State.code_byteAt_other hcode (range_le_pow hrange) (State.legalAddr_col ha) fun hmem => hrow ?_
  simpa [State.paritySlots, List.mem_range'_1] using hmem

theorem not_present_of_mem_missingList {r : Regs} {lo hi j : Nat} (h : j ∈ r.missingList lo hi) :
    r.present.getLsbD j = false := by simpa [Regs.isPresent] using (List.mem_filter.1 h).2

theorem rsDecodeRule_byteAt_other (h : rsDecodeRule s = .ok u) {a : Addr} (ha : legalAddr s.lmax .shard a = true)
    (hrow : ¬ (a.row < s.n ∧ s.regs.present.getLsbD a.row = false)) : u.byteAt .shard a = s.byteAt .shard a := by
  obtain ⟨hrange, hkn, rfl | ⟨t, rows, rows', ht, hu⟩⟩ := rsDecodeRule_eq_codes h
  · rfl
  · have hend := range_le_pow hrange
    have hcol := State.legalAddr_col ha
    rw [State.code_byteAt_other hu hend hcol fun hmem =>
        hrow ⟨mem_missingList hmem, not_present_of_mem_missingList hmem⟩,
      State.code_byteAt_other ht hend hcol fun hmem =>
        hrow ⟨(mem_missingList hmem).trans_le hkn, not_present_of_mem_missingList hmem⟩]

end

/-- Settles O11: a rule that ends well has kept to its row, completion adds STATUS, and an error writes STATUS alone. -/
theorem commandsWriteOnlyTheirTableRow : Obligations.CommandsWriteOnlyTheirTableRow := by
  intro i s t h
  rcases exec_next h with ⟨u, hu, rfl⟩ | ⟨e, -, rfl⟩
  · have hdone := frame_completeOk u
    have hshard := hdone.byteAt_eq (space := .shard) (by simp)
    refine ⟨(ruleOf_frame hu).trans (hdone.mono (by simp) (by simp)), (ruleOf_effect hu).cfgValid, ?_, ?_⟩
    · rintro rfl a ha hrow
      rw [hshard]
      exact rsEncodeRule_byteAt_other hu ha hrow
    · rintro rfl a ha hrow
      rw [hshard]
      exact rsDecodeRule_byteAt_other hu ha hrow
  · have herr := frame_raiseError s e
    have hshard := herr.byteAt_eq (space := .shard) (by simp)
    exact ⟨herr.mono (by simp) (by simp), fun _ => rfl, fun _ a _ _ => hshard a, fun _ a _ _ => hshard a⟩

/-! ## Illegal words (30_encoding.md R95) -/

/-- While BUSY = 0 a CMD write is accepted, whatever the word. -/
theorem hostRegWrite_cmd {s : State} (hb : s.busy = false) (w : Word) : hostRegWrite s 3 w = .ok (s.issue w) := by
  simp [hostRegWrite, hb]

theorem unitStep_illegal {s : State} (hb : s.busy = true) (h : legalWord s.latch = false) :
    unitStep s = .next (s.raiseError .illegalCommand) := by
  obtain ⟨e, he⟩ := decode_of_illegal h
  simp [unitStep, hb, he, execIllegal]

/-- Settles O7: the word is accepted like any other, and its Unit step raises ILLEGAL_COMMAND. -/
theorem illegalWordCompletes : Obligations.IllegalWordCompletes :=
  ⟨fun _ w hb _ => hostRegWrite_cmd hb w,
    fun s hb h => ⟨_, unitStep_illegal hb h, ⟨rfl, rfl, rfl, rfl, rfl⟩, frame_raiseError s _⟩⟩

/-! ## The wait loop (30_encoding.md R101) -/

section
variable {s : State} {h name j bit target v : Nat} {p : HostProc} {w : Word} {rest : List Turn}

theorem step_hostTurn (hf : s.faults = []) (ht : s.turns = .host h :: rest) : step s = hostStep h s.popTurn := by
  simp [step, hf, State.nextTurn, ht]

theorem hostStep_regRead (hp : s.hosts[h]? = some p) (hstmt : p.prog[p.pc]? = some (rd name j))
    (hr : hostRegRead s j = .ok w) : hostStep h s = .next (s.setHost h (p.past name (some w.toNat))) := by
  simp [hostStep, hp, hstmt, rd, HostAccess.piece, hostAccess, hr]

theorem hostStep_bnz (hp : s.hosts[h]? = some p) (hstmt : p.prog[p.pc]? = some (.bnz name bit target))
    (hv : p.valueOf name = some v) : hostStep h s = .next (s.setHost h (p.branch v bit target)) := by
  simp [hostStep, hp, hstmt, hv]

/-- STATUS can be read whatever BUSY is (70_reset_and_hazards.md R310). -/
theorem hostRegRead_status (s : State) : hostRegRead s 2 = .ok s.regs.status.word := by
  simp [hostRegRead, readableWhileBusy, State.regWord, Regs.word]

theorem Status.word_busy (st : Status) : st.word.toNat.testBit 0 = st.busy := by
  rw [BitVec.testBit_toNat]
  simp [Status.word, fieldAt]

/-- A host that has read STATUS, as `wait` does first. -/
def HostProc.polled (p : HostProc) (st : Status) : HostProc := p.past statusName (some st.word.toNat)

theorem HostProc.valueOf_polled (p : HostProc) (st : Status) :
    (p.polled st).valueOf statusName = some st.word.toNat := by
  simp [HostProc.valueOf, HostProc.polled, HostProc.past]

theorem State.getElem?_setHost (hp : s.hosts[h]? = some p) (q : HostProc) : (s.setHost h q).hosts[h]? = some q :=
  List.getElem?_set_self (List.getElem?_eq_some_iff.1 hp).1

/-- The two turns of a host at `wait`: it reads STATUS, then branches on it. -/
theorem run_waitDone (hf : s.faults = []) (hturns : s.turns = .host h :: .host h :: rest) (hp : s.hosts[h]? = some p)
    (hread : p.prog[p.pc]? = some (rd statusName 2)) (hbnz : p.prog[p.pc + 1]? = some (.bnz statusName 0 target)) :
    s.run 2 = .next ((s.popTurn.setHost h (p.polled s.regs.status)).popTurn.setHost h
      ((p.polled s.regs.status).branch s.regs.status.word.toNat 0 target)) := by
  have hpoll : step s = .next (s.popTurn.setHost h (p.polled s.regs.status)) :=
    (step_hostTurn hf hturns).trans (hostStep_regRead hp hread (hostRegRead_status _))
  have hturn : (s.popTurn.setHost h (p.polled s.regs.status)).turns = .host h :: rest := by
    simp [State.setHost, State.popTurn, hturns]
  have hhost := State.getElem?_setHost (s := s.popTurn) hp (p.polled s.regs.status)
  have hbranch := (step_hostTurn (s := s.popTurn.setHost h (p.polled s.regs.status)) hf hturn).trans
    (hostStep_bnz hhost hbnz (HostProc.valueOf_polled p s.regs.status))
  rw [State.run_next hpoll, State.run_next hbranch]
  rfl

end

/-- Settles O30: the read keeps STATUS under its name, and the branch tests its bit 0, which is BUSY. -/
theorem waitPollsStatus : Obligations.WaitPollsStatus := by
  intro s h p rest hf hturns hp hprog
  have hread : p.prog[p.pc]? = some (rd statusName 2) := hprog 0 (by decide)
  have hbnz : p.prog[p.pc + 1]? = some (.bnz statusName 0 p.pc) := hprog 1 (by decide)
  have hhost := State.getElem?_setHost (s := s.popTurn) hp (p.polled s.regs.status)
  refine ⟨_, _, run_waitDone hf hturns hp hread hbnz,
    State.getElem?_setHost (s := (s.popTurn.setHost h (p.polled s.regs.status)).popTurn) hhost _, ?_, rfl,
    fun _ _ => rfl, fun _ _ _ => rfl, rfl⟩
  rw [HostProc.branch, Status.word_busy]
  rfl

end Sys2Proof.Machine

/-! # Command protocol family: issue, the Unit's turn, completion, NOP, and how long a command in flight waits -/

namespace Sys2Proof.Machine

/-! ## Completion (40_command_protocol.md R126) -/

/-- Settles O9: a rule ends well or raises an error, and each end writes its record. -/
theorem completionRecord : Obligations.CompletionRecord := by
  intro i s t h
  rcases exec_next h with ⟨u, -, rfl⟩ | ⟨e, -, rfl⟩
  · exact ⟨rfl, rfl, .inl ⟨rfl, rfl⟩⟩
  · obtain ⟨hle, hne⟩ := e.code_legal
    have hpos : 1 ≤ e.code.toNat := Nat.one_le_iff_ne_zero.2 fun h0 => hne (BitVec.eq_of_toNat_eq h0)
    exact ⟨rfl, rfl, .inr ⟨rfl, hpos, hle⟩⟩

/-! ## A command in flight is served (R125) -/

section
variable {s t : State}

/-- The Unit's step leaves no command in flight: it was idle, or it has completed the command. -/
theorem unitStep_busy (h : unitStep s = .next t) : t.busy = false := by
  rcases unitStep_next h with ⟨hb, rfl⟩ | ⟨-, i, -, he⟩ | ⟨-, -, rfl⟩
  · exact hb
  · exact (completionRecord i s t he).1
  · rfl

/-! No agent changes the turns: a step uses up the first one, and that is all. -/

theorem hostRegWrite_turns {j : Nat} {w : Word} (h : hostRegWrite s j w = .ok t) : t.turns = s.turns := by
  obtain ⟨-, ⟨-, -, rfl⟩ | ⟨-, -, rfl⟩ | ⟨-, rfl⟩⟩ := hostRegWrite_ok h
  all_goals rfl

theorem hostMemWrite_turns {space : Space} {a : Addr} {v : Byte} (h : hostMemWrite s space a v = .ok t) :
    t.turns = s.turns := by
  obtain ⟨-, -, ⟨-, rfl⟩ | ⟨-, rfl⟩⟩ := hostMemWrite_ok h
  all_goals rfl

theorem hostBusWrite_turns {addr size value : Nat} (h : hostBusWrite s addr size value = .ok t) :
    t.turns = s.turns := by
  unfold hostBusWrite at h
  split at h
  · cases h
  · split at h
    · split at h
      · cases h
      · exact hostRegWrite_turns h
    · obtain ⟨-, -, -, -, hturns⟩ := busWriteBytes_sameRest h
      exact hturns

theorem hostAccess_turns {a : HostAccess} {v : Option Nat} (h : hostAccess s a = .ok (t, v)) : t.turns = s.turns := by
  cases a with
  | regRead j | memRead space b | busRead addr size =>
    simp only [hostAccess] at h
    split at h <;> cases h
    rfl
  | regWrite j w =>
    simp only [hostAccess] at h
    split at h <;> cases h
    exact hostRegWrite_turns ‹_›
  | memWrite space b x =>
    simp only [hostAccess] at h
    split at h <;> cases h
    exact hostMemWrite_turns ‹_›
  | busWrite addr size value =>
    simp only [hostAccess] at h
    split at h <;> cases h
    exact hostBusWrite_turns ‹_›

theorem hostStep_turns {k : Nat} (h : hostStep k s = .next t) : t.turns = s.turns := by
  rcases hostStep_next h with rfl | ⟨a, u, v, q, ha, rfl⟩ | ⟨q, rfl⟩
  · rfl
  · exact (hostAccess_turns ha : u.turns = s.turns)
  · rfl

theorem unitStep_turns (h : unitStep s = .next t) : t.turns = s.turns := by
  rcases unitStep_next h with ⟨-, rfl⟩ | ⟨-, i, -, he⟩ | ⟨-, -, rfl⟩
  · rfl
  · obtain ⟨⟨-, -, -, -, -, -, hturns⟩, -⟩ := commandsWriteOnlyTheirTableRow i s t he
    exact hturns
  · rfl

theorem step_turns (h : step s = .next t) : t.turns = s.turns.tail := by
  obtain ⟨-, ⟨-, hs⟩ | ⟨k, -, hs⟩ | ⟨-, rfl⟩⟩ := step_next h
  · exact unitStep_turns hs
  · exact hostStep_turns hs
  · rfl

/-- With the chosen turns used up, the Unit serves a command in flight at once. -/
theorem step_busy_of_no_turns (hturns : s.turns = []) (hb : s.busy = true) (h : step s = .next t) :
    t.busy = false := by
  have hunit : s.nextTurn = .unit := by simp [State.nextTurn, hturns, State.defaultTurn, hb]
  obtain ⟨-, ⟨-, hs⟩ | ⟨k, hk, -⟩ | ⟨hk, -⟩⟩ := step_next h
  · exact unitStep_busy hs
  · simp [hunit] at hk
  · simp [hunit] at hk

end

theorem coreRun_refused {M : Host.Core} {s : M.State} {q : M.Refusal} (h : M.step s = .refused q) (n : Nat) :
    M.run (n + 1) s = .refused q := by rw [Host.Core.run, h]

theorem State.run_refused {s : State} {q : Refusal} (h : step s = .refused q) (n : Nat) :
    s.run (n + 1) = .refused q :=
  coreRun_refused (M := core) h n

/-- The run of `k` steps has served the command in flight, or the machine has stopped on the way. -/
def State.ServedAfter (s : State) (k : Nat) : Prop :=
  (∃ t, s.run k = .next t ∧ t.busy = false) ∨ (∃ f, s.run k = .fault f) ∨ (∃ q, s.run k = .refused q)

theorem State.servedAfter_succ {s t : State} (h : step s = .next t) {k : Nat} :
    s.ServedAfter (k + 1) ↔ t.ServedAfter k := by
  rw [State.ServedAfter, State.run_next h]
  rfl

/-- A step that stops, or that leaves BUSY = 0, is enough. -/
theorem State.servedAfter_one {s : State} (h : ∀ t, step s = .next t → t.busy = false) : s.ServedAfter 1 := by
  cases hs : step s with
  | next t => exact (State.servedAfter_succ hs).2 (.inl ⟨t, rfl, h t hs⟩)
  | fault f => exact .inr (.inl ⟨f, State.run_fault hs 0⟩)
  | refused q => exact .inr (.inr ⟨q, State.run_refused hs 0⟩)

/-- Each step that leaves the command in flight has used up one of the chosen turns. -/
theorem State.served_within_turns {s : State} (hb : s.busy = true) : ∃ k ≤ s.turns.length + 1, s.ServedAfter k := by
  induction hturns : s.turns generalizing s with
  | nil => exact ⟨1, by simp, State.servedAfter_one fun t => step_busy_of_no_turns hturns hb⟩
  | cons turn rest ih =>
    by_cases hone : ∀ t, step s = .next t → t.busy = false
    · exact ⟨1, by simp, State.servedAfter_one hone⟩
    · push Not at hone
      obtain ⟨t, hs, hbusy⟩ := hone
      have hrest : t.turns = rest := by rw [step_turns hs, hturns, List.tail_cons]
      obtain ⟨k, hk, hserved⟩ := ih (by simpa using hbusy) hrest
      exact ⟨k + 1, by simpa using hk, (State.servedAfter_succ hs).2 hserved⟩

/-- Settles O12: by induction on the chosen turns; when none is left, the Unit is next. -/
theorem commandInFlightIsServed : Obligations.CommandInFlightIsServed := fun _ _ hb => State.served_within_turns hb

/-! ## The Unit's turn (R122, R124) -/

section
variable {s : State} {i : Instr}

theorem step_unitTurn (hf : s.faults = []) (ht : s.nextTurn = .unit) : step s = unitStep s.popTurn := by
  simp [step, hf, ht]

theorem unitStep_command (hb : s.busy = true) (hi : decode s.latch = .ok i) : unitStep s = exec i s := by
  simp [unitStep, hb, hi]

/-- The state that offers a word is the one its CMD write leaves, with the Unit's turn next. -/
theorem step_offer {w : Word} (hf : s.faults = []) (hi : decode w = .ok i) : step (s.offer w) = exec i (s.issue w) :=
  (step_unitTurn (s := s.offer w) hf rfl).trans (unitStep_command (s := s.issue w) rfl hi)

theorem withFetchWord_toNat (s : State) (w : Word) : s.withFetchWord 32 w.toNat = s.offer w := by
  rw [State.withFetchWord, Nat.mod_eq_of_lt w.isLt, BitVec.ofNat_toNat, BitVec.setWidth_eq]

end

/-- Settles O6: the Unit's turn is the Unit step, which runs what LATCH decodes to. -/
theorem stepRunsDecodedCommand : Obligations.StepRunsDecodedCommand := by
  refine ⟨fun s i hf ht hb hi => ?_, fun s => step_unitTurn, fun s i w hf hi => ?_⟩
  · rw [step_unitTurn hf ht]
    exact unitStep_command (s := s.popTurn) hb hi
  · rw [withFetchWord_toNat, step_offer hf hi]

/-! ## Issue (R121) -/

theorem hostRegWrite_cmd_busy {s : State} (hb : s.busy = true) (w : Word) :
    hostRegWrite s 3 w = .error .cmdWhileBusy := by
  simp [hostRegWrite, hb]

/-- Settles O8: an accepted CMD write is `State.issue`, which writes LATCH and STATUS alone. -/
theorem commandIssue : Obligations.CommandIssue := by
  intro s w
  refine ⟨fun hb => hostRegWrite_cmd_busy hb w, fun hb => ⟨s.issue w, hostRegWrite_cmd hb w, rfl, ?_⟩⟩
  obtain ⟨hregs, hmems, -⟩ := frame_withStatus s (st := s.regs.status.issued) rfl
  exact ⟨⟨rfl, rfl, rfl, rfl, rfl⟩, hregs, hmems, rfl, rfl, rfl, rfl⟩

/-! ## NOP (R129) -/

theorem Instr.eq_nop_of_opcode {i : Instr} (h : i.opcode = 0#8) : i = .nop := by
  cases i with
  | nop => rfl
  | _ => simp [Instr.opcode] at h

/-- The one legal word of opcode 0 is NOP's. -/
theorem eq_zero_of_legal {w : Word} (hopc : opcOf w = 0#8) (h : legalWord w = true) : w = 0#32 := by
  obtain ⟨i, hi⟩ := (legalWordsDecode w).1 h
  obtain ⟨-, hfield, -⟩ := fields_of_decode hi
  obtain rfl := Instr.eq_nop_of_opcode (hfield.symm.trans hopc)
  exact (encode_of_decode hi).symm

/-- Settles O31: NOP's rule is empty, and no other word of its opcode is the word of a command. -/
theorem nopRule : Obligations.NopRule :=
  ⟨by decide, fun _ hopc hne => Bool.eq_false_iff.2 fun h => hne (eq_zero_of_legal hopc h),
    fun s => ⟨s.completeOk, ⟨rfl, rfl, rfl, rfl, rfl, rfl⟩, frame_completeOk s⟩⟩

end Sys2Proof.Machine

/-! # Field arithmetic family: the tables compute the polynomial product, the field laws, the scalar commands -/

namespace Sys2Proof.Machine

/-! ## Maps that respect addition (41_gf_arith.md R143)

Addition in the field is XOR. A map of bytes that respects it is known from its values at the powers of x, the eight
bytes with one bit set. -/

/-- A map of bit vectors that sends sums to sums. -/
def XorLinear {m n : Nat} (f : BitVec m → BitVec n) : Prop := ∀ a b, f (a ^^^ b) = f a ^^^ f b

section
variable {m n : Nat}

theorem XorLinear.map_zero {f : BitVec m → BitVec n} (hf : XorLinear f) : f 0#m = 0#n := by
  have h := hf 0#m 0#m
  rwa [BitVec.xor_self, BitVec.xor_self] at h

theorem XorLinear.comp {k : Nat} {g : BitVec n → BitVec k} {f : BitVec m → BitVec n} (hg : XorLinear g)
    (hf : XorLinear f) : XorLinear fun a => g (f a) := fun a b => (congrArg g (hf a b)).trans (hg _ _)

/-- A fold whose steps send sums to sums does so as a whole. -/
theorem foldl_xor {f g h : BitVec n → Nat → BitVec n} (hstep : ∀ p q i, h (p ^^^ q) i = f p i ^^^ g q i)
    (l : List Nat) (p q : BitVec n) : l.foldl h (p ^^^ q) = l.foldl f p ^^^ l.foldl g q := by
  induction l generalizing p q with
  | nil => rfl
  | cons i l ih => simp only [List.foldl_cons, hstep, ih]

end

/-- The sum of the powers of x that stand in `a`, of those listed. -/
def bitSum (a : Byte) (l : List Nat) : Byte := l.foldr (fun i c => (if a.getLsbD i then 1#8 <<< i else 0#8) ^^^ c) 0#8

theorem bitSum_range : ∀ a : Byte, bitSum a (List.range 8) = a := by decide +kernel

/-- Two maps that respect addition are equal when they agree at the eight powers of x. -/
theorem XorLinear.eq_of_powers {f g : Byte → Byte} (hf : XorLinear f) (hg : XorLinear g)
    (h : ∀ i, i < 8 → f (1#8 <<< i) = g (1#8 <<< i)) (a : Byte) : f a = g a := by
  have hsum : ∀ l : List Nat, (∀ i ∈ l, i < 8) → f (bitSum a l) = g (bitSum a l) := by
    intro l hl
    induction l with
    | nil => exact hf.map_zero.trans hg.map_zero.symm
    | cons i l ih =>
      simp only [List.forall_mem_cons] at hl
      obtain ⟨hi, hl⟩ := hl
      have hterm : f (if a.getLsbD i then 1#8 <<< i else 0#8) = g (if a.getLsbD i then 1#8 <<< i else 0#8) := by
        split
        · exact h i hi
        · exact hf.map_zero.trans hg.map_zero.symm
      rw [bitSum, List.foldr_cons, hf, hg, hterm]
      exact congrArg _ (ih hl)
  rw [← bitSum_range a]
  exact hsum _ fun i hi => List.mem_range.1 hi

/-! ## The polynomial product respects addition (R140) -/

/-- Adding `c` where a bit is set respects addition of what is added to, with the bit. -/
theorem ite_xor_bit {n : Nat} (x y : Bool) (p q c : BitVec n) :
    (if x ^^ y then p ^^^ q ^^^ c else p ^^^ q) = (if x then p ^^^ c else p) ^^^ (if y then q ^^^ c else q) := by
  have hcancel : p ^^^ c ^^^ (q ^^^ c) = p ^^^ q := by
    rw [BitVec.xor_comm q c, ← BitVec.xor_assoc, BitVec.xor_assoc p, BitVec.xor_self, BitVec.xor_zero]
  cases x <;> cases y <;> simp [hcancel, BitVec.xor_assoc, BitVec.xor_comm c]

theorem polyProduct_linear_left (b : Byte) : XorLinear (polyProduct · b) := fun a a' => by
  refine foldl_xor (fun p q i => ?_) (List.range 8) 0#16 0#16
  split
  · simp only [BitVec.setWidth_xor, BitVec.shiftLeft_xor_distrib]
    ac_rfl
  · rfl

theorem polyProduct_linear_right (a : Byte) : XorLinear (polyProduct a) := fun b b' =>
  foldl_xor (fun p q i => by rw [BitVec.getLsbD_xor, ite_xor_bit]) (List.range 8) 0#16 0#16

theorem polyReduce_linear : XorLinear polyReduce := fun p q => by
  simp only [polyReduce, ← BitVec.setWidth_xor]
  exact congrArg _ (foldl_xor (fun p q i => by rw [BitVec.getLsbD_xor, ite_xor_bit]) _ p q)

theorem timesX_eq_ite (a : Byte) : timesX a = if a.getLsbD 7 then a <<< 1 ^^^ 0x1D#8 else a <<< 1 := by
  unfold timesX
  split <;> simp

theorem timesX_linear : XorLinear timesX := fun a b => by
  simp only [timesX_eq_ite, BitVec.getLsbD_xor, BitVec.shiftLeft_xor_distrib, ite_xor_bit]

theorem polyMul_linear_left (b : Byte) : XorLinear (polyMul · b) := polyReduce_linear.comp (polyProduct_linear_left b)

theorem polyMul_linear_right (a : Byte) : XorLinear (polyMul a) := polyReduce_linear.comp (polyProduct_linear_right a)

/-! ## The tables compute the polynomial product (R144) -/

/-- A factor of x comes out of the product: each side is linear in both factors, and so fixed by the powers of x. -/
theorem polyMul_timesX (a b : Byte) : polyMul (timesX a) b = timesX (polyMul a b) := by
  have hpowers : ∀ i, i < 8 → ∀ j, j < 8 →
      polyMul (timesX (1#8 <<< i)) (1#8 <<< j) = timesX (polyMul (1#8 <<< i) (1#8 <<< j)) := by decide +kernel
  refine ((polyMul_linear_left b).comp timesX_linear).eq_of_powers (timesX_linear.comp (polyMul_linear_left b))
    (fun i hi => ?_) a
  exact (polyMul_linear_right _).eq_of_powers (timesX_linear.comp (polyMul_linear_right _)) (hpowers i hi) b

theorem polyMul_one_left (b : Byte) : polyMul 1#8 b = b :=
  (polyMul_linear_right 1#8).eq_of_powers (g := id) (fun _ _ => rfl) (by decide +kernel) b

/-- The product of two powers of the generator, as polynomials. -/
theorem polyMul_expTab (i j : Nat) : polyMul (expTab i) (expTab j) = expTab (i + j) := by
  induction i with
  | zero => rw [expTab_zero, polyMul_one_left, Nat.zero_add]
  | succ i ih => rw [expTab_step, polyMul_timesX, ih, ← expTab_step, Nat.add_right_comm]

/-- R144: the product through the tables is the product of R140. -/
theorem gfMul_eq_polyMul (a b : Byte) : gfMul a b = polyMul a b := by
  by_cases ha : a = 0#8
  · rw [ha, gfMul_zero_left, (polyMul_linear_left b).map_zero]
  by_cases hb : b = 0#8
  · rw [hb, gfMul_zero_right, (polyMul_linear_right a).map_zero]
  obtain ⟨i, -, rfl⟩ := eq_expTab ha
  obtain ⟨j, -, rfl⟩ := eq_expTab hb
  rw [gfMul_expTab, polyMul_expTab]

/-! ## The field laws (R147) -/

theorem gfMul_comm (a b : Byte) : gfMul a b = gfMul b a := by
  unfold gfMul
  cases logTab a <;> cases logTab b <;> simp [Nat.add_comm]

theorem gfMul_one (a : Byte) : gfMul a 1#8 = a := by rw [gfMul_comm, gfMul_eq_polyMul, polyMul_one_left]

/-- The product of three powers of the generator is a power whichever two are multiplied first. -/
theorem gfMul_assoc (a b c : Byte) : gfMul a (gfMul b c) = gfMul (gfMul a b) c := by
  by_cases ha : a = 0#8
  · simp [ha]
  by_cases hb : b = 0#8
  · simp [hb]
  by_cases hc : c = 0#8
  · simp [hc]
  obtain ⟨i, -, rfl⟩ := eq_expTab ha
  obtain ⟨j, -, rfl⟩ := eq_expTab hb
  obtain ⟨k, -, rfl⟩ := eq_expTab hc
  simp only [gfMul_expTab, Nat.add_assoc]

/-- Multiplication by a byte respects addition, since the polynomial product does. -/
theorem gfMul_gfAdd (a b c : Byte) : gfMul a (gfAdd b c) = gfAdd (gfMul a b) (gfMul a c) := by
  simp only [gfMul_eq_polyMul]
  exact polyMul_linear_right a b c

/-! ## Division (R145) -/

/-- LOG at every index of EXP, by the wrap. -/
theorem logTab_expTab_mod (i : Nat) : logTab (expTab i) = some (i % 255) := by
  rw [← expTab_mod, logTab_expTab _ (Nat.mod_lt _ (by omega))]

/-- Division of one power of the generator by another takes the exponents' difference. -/
theorem gfDiv_expTab (i j : Nat) : gfDiv (expTab (i + j)) (expTab j) = some (expTab i) := by
  have hdiff : ((i + j) % 255 + 255 - j % 255) % 255 = i % 255 := by omega
  simp only [gfDiv, logTab_expTab_mod]
  rw [← expTab_mod, hdiff, expTab_mod]

theorem gfDiv_zero_right (a : Byte) : gfDiv a 0#8 = none := by simp [gfDiv, logTab_zero]

/-- Division undoes multiplication. -/
theorem gfDiv_gfMul {b : Byte} (hb : b ≠ 0#8) (q : Byte) : gfDiv (gfMul q b) b = some q := by
  obtain ⟨j, -, rfl⟩ := eq_expTab hb
  by_cases hq : q = 0#8
  · simp [hq, gfDiv, logTab_zero, logTab_expTab_mod]
  · obtain ⟨i, -, rfl⟩ := eq_expTab hq
    rw [gfMul_expTab, gfDiv_expTab]

/-- Every byte is a multiple of a nonzero byte: the multiplier of EXP[i] from EXP[j] is EXP[i + 255 - j]. -/
theorem exists_gfMul_eq {b : Byte} (hb : b ≠ 0#8) (a : Byte) : ∃ q, gfMul q b = a := by
  by_cases ha : a = 0#8
  · exact ⟨0#8, by rw [ha, gfMul_zero_left]⟩
  · obtain ⟨i, -, rfl⟩ := eq_expTab ha
    obtain ⟨j, hj, rfl⟩ := eq_expTab hb
    have hsum : i + 255 - j + j = i + 255 := by omega
    exact ⟨expTab (i + 255 - j), by rw [gfMul_expTab, hsum, ← expTab_mod, Nat.add_mod_right, expTab_mod]⟩

/-- For `b ≠ 0` the quotient exists, and it is the one byte whose product with `b` is `a`. -/
theorem gfDiv_unique {b : Byte} (hb : b ≠ 0#8) (a : Byte) :
    ∃ q, gfDiv a b = some q ∧ ∀ q', gfMul q' b = a ↔ q' = q := by
  obtain ⟨q, rfl⟩ := exists_gfMul_eq hb a
  refine ⟨q, gfDiv_gfMul hb q, fun q' => ⟨fun h => ?_, fun h => by rw [h]⟩⟩
  have hsome : some q' = some q := by rw [← gfDiv_gfMul hb q', h, gfDiv_gfMul hb q]
  exact Option.some.inj hsome

/-- Settles O38: addition is XOR, and multiplication is addition of exponents and linear. -/
theorem fieldLaws : Obligations.FieldLaws := by
  refine ⟨BitVec.xor_comm, fun a b c => (BitVec.xor_assoc a b c).symm, fun a => ⟨BitVec.xor_zero, BitVec.xor_self⟩,
    gfMul_comm, gfMul_assoc, fun a => ⟨gfMul_one a, gfMul_zero_right a⟩, gfMul_gfAdd, fun a b hb => ?_⟩
  obtain ⟨q, hq, hunique⟩ := gfDiv_unique hb a
  exact ⟨q, hq, (hunique q).2 rfl⟩

/-! ## Powers (R141, R146) -/

theorem polyPow_succ (a : Byte) (n : Nat) : polyPow a (n + 1) = polyMul (polyPow a n) a := by
  rw [polyPow, Function.iterate_succ_apply', polyPow]

theorem polyPow_zero_left (n : Nat) : polyPow 0#8 (n + 1) = 0#8 := by
  rw [polyPow_succ, ← gfMul_eq_polyMul, gfMul_zero_right]

/-- A power of a power of the generator: the exponents multiply. -/
theorem polyPow_expTab (i n : Nat) : polyPow (expTab i) n = expTab (i * n) := by
  induction n with
  | zero => exact expTab_zero.symm
  | succ n ih => rw [polyPow_succ, ih, polyMul_expTab, Nat.mul_succ]

/-- R141: EXP[i] is the power i of the generator. -/
theorem polyPow_two (i : Nat) : polyPow 2#8 i = expTab i := by
  have htwo : expTab 1 = 2#8 := by decide
  rw [← htwo, polyPow_expTab, Nat.one_mul]

/-- R146: gf_exp is repeated multiplication. -/
theorem gfExp_eq_polyPow (a : Byte) (n : Nat) : gfExp a n = polyPow a n := by
  cases n with
  | zero => rfl
  | succ n =>
    by_cases ha : a = 0#8
    · rw [ha, polyPow_zero_left]
      simp [gfExp, logTab_zero]
    · obtain ⟨i, -, rfl⟩ := eq_expTab ha
      simp only [gfExp, logTab_expTab_mod, Nat.succ_ne_zero, if_false]
      rw [polyPow_expTab, Nat.mod_mul_mod, expTab_mod]

/-- R141: LOG[a] is the one exponent in 0..254 whose power of the generator is `a`. -/
theorem logTab_unique {a : Byte} (ha : a ≠ 0#8) :
    ∃ i, i ≤ 254 ∧ logTab a = some i ∧ ∀ i', i' ≤ 254 → (polyPow 2#8 i' = a ↔ i' = i) := by
  obtain ⟨i, hi, hlog, rfl⟩ := logTab_spec a ha
  refine ⟨i, hi, hlog, fun i' hi' => ?_⟩
  rw [polyPow_two]
  refine ⟨fun h => ?_, fun h => by rw [h]⟩
  have hsome : some i' = some i := by rw [← logTab_expTab i' (by omega), h, hlog]
  exact Option.some.inj hsome

/-! ## How a scalar command ends (R148 to R154; 40_command_protocol.md R126) -/

section
variable {i : Instr} {s : State} {v : Byte} {e : ErrCode}

theorem succeedsTo_of_rule {u : State} (h : ruleOf i s = .ok u)
    (hv : u.regs.status.cfgValid = s.regs.status.cfgValid) : SucceedsTo i s u.completeOk :=
  ⟨by rw [exec_eq_finish, h, finish_ok], rfl, rfl, rfl, rfl, hv⟩

theorem failsWith_of_rule (h : ruleOf i s = .error (.error e)) : FailsWith i s e.code :=
  ⟨s.raiseError e, by rw [exec_eq_finish, h, finish_error], ⟨rfl, rfl, rfl, rfl, rfl⟩, frame_raiseError s e⟩

/-- A scalar command that sets RESULT succeeds, RESULT reads its value, and nothing else but STATUS changes. -/
theorem scalar_succeeds (h : ruleOf i s = .ok (s.setResult v)) :
    SucceedsTo i s (s.setResult v).completeOk ∧ (s.setResult v).completeOk.regWord 4 = v.setWidth 32
      ∧ Frame [2, 4] [] s (s.setResult v).completeOk :=
  ⟨succeedsTo_of_rule h rfl, rfl, (frame_scalar s v).trans ((frame_completeOk _).mono (by simp) (by simp))⟩

end

/-- Settles O32: the rule sets RESULT to the XOR of the operands. -/
theorem gfAddAndSubRule : Obligations.GfAddAndSubRule := by
  refine ⟨by decide, by decide, fun s i hi => ?_⟩
  have hrule : ruleOf i s = .ok (s.setResult (s.regs.opa ^^^ s.regs.opb)) := by
    simp only [List.mem_cons, List.not_mem_nil, or_false] at hi
    rcases hi with rfl | rfl <;> rfl
  obtain ⟨hsucc, hresult, hframe⟩ := scalar_succeeds hrule
  exact ⟨_, hsucc, hresult.trans BitVec.setWidth_xor, hframe⟩

/-- Settles O33: both paths read the same product, and that is the polynomial one. -/
theorem gfMulRule : Obligations.GfMulRule := by
  refine ⟨by decide, by decide, fun method s => ?_⟩
  have hrule : ruleOf (.gfMul method) s = .ok (s.setResult (gfMul s.regs.opa s.regs.opb)) := by
    rw [ruleOf, mulBy_eq]
  obtain ⟨hsucc, hresult, hframe⟩ := scalar_succeeds hrule
  exact ⟨_, hsucc, hresult, gfMul_eq_polyMul _ _, hframe⟩

/-- Settles O34: gf_div has no value exactly at b = 0, and else the one R147 asks for. -/
theorem gfDivRule : Obligations.GfDivRule := by
  refine ⟨by decide, fun s => ⟨fun hb => failsWith_of_rule (e := .divByZero) ?_, fun hb => ?_⟩⟩
  · rw [ruleOf, hb, gfDiv_zero_right]
  · obtain ⟨q, hq, hunique⟩ := gfDiv_unique hb s.regs.opa
    simp only [gfMul_eq_polyMul] at hunique
    have hrule : ruleOf .gfDiv s = .ok (s.setResult q) := by rw [ruleOf, hq]
    obtain ⟨hsucc, hresult, hframe⟩ := scalar_succeeds hrule
    exact ⟨_, q, hsucc, hq, hresult, hunique, hframe⟩

/-- Settles O35: the check is on the sign of OPN, and gf_exp multiplies exponents. -/
theorem gfExpRule : Obligations.GfExpRule := by
  refine ⟨by decide, fun s => ⟨fun hn => failsWith_of_rule (e := .rangeError) ?_, fun hn => ?_⟩⟩
  · have hcheck : decide (0 ≤ s.regs.n) = false := decide_eq_false hn.not_ge
    rw [ruleOf, require_error hcheck]
    rfl
  · have hcheck : decide (0 ≤ s.regs.n) = true := decide_eq_true hn
    have hrule : ruleOf .gfExp s = .ok (s.setResult (gfExp s.regs.opa (sint32 s.regs.opn).toNat)) := by
      rw [ruleOf, require_ok hcheck]
      rfl
    obtain ⟨hsucc, hresult, hframe⟩ := scalar_succeeds hrule
    exact ⟨_, hsucc, hresult, gfExp_eq_polyPow _ _, hframe⟩

/-- Settles O36: LOG has no value exactly at 0, and else the exponent R141 gives. -/
theorem gfLogRule : Obligations.GfLogRule := by
  refine ⟨by decide, fun s => ⟨fun ha => failsWith_of_rule (e := .logOfZero) ?_, fun ha => ?_⟩⟩
  · rw [ruleOf, ha, logTab_zero]
  · obtain ⟨i, hi, hlog, hunique⟩ := logTab_unique ha
    have hrule : ruleOf .gfLog s = .ok (s.setResult (BitVec.ofNat 8 i)) := by rw [ruleOf, hlog]
    obtain ⟨hsucc, hresult, hframe⟩ := scalar_succeeds hrule
    have hword : (BitVec.ofNat 8 i).setWidth 32 = BitVec.ofNat 32 i :=
      BitVec.eq_of_toNat_eq (by simp only [BitVec.toNat_setWidth, BitVec.toNat_ofNat]; omega)
    exact ⟨_, i, hsucc, hlog, hresult.trans hword, hi, hunique, hframe⟩

/-- Settles O37: the check is on the range 0..511 of OPN, and EXP repeats the generator's powers. -/
theorem gfAlogRule : Obligations.GfAlogRule := by
  refine ⟨by decide, fun s => ⟨fun hn => failsWith_of_rule (e := .rangeError) ?_, fun hlo hhi => ?_⟩⟩
  · have hcheck : (0 ≤ s.regs.n && s.regs.n ≤ 511 : Bool) = false :=
      Bool.and_eq_false_iff.2 (hn.imp (fun h => decide_eq_false h.not_ge) fun h => decide_eq_false h.not_ge)
    rw [ruleOf, require_error hcheck]
    rfl
  · have hcheck : (0 ≤ s.regs.n && s.regs.n ≤ 511 : Bool) = true := by simp [Regs.n, hlo, hhi]
    have hrule : ruleOf .gfAlog s = .ok (s.setResult (expTab (sint32 s.regs.opn).toNat)) := by
      rw [ruleOf, require_ok hcheck]
      rfl
    obtain ⟨hsucc, hresult, hframe⟩ := scalar_succeeds hrule
    exact ⟨_, hsucc, hresult, (polyPow_two _).symm, hframe⟩

end Sys2Proof.Machine

/-! # Matrix family: sums and products of vectors, Gauss–Jordan elimination, matrix shapes, MAT_MUL and MAT_INV -/

namespace Sys2Proof.Machine

/-! ## Sums in the field (00_scope.md R15) -/

theorem gfMul_xor (a b c : Byte) : gfMul a (b ^^^ c) = gfMul a b ^^^ gfMul a c := gfMul_gfAdd a b c

theorem xor_gfMul (a b c : Byte) : gfMul (a ^^^ b) c = gfMul a c ^^^ gfMul b c := by
  simp only [gfMul_comm _ c, gfMul_xor]

theorem one_gfMul (a : Byte) : gfMul 1#8 a = a := (gfMul_comm _ _).trans (gfMul_one a)

section
variable {n : Nat}

theorem xorSum_zero (n : Nat) : xorSum n (fun _ => 0#8) = 0#8 := by
  induction n with
  | zero => rfl
  | succ n ih => rw [xorSum, ih, BitVec.xor_self]

theorem xorSum_xor (n : Nat) (f g : Nat → Byte) : xorSum n (fun i => f i ^^^ g i) = xorSum n f ^^^ xorSum n g := by
  induction n with
  | zero => exact BitVec.xor_zero.symm
  | succ n ih => simp only [xorSum, ih]; ac_rfl

theorem xorSum_gfMul (n : Nat) (a : Byte) (f : Nat → Byte) :
    xorSum n (fun i => gfMul a (f i)) = gfMul a (xorSum n f) := by
  induction n with
  | zero => exact (gfMul_zero_right a).symm
  | succ n ih => rw [xorSum, ih, xorSum, gfMul_xor]

theorem xorSum_add (n m : Nat) (f : Nat → Byte) : xorSum (n + m) f = xorSum n f ^^^ xorSum m fun j => f (n + j) := by
  induction m with
  | zero => exact BitVec.xor_zero.symm
  | succ m ih => rw [← Nat.add_assoc, xorSum, ih, xorSum, BitVec.xor_assoc]

/-- A sum with one term that is not 0. -/
theorem xorSum_ite_eq {i : Nat} (hi : i < n) (f : Nat → Byte) :
    xorSum n (fun j => if i = j then f j else 0#8) = f i := by
  induction n with
  | zero => omega
  | succ n ih =>
    rw [xorSum]
    rcases Nat.lt_succ_iff_lt_or_eq.1 hi with h | rfl
    · rw [ih h, if_neg h.ne, BitVec.xor_zero]
    · rw [xorSum_congr fun j hj => if_neg hj.ne', xorSum_zero, if_pos rfl, BitVec.zero_xor]

/-- The order of two sums does not matter. -/
theorem xorSum_comm (n m : Nat) (f : Nat → Nat → Byte) :
    xorSum n (fun i => xorSum m (f i)) = xorSum m fun j => xorSum n fun i => f i j := by
  induction n with
  | zero => exact (xorSum_zero m).symm
  | succ n ih => simp only [xorSum, ih, xorSum_xor]

end

/-! ## Matrix times vector -/

/-- Entry `i` of the product of a matrix of `m` columns and a vector (R174 for one column). -/
def matVec (m : Nat) (A : Nat → Nat → Byte) (x : Nat → Byte) (i : Nat) : Byte := xorSum m fun j => gfMul (A i j) (x j)

/-- The unit vector: column `j` of the identity (R171). -/
def unitVec (j i : Nat) : Byte := if i = j then 1#8 else 0#8

section
variable {m n i j : Nat} {A B : Nat → Nat → Byte} {x y : Nat → Byte}

theorem matVec_congr (hA : ∀ j, j < m → A i j = B i j) (hx : ∀ j, j < m → x j = y j) :
    matVec m A x i = matVec m B y i :=
  xorSum_congr fun j hj => by rw [hA j hj, hx j hj]

/-- A matrix times a unit vector is a column. -/
theorem matVec_unitVec (hj : j < m) : matVec m A (unitVec j) i = A i j := by
  rw [← xorSum_ite_eq hj (A i)]
  refine xorSum_congr fun q _ => ?_
  rcases eq_or_ne j q with rfl | h
  · simp [unitVec, gfMul_one]
  · simp [unitVec, h, h.symm]

/-- The product with a row combined from two rows. -/
theorem matVec_combine {C : Nat → Nat → Byte} {k : Nat} {f : Byte} (h : ∀ j, C i j = A i j ^^^ gfMul f (A k j)) :
    matVec m C x i = matVec m A x i ^^^ gfMul f (matVec m A x k) := by
  simp only [matVec, h, xor_gfMul, ← gfMul_assoc, xorSum_xor, xorSum_gfMul]

/-- Multiplication is associative. -/
theorem matVec_matVec (A B : Nat → Nat → Byte) (x : Nat → Byte) (i : Nat) :
    matVec m A (matVec n B x) i = matVec n (fun i j => matVec m A (B · j) i) x i := by
  simp only [matVec, ← xorSum_gfMul, gfMul_comm _ (x _), gfMul_assoc]
  rw [xorSum_comm]

end

/-! ## Row operations, entry by entry (R178, R179) -/

/-- A list of `n` rows of `m` bytes. -/
structure Rect (n m : Nat) (w : List (List Byte)) : Prop where
  rows : w.length = n
  cols : ∀ row ∈ w, row.length = m

section
variable {n m r s c i : Nat} {w : List (List Byte)}

theorem Mat.rect_of (f : Nat → Nat → Byte) : Rect n m (Mat.of n m f).data := ⟨by simp [Mat.of], by simp [Mat.of]⟩

theorem Rect.length_getD (h : Rect n m w) (hi : i < n) : (w.getD i []).length = m := by
  have hw : i < w.length := h.rows ▸ hi
  rw [List.getD_eq_getElem _ _ hw]
  exact h.cols _ (List.getElem_mem hw)

theorem Rect.set (h : Rect n m w) {row : List Byte} (hrow : row.length = m) (i : Nat) : Rect n m (w.set i row) where
  rows := by rw [List.length_set, h.rows]
  cols row' hrow' := by
    rcases List.mem_or_eq_of_mem_set hrow' with hmem | rfl
    · exact h.cols row' hmem
    · exact hrow

/-- A row after one row was replaced. -/
theorem getD_set (hi : i < w.length) (row : List Byte) (t : Nat) :
    (w.set i row).getD t [] = if i = t then row else w.getD t [] := by
  rcases eq_or_ne i t with rfl | h
  · rw [if_pos rfl, List.getD_eq_getElem?_getD, List.getElem?_set_self hi, Option.getD_some]
  · rw [if_neg h, List.getD_eq_getElem?_getD, List.getElem?_set_ne h, List.getD_eq_getElem?_getD]

theorem Rect.swapRows (h : Rect n m w) (hr : r < n) (hs : s < n) : Rect n m (swapRows w r s) :=
  (h.set (h.length_getD hs) r).set (h.length_getD hr) s

theorem cell_swapRows (h : Rect n m w) (hr : r < n) (hs : s < n) (t j : Nat) :
    cell (swapRows w r s) t j = cell w (Equiv.swap s r t) j := by
  have hrows := h.rows
  unfold swapRows cell
  rw [getD_set (by simp; omega), getD_set (by omega)]
  simp only [Equiv.swap_apply_def, eq_comm (a := t)]
  split
  · rfl
  · split <;> rfl

/-- Row `r` multiplied by `f`. -/
def scaleAt (w : List (List Byte)) (r : Nat) (f : Byte) : List (List Byte) := w.set r (scaleRow f (w.getD r []))

theorem Rect.scaleAt (h : Rect n m w) (hr : r < n) (f : Byte) : Rect n m (Machine.scaleAt w r f) :=
  h.set (by rw [scaleRow, List.length_map, h.length_getD hr]) r

theorem cell_scaleAt (h : Rect n m w) (hr : r < n) (f : Byte) (t j : Nat) :
    cell (scaleAt w r f) t j = if r = t then gfMul f (cell w r j) else cell w t j := by
  unfold cell scaleAt
  rw [getD_set (h.rows ▸ hr)]
  split
  · rename_i h; subst h
    simp only [scaleRow, List.getD_eq_getElem?_getD, List.getElem?_map]
    cases (w[r]?.getD [])[j]? <;> simp
  · rfl

theorem addScaled_length {f : Byte} {row piv : List Byte} (h : row.length = piv.length) :
    (addScaled f row piv).length = row.length := by simp [addScaled, h]

theorem getD_addScaled {f : Byte} {row piv : List Byte} (h : row.length = piv.length) (j : Nat) :
    (addScaled f row piv).getD j 0#8 = row.getD j 0#8 ^^^ gfMul f (piv.getD j 0#8) := by
  simp only [addScaled, List.getD_eq_getElem?_getD, List.getElem?_zipWith]
  by_cases hj : j < row.length
  · have hj' : j < piv.length := h ▸ hj
    simp [hj, hj']
  · have hj' : ¬ j < piv.length := h ▸ hj
    simp [hj, hj']

theorem Rect.eliminate (h : Rect n m w) (hc : c < n) (sel : Nat → Bool) : Rect n m (eliminate w c sel) where
  rows := by rw [Machine.eliminate, List.length_mapIdx, h.rows]
  cols row hrow := by
    obtain ⟨i, hi, rfl⟩ := List.mem_mapIdx.1 hrow
    have hlen := h.cols _ (List.getElem_mem hi)
    split
    · rw [addScaled_length (hlen.trans (h.length_getD hc).symm), hlen]
    · exact hlen

/-- Elimination adds a multiple of row `c` to each selected row; a row with 0 in column `c` gets 0 times row `c`. -/
theorem cell_eliminate (h : Rect n m w) (hc : c < n) (sel : Nat → Bool) (t j : Nat) :
    cell (eliminate w c sel) t j = cell w t j ^^^ gfMul (if sel t then cell w t c else 0#8) (cell w c j) := by
  have hrow : (eliminate w c sel).getD t [] = if sel t && (w.getD t []).getD c 0#8 != 0#8 then
      addScaled ((w.getD t []).getD c 0#8) (w.getD t []) (w.getD c []) else w.getD t [] := by
    by_cases ht : t < w.length
    · simp [Machine.eliminate, ht]
    · simp [Machine.eliminate, ht]
  unfold cell
  rw [hrow]
  by_cases ht : t < n
  · have hlen := (h.length_getD ht).trans (h.length_getD hc).symm
    cases sel t
    · simp
    · by_cases h0 : (w.getD t []).getD c 0#8 = 0#8
      · rw [h0, if_neg (by simp), if_pos rfl, gfMul_zero_left, BitVec.xor_zero]
      · rw [if_pos (by simpa using h0), getD_addScaled hlen, if_pos rfl]
  · have hnil : w.getD t [] = [] := List.getD_eq_default _ _ (by rw [h.rows]; omega)
    have hzero : ∀ q, (w.getD t []).getD q 0#8 = 0#8 := fun q => by rw [hnil, List.getD_nil]
    rw [hzero c, if_neg (by simp), hzero j, ite_self, gfMul_zero_left, BitVec.xor_zero]

end

/-! ## The kernel of a work matrix

Row operations keep the vectors that every row of the work matrix kills. Of `[A | I]` these are the vectors `x` over
`A x`, and of `[I | D]` the vectors `D y` over `y`. -/

/-- Every one of the `n` rows kills `z`. -/
def Kills (n m : Nat) (w : List (List Byte)) (z : Nat → Byte) : Prop := ∀ i, i < n → matVec m (cell w) z i = 0#8

/-- `v` is of the same shape as `w` and has its kernel. -/
structure RowEquiv (n m : Nat) (w v : List (List Byte)) : Prop where
  rect : Rect n m v
  kills : ∀ z, Kills n m w z ↔ Kills n m v z

section
variable {n m r s c : Nat} {w v u : List (List Byte)} {f p : Byte} {z : Nat → Byte}

theorem Rect.rowEquiv_refl (h : Rect n m w) : RowEquiv n m w w := ⟨h, fun _ => .rfl⟩

theorem RowEquiv.trans (h : RowEquiv n m w v) (h' : RowEquiv n m v u) : RowEquiv n m w u :=
  ⟨h'.rect, fun z => (h.kills z).trans (h'.kills z)⟩

theorem Rect.rowEquiv_swapRows (h : Rect n m w) (hr : r < n) (hs : s < n) :
    RowEquiv n m w (Machine.swapRows w r s) := by
  refine ⟨h.swapRows hr hs, fun z => ?_⟩
  have hrow : ∀ t, matVec m (cell (Machine.swapRows w r s)) z t = matVec m (cell w) z (Equiv.swap s r t) := fun t =>
    xorSum_congr fun j _ => by rw [cell_swapRows h hr hs]
  have hlt : ∀ t, t < n → Equiv.swap s r t < n := fun t ht => by
    rw [Equiv.swap_apply_def]
    split_ifs <;> assumption
  constructor
  · intro hk t ht
    rw [hrow]
    exact hk _ (hlt t ht)
  · intro hk t ht
    have := hk _ (hlt t ht)
    rwa [hrow, Equiv.swap_apply_self] at this

/-- Multiplying a row by a byte with an inverse. -/
theorem Rect.rowEquiv_scaleAt (h : Rect n m w) (hr : r < n) (hf : gfMul f p = 1#8) :
    RowEquiv n m w (Machine.scaleAt w r f) := by
  refine ⟨h.scaleAt hr f, fun z => forall₂_congr fun t _ => ?_⟩
  by_cases ht : r = t
  · subst ht
    have hrow : matVec m (cell (Machine.scaleAt w r f)) z r = gfMul f (matVec m (cell w) z r) := by
      simp only [matVec, cell_scaleAt h hr, if_pos, ← gfMul_assoc, xorSum_gfMul]
    rw [hrow]
    refine ⟨fun h0 => by rw [h0, gfMul_zero_right], fun h0 => ?_⟩
    rw [← one_gfMul (matVec m (cell w) z r), ← hf, gfMul_comm f, ← gfMul_assoc, h0, gfMul_zero_right]
  · simp only [matVec, cell_scaleAt h hr, if_neg ht]

theorem Rect.rowEquiv_eliminate (h : Rect n m w) (hc : c < n) {sel : Nat → Bool} (hsel : sel c = false) :
    RowEquiv n m w (Machine.eliminate w c sel) := by
  refine ⟨h.eliminate hc sel, fun z => ?_⟩
  have hrow : ∀ t, matVec m (cell (Machine.eliminate w c sel)) z t
      = matVec m (cell w) z t ^^^ gfMul (if sel t then cell w t c else 0#8) (matVec m (cell w) z c) := fun t =>
    matVec_combine fun j => cell_eliminate h hc sel t j
  constructor
  · intro hk t ht
    rw [hrow, hk t ht, hk c hc, gfMul_zero_right, BitVec.xor_zero]
  · intro hk t ht
    have hpivot : matVec m (cell w) z c = 0#8 := by simpa [hrow, hsel] using hk c hc
    simpa [hrow, hpivot] using hk t ht

end

/-! ## R179's first loop -/

/-- The first `r` columns are those of an upper triangular matrix with 1 on the diagonal. -/
def Echelon (n r : Nat) (w : List (List Byte)) : Prop :=
  ∀ c, c < r → cell w c c = 1#8 ∧ ∀ i, c < i → i < n → cell w i c = 0#8

section
variable {n m r s : Nat} {w : List (List Byte)} {f : Byte}

theorem Echelon.swapRows (hE : Echelon n r w) (h : Rect n m w) (hr : r < n) (hrs : r ≤ s) (hs : s < n) :
    Echelon n r (Machine.swapRows w r s) := by
  intro c hc
  obtain ⟨hdiag, hbelow⟩ := hE c hc
  refine ⟨?_, fun i hci hi => ?_⟩
  · rw [cell_swapRows h hr hs, Equiv.swap_apply_of_ne_of_ne (by omega) (by omega), hdiag]
  · rw [cell_swapRows h hr hs, Equiv.swap_apply_def]
    split_ifs
    · exact hbelow r hc hr
    · exact hbelow s (by omega) hs
    · exact hbelow i hci hi

theorem Echelon.scaleAt (hE : Echelon n r w) (h : Rect n m w) (hr : r < n) (f : Byte) :
    Echelon n r (Machine.scaleAt w r f) := by
  intro c hc
  obtain ⟨hdiag, hbelow⟩ := hE c hc
  refine ⟨by rw [cell_scaleAt h hr, if_neg (by omega), hdiag], fun i hci hi => ?_⟩
  rw [cell_scaleAt h hr, hbelow r hc hr, hbelow i hci hi, gfMul_zero_right, ite_self]

/-- With pivot 1 in column `r`, the below-diagonal pass gives one more column. -/
theorem Echelon.eliminate_below (hE : Echelon n r w) (h : Rect n m w) (hr : r < n) (hpivot : cell w r r = 1#8) :
    Echelon n (r + 1) (eliminate w r fun t => decide (r < t)) := by
  intro c hc
  rcases Nat.lt_succ_iff_lt_or_eq.1 hc with hc | rfl
  · obtain ⟨hdiag, hbelow⟩ := hE c hc
    refine ⟨?_, fun i hci hi => ?_⟩
    · rw [cell_eliminate h hr, hbelow r hc hr, gfMul_zero_right, BitVec.xor_zero, hdiag]
    · rw [cell_eliminate h hr, hbelow r hc hr, gfMul_zero_right, BitVec.xor_zero, hbelow i hci hi]
  · refine ⟨by simp [cell_eliminate h hr, hpivot], fun i hci hi => ?_⟩
    simp [cell_eliminate h hr, hpivot, hci, gfMul_one]

/-- The search for a pivot finds a row from `r` on with a nonzero byte in column `r`, or there is none. -/
theorem pivotRow_cases (h : w.length = n) (hr : r < n) :
    (∃ s, pivotRow w r = some s ∧ r ≤ s ∧ s < n ∧ cell w s r ≠ 0#8)
      ∨ (pivotRow w r = none ∧ ∀ i, r ≤ i → i < n → cell w i r = 0#8) := by
  unfold pivotRow
  by_cases hrr : cell w r r = 0#8
  · rw [if_neg (by simpa using hrr)]
    cases hfind : (List.range' (r + 1) (w.length - (r + 1))).find? fun s => cell w s r != 0#8 with
    | some s =>
      have hmem := List.mem_range'_1.1 (List.mem_of_find?_eq_some hfind)
      exact .inl ⟨s, rfl, by omega, by omega, by simpa using List.find?_some hfind⟩
    | none =>
      refine .inr ⟨rfl, fun i hri hi => ?_⟩
      rcases hri.eq_or_lt with rfl | hlt
      · exact hrr
      · simpa using List.find?_eq_none.1 hfind i (List.mem_range'_1.2 (by omega))
  · rw [if_pos hrr]
    exact .inl ⟨r, rfl, le_rfl, hr, hrr⟩

/-- A nonzero pivot has an inverse, and its row is multiplied by it. -/
theorem normalizeRow_eq_scaleAt (hp : cell w r r ≠ 0#8) (hr : r < w.length) :
    ∃ f, gfMul f (cell w r r) = 1#8 ∧ normalizeRow w r = some (scaleAt w r f) := by
  unfold normalizeRow
  by_cases hone : cell w r r = 1#8
  · have hrow : scaleRow 1#8 (w.getD r []) = w.getD r [] := by
      simp only [scaleRow, funext one_gfMul, List.map_id']
    refine ⟨1#8, by rw [hone, gfMul_one], ?_⟩
    rw [if_pos hone, scaleAt, hrow, List.getD_eq_getElem _ _ hr, List.set_getElem_self]
  · obtain ⟨f, hdiv, hf⟩ := gfDiv_unique hp 1#8
    exact ⟨f, (hf f).2 rfl, by rw [if_neg hone, hdiv]; rfl⟩

/-- One turn of the first loop: Singular if column `r` is 0 from the diagonal down, else one more column. -/
theorem forwardStep_cases (h : Rect n m w) (hr : r < n) (hE : Echelon n r w) :
    (∃ v, forwardStep w r = some v ∧ RowEquiv n m w v ∧ Echelon n (r + 1) v)
      ∨ (forwardStep w r = none ∧ ∀ i, r ≤ i → i < n → cell w i r = 0#8) := by
  rw [forwardStep]
  rcases pivotRow_cases h.rows hr with ⟨s, hs, hrs, hsn, hpivot⟩ | ⟨hnone, hzero⟩
  · have hswap := h.rowEquiv_swapRows hr hsn
    have hcell : cell (swapRows w r s) r r = cell w s r := by rw [cell_swapRows h hr hsn, Equiv.swap_apply_right]
    obtain ⟨f, hf, hnorm⟩ := normalizeRow_eq_scaleAt (hcell ▸ hpivot) (hswap.rect.rows ▸ hr)
    have hscale := hswap.rect.rowEquiv_scaleAt hr hf
    have helim := hscale.rect.rowEquiv_eliminate (sel := fun t => decide (r < t)) hr (by simp)
    refine .inl ⟨_, by simp only [hs, hnorm], (hswap.trans hscale).trans helim, ?_⟩
    refine ((hE.swapRows h hr hrs hsn).scaleAt hswap.rect hr f).eliminate_below hscale.rect hr ?_
    rw [cell_scaleAt hswap.rect hr, if_pos rfl, hf]
  · exact .inr ⟨by rw [hnone], hzero⟩

/-- The first loop from column `r` on: all columns, or Singular at some column `q`. -/
theorem forwardPass_cases {k : Nat} (hk : r + k = n) (h : Rect n m w) (hE : Echelon n r w) :
    (∃ v, forwardPass (List.range' r k) w = some v ∧ RowEquiv n m w v ∧ Echelon n n v)
      ∨ (forwardPass (List.range' r k) w = none ∧ ∃ v q, q < n ∧ RowEquiv n m w v ∧ Echelon n q v
        ∧ ∀ i, q ≤ i → i < n → cell v i q = 0#8) := by
  induction k generalizing r w with
  | zero => exact .inl ⟨w, rfl, h.rowEquiv_refl, by subst hk; exact hE⟩
  | succ k ih =>
    rw [List.range'_succ, forwardPass]
    rcases forwardStep_cases h (by omega) hE with ⟨v, hv, heq, hEv⟩ | ⟨hnone, hzero⟩
    · simp only [hv]
      rcases ih (by omega) heq.rect hEv with ⟨u, hu, heq', hEu⟩ | ⟨hu, u, q, hq, heq', hEu⟩
      · exact .inl ⟨u, hu, heq.trans heq', hEu⟩
      · exact .inr ⟨hu, u, q, hq, heq.trans heq', hEu⟩
    · exact .inr ⟨by rw [hnone], w, r, by omega, h.rowEquiv_refl, hE, hzero⟩

end

/-! ## R179's second loop -/

/-- The first `d` columns are 0 above the diagonal. -/
def ClearAbove (d : Nat) (w : List (List Byte)) : Prop := ∀ c, c < d → ∀ i, i < c → cell w i c = 0#8

section
variable {n m r d : Nat} {w : List (List Byte)}

/-- The above-diagonal pass of column `d` changes no column before it, since row `d` is 0 there. -/
theorem cell_eliminate_above (hE : Echelon n r w) (h : Rect n m w) (hd : d < n) {i j : Nat} (hj : j < r)
    (hij : d ≤ i ∨ j < d) : cell (eliminate w d fun s => decide (s < d)) i j = cell w i j := by
  rw [cell_eliminate h hd]
  rcases hij with hi | hjd
  · simp [hi.not_gt]
  · rw [(hE j hj).2 d hjd hd, gfMul_zero_right, BitVec.xor_zero]

theorem Echelon.eliminate_above (hE : Echelon n r w) (h : Rect n m w) (hd : d < n) :
    Echelon n r (eliminate w d fun s => decide (s < d)) := by
  intro c hc
  obtain ⟨hdiag, hbelow⟩ := hE c hc
  refine ⟨by rw [cell_eliminate_above hE h hd hc (by omega), hdiag], fun i hci hi => ?_⟩
  rw [cell_eliminate_above hE h hd hc (by omega), hbelow i hci hi]

theorem ClearAbove.eliminate_above (hC : ClearAbove d w) (hE : Echelon n r w) (h : Rect n m w) (hd : d < n)
    (hdr : d < r) : ClearAbove (d + 1) (eliminate w d fun s => decide (s < d)) := by
  intro c hc i hic
  rcases Nat.lt_succ_iff_lt_or_eq.1 hc with hcd | rfl
  · rw [cell_eliminate_above hE h hd (by omega) (.inr hcd), hC c hcd i hic]
  · simp [cell_eliminate h hd, hic, (hE c hdr).1, gfMul_one]

theorem backwardPass_succ (d : Nat) (w : List (List Byte)) : backwardPass (List.range (d + 1)) w
    = eliminate (backwardPass (List.range d) w) d fun s => decide (s < d) := by
  rw [backwardPass, List.range_succ, List.foldl_append]
  rfl

/-- The second loop over the first `d` of `r` triangular columns clears them above the diagonal, and leaves the rows
from `r` on. -/
theorem backwardPass_clears (h : Rect n m w) (hE : Echelon n r w) (hr : r ≤ n) (hd : d ≤ r) :
    RowEquiv n m w (backwardPass (List.range d) w) ∧ Echelon n r (backwardPass (List.range d) w)
      ∧ ClearAbove d (backwardPass (List.range d) w)
      ∧ ∀ i, r ≤ i → ∀ j, cell (backwardPass (List.range d) w) i j = cell w i j := by
  induction d with
  | zero => exact ⟨h.rowEquiv_refl, hE, fun c hc => by omega, fun _ _ _ => rfl⟩
  | succ d ih =>
    obtain ⟨heq, hEv, hC, hrows⟩ := ih (by omega)
    have hdn : d < n := by omega
    rw [backwardPass_succ]
    refine ⟨heq.trans (heq.rect.rowEquiv_eliminate hdn (by simp)), hEv.eliminate_above heq.rect hdn,
      hC.eliminate_above hEv heq.rect hdn hd, fun i hi j => ?_⟩
    rw [← hrows i hi j, cell_eliminate heq.rect hdn]
    simp [show ¬ i < d by omega]

/-- After both loops over `r` columns these are unit vectors. -/
theorem backwardPass_reduces (h : Rect n m w) (hE : Echelon n r w) (hr : r ≤ n) :
    ∃ v, backwardPass (List.range r) w = v ∧ RowEquiv n m w v
      ∧ (∀ i c, i < n → c < r → cell v i c = unitVec c i) ∧ ∀ i, r ≤ i → ∀ j, cell v i j = cell w i j := by
  obtain ⟨heq, hEv, hC, hrows⟩ := backwardPass_clears h hE hr le_rfl
  refine ⟨_, rfl, heq, fun i c hi hc => ?_, hrows⟩
  obtain ⟨hdiag, hbelow⟩ := hEv c hc
  rcases lt_trichotomy i c with hlt | rfl | hgt
  · rw [hC c hc i hlt, unitVec, if_neg hlt.ne]
  · rw [hdiag, unitVec, if_pos rfl]
  · rw [hbelow i hgt hi, unitVec, if_neg hgt.ne']

end

/-! ## Elements of parts and of augmented matrices (R175, R176) -/

theorem Mat.entry_submatrix (A : Mat) {rmin cmin rmax cmax i j : Nat} (hi : i < rmax - rmin) (hj : j < cmax - cmin) :
    (A.submatrix rmin cmin rmax cmax).entry i j = A.entry (rmin + i) (cmin + j) := Mat.entry_of _ hi hj

theorem Mat.entry_augment (A B : Mat) {i j : Nat} (hi : i < A.rows) (hj : j < A.cols + B.cols) :
    (A.augment B).entry i j = if j < A.cols then A.entry i j else B.entry i (j - A.cols) := Mat.entry_of _ hi hj

/-! ## What `invert` answers -/

/-- The vectors `x` over `y`. -/
def stack (n : Nat) (x y : Nat → Byte) (j : Nat) : Byte := if j < n then x j else y (j - n)

section
variable {n m : Nat} {A : Nat → Nat → Byte} {x y z : Nat → Byte}

theorem stack_left {j : Nat} (hj : j < n) : stack n x y j = x j := if_pos hj
theorem stack_right (n : Nat) (x y : Nat → Byte) (j : Nat) : stack n x y (n + j) = y j := by simp [stack]

theorem matVec_stack (i : Nat) : matVec (n + m) A (stack n x y) i
    = matVec n A x i ^^^ matVec m (fun i j => A i (n + j)) y i := by
  rw [matVec, xorSum_add]
  congr 1
  · exact xorSum_congr fun j hj => by rw [stack_left hj]
  · exact xorSum_congr fun j _ => by rw [stack_right]

/-- The identity keeps every vector. -/
theorem matVec_of_unit {i : Nat} (hi : i < n) (h : ∀ j, j < n → A i j = unitVec j i) : matVec n A x i = x i := by
  rw [← xorSum_ite_eq hi x]
  refine xorSum_congr fun j hj => ?_
  rw [h j hj, unitVec]
  split
  · exact one_gfMul _
  · exact gfMul_zero_left _

theorem matVec_zero (i : Nat) : matVec n A (fun _ => 0#8) i = 0#8 := by
  simp only [matVec, gfMul_zero_right, xorSum_zero]

/-- The work matrix `[A | I]` of R179. -/
def workMat (n : Nat) (A : Nat → Nat → Byte) : List (List Byte) := ((Mat.of n n A).augment (Mat.identity n)).data

theorem rect_workMat : Rect n (n + n) (workMat n A) := Mat.rect_of _

/-- `[A | I]` kills `x` over `y` when `A x = y`. -/
theorem kills_workMat : Kills n (n + n) (workMat n A) (stack n x y) ↔ ∀ i, i < n → matVec n A x i = y i := by
  have hcell : ∀ i c, i < n → c < n + n → cell (workMat n A) i c
      = if c < n then (Mat.of n n A).entry i c else (Mat.identity n).entry i (c - n) :=
    fun i c hi hc => Mat.entry_of _ hi hc
  refine forall₂_congr fun i hi => ?_
  have hleft : matVec n (cell (workMat n A)) x i = matVec n A x i := matVec_congr (fun j hj => by
    rw [hcell i j hi (by omega), if_pos hj, Mat.entry_of _ hi hj]) fun _ _ => rfl
  have hright : matVec n (fun i j => cell (workMat n A) i (n + j)) y i = y i := matVec_of_unit hi fun j hj => by
    rw [hcell i (n + j) hi (by omega), if_neg (by omega), Nat.add_sub_cancel_left]
    exact Mat.entry_of _ hi hj
  rw [matVec_stack, hleft, hright, BitVec.xor_eq_zero_iff]

/-- `[I | D]` kills `x` over `y` when `x = D y`. -/
theorem kills_reduced {v : List (List Byte)} (hunit : ∀ i c, i < n → c < n → cell v i c = unitVec c i) :
    Kills n (n + n) v (stack n x y) ↔ ∀ i, i < n → x i = matVec n (fun i j => cell v i (n + j)) y i := by
  refine forall₂_congr fun i hi => ?_
  rw [matVec_stack, matVec_of_unit hi (fun j hj => hunit i j hi hj), BitVec.xor_eq_zero_iff]

theorem invert_of_singular (h : forwardPass (List.range n) (workMat n A) = none) : (Mat.of n n A).invert = none := by
  rw [workMat] at h
  simp only [Mat.invert, gaussJordan, Mat.of_rows, h]

theorem invert_of_forwardPass {w : List (List Byte)} (h : forwardPass (List.range n) (workMat n A) = some w) :
    (Mat.of n n A).invert = some (Mat.submatrix ⟨n, 2 * n, backwardPass (List.range n) w⟩ 0 n n (2 * n)) := by
  rw [workMat] at h
  simp only [Mat.invert, gaussJordan, Mat.of_rows, h]

/-- D solves every system of A: `A x = y` exactly when `x = D y`. -/
def Solves (n : Nat) (A D : Nat → Nat → Byte) : Prop :=
  ∀ x y : Nat → Byte, (∀ i, i < n → matVec n A x i = y i) ↔ ∀ i, i < n → x i = matVec n D y i

/-- With the first `q` columns unit vectors and column `q` zero from row `q` on, column `q` over 1 is a vector that
every row kills. -/
theorem kills_column {q : Nat} {v : List (List Byte)} (hq : q < m)
    (hunit : ∀ i c, i < n → c < q → cell v i c = unitVec c i) (hzero : ∀ i, q ≤ i → i < n → cell v i q = 0#8) :
    Kills n m v (stack q (cell v · q) (unitVec 0)) := by
  intro i hi
  obtain ⟨k, rfl⟩ := Nat.exists_eq_add_of_lt hq
  rw [Nat.add_assoc, matVec_stack, matVec_unitVec (Nat.succ_pos k), BitVec.xor_eq_zero_iff]
  rcases Nat.lt_or_ge i q with hiq | hqi
  · exact matVec_of_unit hiq fun j hj => hunit i j hi hj
  · rw [Nat.add_zero, hzero i hqi hi, matVec, xorSum_congr fun j hj => ?_, xorSum_zero]
    rw [hunit i j hi hj, unitVec, if_neg (by omega), gfMul_zero_left]

/-- R179: `invert` answers an n × n matrix that solves every system, or A sends some vector to 0 that is not 0. -/
theorem invert_cases (n : Nat) (A : Nat → Nat → Byte) :
    (∃ D, (Mat.of n n A).invert = some D ∧ D.rows = n ∧ D.cols = n ∧ Solves n A D.entry)
      ∨ ((Mat.of n n A).invert = none ∧ ∃ x q, q < n ∧ x q ≠ 0#8 ∧ ∀ i, i < n → matVec n A x i = 0#8) := by
  have hpass := forwardPass_cases (Nat.zero_add n) (rect_workMat (A := A)) fun c hc => absurd hc c.not_lt_zero
  rw [← List.range_eq_range'] at hpass
  rcases hpass with ⟨w, hw, heq, hE⟩ | ⟨hnone, w, q, hq, heq, hE, hzero⟩
  · obtain ⟨v, hv, heq', hunit, -⟩ := backwardPass_reduces heq.rect hE le_rfl
    refine .inl ⟨_, invert_of_forwardPass hw, Nat.sub_zero n, by rw [Mat.submatrix_cols]; omega, fun x y => ?_⟩
    rw [← kills_workMat, (heq.trans heq').kills, kills_reduced hunit, hv]
    refine forall₂_congr fun i hi => ?_
    rw [matVec_congr (fun j hj => ?_) fun _ _ => rfl]
    rw [Mat.entry_submatrix _ (by omega) (by omega), Nat.zero_add]
    rfl
  · obtain ⟨v, -, heq', hunit, hrows⟩ := backwardPass_reduces heq.rect hE hq.le
    have hkills := kills_column (m := n + n) (by omega) hunit fun i hqi hi => (hrows i hqi q).trans (hzero i hqi hi)
    have hstack : stack q (cell v · q) (unitVec 0) = stack n (stack q (cell v · q) (unitVec 0)) fun _ => 0#8 := by
      funext j
      by_cases hj : j < n
      · rw [stack_left hj]
      · rw [stack, stack, if_neg (by omega), if_neg hj, unitVec, if_neg (by omega)]
    rw [← (heq.trans heq').kills, hstack, kills_workMat] at hkills
    refine .inr ⟨invert_of_singular hnone, _, q, hq, ?_, hkills⟩
    simp [stack, unitVec]

theorem invert_solves {D : Mat} (h : (Mat.of n n A).invert = some D) :
    D.rows = n ∧ D.cols = n ∧ Solves n A D.entry := by
  rcases invert_cases n A with ⟨D', hD', hshape⟩ | ⟨hnone, -⟩
  · rw [h] at hD'
    rwa [Option.some.inj hD']
  · rw [h] at hnone
    cases hnone

end

/-! ## Inverses (R179, R186) -/

section
variable {n : Nat} {A B D : Nat → Nat → Byte}

/-- What solves every system is an inverse on the right: column `j` of D solves the system of unit vector `j`. -/
theorem Solves.mul_right (h : Solves n A D) {i j : Nat} (hi : i < n) (hj : j < n) :
    matVec n A (D · j) i = unitVec j i :=
  (h (D · j) (unitVec j)).2 (fun _ _ => (matVec_unitVec hj).symm) i hi

/-- And on the left: unit vector `j` solves the system of column `j` of A. -/
theorem Solves.mul_left (h : Solves n A D) {i j : Nat} (hi : i < n) (hj : j < n) :
    matVec n D (A · j) i = unitVec j i :=
  ((h (unitVec j) (A · j)).1 (fun _ _ => matVec_unitVec hj) i hi).symm

/-- A vector of `n` bytes, with 0 after them. -/
def extendVec (x : Fin n → Byte) (i : Nat) : Byte := if h : i < n then x ⟨i, h⟩ else 0#8

theorem extendVec_of_lt (x : Nat → Byte) {i : Nat} (hi : i < n) : extendVec (fun j : Fin n => x j) i = x i := dif_pos hi

/-- A as a map of the finitely many vectors of `n` bytes. -/
def vecMap (n : Nat) (A : Nat → Nat → Byte) (x : Fin n → Byte) (i : Fin n) : Byte := matVec n A (extendVec x) i

theorem vecMap_restrict (x : Nat → Byte) (i : Fin n) : vecMap n A (fun j => x j) i = matVec n A x i :=
  matVec_congr (fun _ _ => rfl) fun _ hj => extendVec_of_lt x hj

/-- With an inverse on the right A reaches every vector, so it sends no two to one. -/
theorem vecMap_injective (hB : ∀ i j, i < n → j < n → matVec n A (B · j) i = unitVec j i) :
    Function.Injective (vecMap n A) := by
  refine Finite.injective_iff_surjective.2 fun y => ⟨fun j => matVec n B (extendVec y) j, funext fun i => ?_⟩
  rw [vecMap_restrict, matVec_matVec, matVec_of_unit i.isLt fun j hj => hB i j i.isLt hj]
  exact dif_pos i.isLt

/-- With an inverse on the right a vector is known from its product with A. -/
theorem eq_of_matVec_eq (hB : ∀ i j, i < n → j < n → matVec n A (B · j) i = unitVec j i) {x y : Nat → Byte}
    (h : ∀ i, i < n → matVec n A x i = matVec n A y i) {i : Nat} (hi : i < n) : x i = y i := by
  have hxy : (fun j : Fin n => x j) = fun j : Fin n => y j :=
    vecMap_injective hB (funext fun i => by rw [vecMap_restrict, vecMap_restrict, h i i.isLt])
  exact congrFun hxy ⟨i, hi⟩

end

/-- Settles O43: the answer solves every system, so it is an inverse on both sides. -/
theorem invertGivesInverse : Obligations.InvertGivesInverse := by
  intro n A D h
  obtain ⟨hrows, hcols, hsolves⟩ := invert_solves h
  exact ⟨hrows, hcols, fun i j hi hj => ⟨hsolves.mul_right hi hj, hsolves.mul_left hi hj⟩⟩

/-- Settles O44: a matrix with an inverse on the right sends no vector but 0 to 0, so a pivot is always found; and its
inverse on the right is unique. -/
theorem invertFindsEveryInverse : Obligations.InvertFindsEveryInverse := by
  intro n A B hB
  rcases invert_cases n A with ⟨D, hD, -, -, hsolves⟩ | ⟨-, x, q, hq, hx, hAx⟩
  · refine ⟨D, hD, fun i j hi hj => eq_of_matVec_eq hB (x := (D.entry · j)) (y := (B · j)) (fun t ht => ?_) hi⟩
    exact (hsolves.mul_right ht hj).trans (hB t j ht hj).symm
  · exact absurd (eq_of_matVec_eq hB (fun i hi => (hAx i hi).trans (matVec_zero i).symm) hq) hx

/-! ## Shapes (R170), and the preconditions of the primitives (R172) -/

section
variable {A B C : Mat}

theorem requireSpec_error {ok : Bool} {what : String} (h : ok = false) :
    requireSpec ok what = .error (.fault (.specBug what)) := by simp [requireSpec, h]

/-- R170's invariant. -/
theorem Mat.wf_iff : A.wf = true ↔ 1 ≤ A.rows ∧ 1 ≤ A.cols ∧ Rect A.rows A.cols A.data := by
  have hrect : Rect A.rows A.cols A.data ↔ A.data.length = A.rows ∧ ∀ row ∈ A.data, row.length = A.cols :=
    ⟨fun h => ⟨h.rows, h.cols⟩, fun h => ⟨h.1, h.2⟩⟩
  simp [Mat.wf, hrect, and_assoc]

theorem Mat.of_congr {r c : Nat} {f g : Nat → Nat → Byte} (h : ∀ i j, i < r → j < c → f i j = g i j) :
    Mat.of r c f = Mat.of r c g := by
  simp only [Mat.of, Mat.mk.injEq, true_and]
  exact List.map_congr_left fun i hi => List.map_congr_left fun j hj =>
    h i j (List.mem_range.1 hi) (List.mem_range.1 hj)

/-- A matrix is known from its shape and its elements. -/
theorem Mat.of_entry (h : A.wf = true) : Mat.of A.rows A.cols A.entry = A := by
  obtain ⟨-, -, hrect⟩ := Mat.wf_iff.1 h
  have hdata : (Mat.of A.rows A.cols A.entry).data = A.data := by
    refine List.ext_getElem (by simp [Mat.of, hrect.rows]) fun i hi hi' => ?_
    have hlen := hrect.cols _ (List.getElem_mem hi')
    refine List.ext_getElem (by simp [Mat.of, hlen]) fun j hj hj' => ?_
    simp [Mat.of, Mat.entry, cell, hi', hj']
  exact congrArg (Mat.mk A.rows A.cols) hdata

theorem matAugment_eq_ok (h : matAugment A B = .ok C) : C = A.augment B := by
  obtain ⟨_, _, h⟩ := bind_eq_ok.1 h
  cases h
  rfl

theorem matAugment_error (h : A.rows ≠ B.rows) : matAugment A B = .error (.fault (.specBug "augment")) := by
  rw [matAugment, requireSpec_error (by simpa using h), error_bind]

theorem matSubmatrix_error {a b c d : Nat} (h : ¬ (a < c ∧ c ≤ A.rows ∧ b < d ∧ d ≤ A.cols)) :
    matSubmatrix A a b c d = .error (.fault (.specBug "submatrix")) := by
  have hspec : (a < c && c ≤ A.rows && b < d && d ≤ A.cols : Bool) = false := by
    rw [Bool.eq_false_iff]
    simpa [and_assoc] using h
  rw [matSubmatrix, requireSpec_error hspec, error_bind]

/-- R186: the left part of an augmented matrix is the matrix. -/
theorem Mat.submatrix_augment (h : A.wf = true) (B : Mat) : (A.augment B).submatrix 0 0 A.rows A.cols = A := by
  refine Eq.trans (Mat.of_congr fun i j hi hj => ?_) (Mat.of_entry h)
  rw [Nat.zero_add, Nat.zero_add, Mat.entry_augment _ _ hi (by omega), if_pos (by omega)]

end

/-- Settles O39: each primitive checks its precondition, and answers its matrix when that holds. -/
theorem augmentAndSubmatrixRule : Obligations.AugmentAndSubmatrixRule := by
  refine ⟨fun A B => matAugment_error, fun A B h => ?_, fun A _ _ _ _ => matSubmatrix_error,
    fun A _ _ _ _ hr hrA hc hcA => ?_, fun A B hA h => ?_⟩
  · exact ⟨_, matAugment_ok h, rfl, rfl, fun _ _ => Mat.entry_augment A B⟩
  · exact ⟨_, matSubmatrix_ok hr hrA hc hcA, rfl, rfl, fun _ _ => Mat.entry_submatrix A⟩
  · obtain ⟨hrows, hcols, -⟩ := Mat.wf_iff.1 hA
    refine ⟨_, matAugment_ok h, ?_⟩
    have hsub := matSubmatrix_ok (A := A.augment B) hrows le_rfl hcols (Nat.le_add_right A.cols B.cols)
    rwa [Mat.submatrix_augment hA] at hsub

section
variable {A B C : Mat}

/-- A product has a row and a column when its left factor has a row and its right factor a column. -/
theorem matMul_wf (h : matMul A B = .ok C) (hA : 1 ≤ A.rows) (hB : 1 ≤ B.cols) : C.wf = true := by
  rw [matMul_eq_ok h]
  exact Mat.of_wf hA hB _

theorem matAugment_wf (h : matAugment A B = .ok C) (hA : A.wf = true) : C.wf = true := by
  obtain ⟨hrows, hcols, -⟩ := Mat.wf_iff.1 hA
  rw [matAugment_eq_ok h]
  exact Mat.of_wf hrows (Nat.le_add_right_of_le hcols) _

/-- The bounds of a submatrix that was answered leave a row and a column. -/
theorem matSubmatrix_bounds {a b c d : Nat} (h : matSubmatrix A a b c d = .ok C) :
    a < c ∧ c ≤ A.rows ∧ b < d ∧ d ≤ A.cols := by
  obtain ⟨_, hspec, -⟩ := bind_eq_ok.1 h
  simpa [and_assoc] using requireSpec_eq_ok.1 hspec

theorem matSubmatrix_wf {a b c d : Nat} (h : matSubmatrix A a b c d = .ok C) : C.wf = true := by
  obtain ⟨hrows, -, hcols, -⟩ := matSubmatrix_bounds h
  rw [matSubmatrix_eq_ok h]
  exact Mat.of_wf (by omega) (by omega) _

theorem matPick_wf {is : List Nat} (h : matPick A is = .ok C) (hA : A.wf = true) : C.wf = true := by
  obtain ⟨-, hcols, -⟩ := Mat.wf_iff.1 hA
  obtain ⟨_, hspec, h⟩ := bind_eq_ok.1 h
  cases h
  exact Mat.of_wf (of_decide_eq_true (Bool.and_eq_true_iff.1 (requireSpec_eq_ok.1 hspec)).1) hcols _

theorem Mat.put_wf {r c : Nat} {v : Byte} (h : A.put r c v = .ok C) (hA : A.wf = true) : C.wf = true := by
  obtain ⟨hrows, hcols, hrect⟩ := Mat.wf_iff.1 hA
  obtain ⟨_, hspec, h⟩ := bind_eq_ok.1 h
  cases h
  have hr : r < A.rows := of_decide_eq_true (Bool.and_eq_true_iff.1 (requireSpec_eq_ok.1 hspec)).1
  exact Mat.wf_iff.2 ⟨hrows, hcols, hrect.set (by rw [List.length_set, hrect.length_getD hr]) r⟩

/-- `invert` answers a submatrix. -/
theorem matInvert_wf (h : matInvert A = .ok C) : C.wf = true := by
  obtain ⟨_, _, h⟩ := bind_eq_ok.1 h
  obtain ⟨W, _, h⟩ := bind_eq_ok.1 h
  split at h
  · cases h
  · exact matSubmatrix_wf h

/-- `build_G` answers a product of the Vandermonde matrix, which has a row since its top part has one, and an
inverse. -/
theorem buildG_wf {mode : VandMode} {k m : Nat} (h : buildG mode k m = .ok C) : C.wf = true := by
  obtain ⟨T, hT, h⟩ := bind_eq_ok.1 h
  obtain ⟨Ti, hTi, h⟩ := bind_eq_ok.1 h
  obtain ⟨htop, hrows, -⟩ := matSubmatrix_bounds hT
  obtain ⟨-, hcols, -⟩ := Mat.wf_iff.1 (matInvert_wf hTi)
  exact matMul_wf h (htop.trans_le hrows) hcols

end

/-- Settles O40: each primitive that answers a matrix has checked, or been given, a row and a column. -/
theorem matricesHaveRowsAndColumns : Obligations.MatricesHaveRowsAndColumns := by
  refine ⟨fun A B C hA hB h => ?_, fun _ _ _ _ => buildG_wf⟩
  rcases h with h | h | ⟨_, _, _, _, h⟩ | ⟨_, h⟩ | ⟨_, _, _, h⟩ | h
  · exact matMul_wf h (Mat.wf_iff.1 hA).1 (Mat.wf_iff.1 hB).2.1
  · exact matAugment_wf h hA
  · exact matSubmatrix_wf h
  · exact matPick_wf h hA
  · exact Mat.put_wf h hA
  · exact matInvert_wf h

/-! ## Operands (R180, R181) -/

section
variable {s : State}

theorem Dims.legal_iff {d : Dims} : d.legal = true ↔ DimsOk d := by simp [Dims.legal, DimsOk, and_assoc]

theorem Dims.legal_eq_false {d : Dims} (h : ¬ DimsOk d) : d.legal = false := by
  rwa [← Dims.legal_iff, Bool.not_eq_true] at h

/-- A rectangle of a bank whose bytes all hold values reads as the matrix of those values. -/
theorem State.bank_ok {space : Space} {d : Dims} (hd : DimsOk d) {f : Nat → Nat → Byte}
    (h : ∀ r c, r < d.rows.toNat → c < d.cols.toNat → s.byteAt space ⟨r, c⟩ = some (f r c)) :
    s.bank space d = .ok (Mat.of d.rows.toNat d.cols.toNat f) := by
  obtain ⟨hr, -, hc, -⟩ := hd
  have hblock := State.readBlock_ok (s := s) (space := space) (rows := List.range d.rows.toNat) (col0 := 0)
    (by rwa [List.length_range]) hc fun o ho c hcc => by
      rw [List.length_range] at ho
      simpa [List.getD_eq_getElem?_getD, ho] using h o c ho hcc
  rwa [List.length_range] at hblock

theorem collect_ok_of_mem {α β ε : Type} {f : α → Except ε β} {l : List α} {ys : List β} (h : collect f l = .ok ys)
    {a : α} (ha : a ∈ l) : ∃ b, f a = .ok b := by
  obtain ⟨hlen, hget⟩ := List.forall₂_iff_get.1 (collect_eq_ok.1 h)
  obtain ⟨i, hi, rfl⟩ := List.getElem_of_mem ha
  exact ⟨_, hget i hi (hlen ▸ hi)⟩

/-- Every byte of a block that was read holds a value. -/
theorem State.byteAt_of_readBlock {space : Space} {rows : List Nat} {col0 cols : Nat} {A : Mat}
    (h : s.readBlock space rows col0 cols = .ok A) {r c : Nat} (hr : r ∈ rows) (hc : c < cols) :
    s.byteAt space ⟨r, col0 + c⟩ ≠ none := by
  obtain ⟨_, _, h⟩ := bind_eq_ok.1 h
  split at h
  · cases h
  · rename_i data hdata
    obtain ⟨line, hline⟩ := collect_ok_of_mem hdata hr
    obtain ⟨b, hb⟩ := collect_ok_of_mem hline (List.mem_range.2 hc)
    rw [State.memRead_ok.1 hb]
    exact Option.some_ne_none b

/-- Reading a rectangle of a bank gives a matrix, all of its bytes holding values, or stops on a byte that holds
`none`. -/
theorem State.bank_cases (s : State) (space : Space) {d : Dims} (hd : DimsOk d) :
    (∃ A, s.bank space d = .ok A ∧ ∀ r c, r < d.rows.toNat → c < d.cols.toNat → s.byteAt space ⟨r, c⟩ ≠ none)
      ∨ ∃ a, s.bank space d = .error (.fault (.unwrittenRead space a)) ∧ s.byteAt space a = none := by
  obtain ⟨hr, -, hc, -⟩ := hd
  cases hbank : s.bank space d with
  | ok A =>
    refine .inl ⟨A, rfl, fun r c hrr hcc => ?_⟩
    simpa using State.byteAt_of_readBlock hbank (List.mem_range.2 hrr) hcc
  | error e =>
    obtain ⟨r, -, c, -, hnone, rfl⟩ := State.readBlock_error (by rwa [List.length_range]) hc hbank
    exact .inr ⟨_, rfl, hnone⟩

theorem stopsUnwritten_of_rule {i : Instr} {space : Space} {a : Addr}
    (h : ruleOf i s = .error (.fault (.unwrittenRead space a))) (ha : s.byteAt space a = none) : StopsUnwritten i s :=
  ⟨space, a, by rw [exec_eq_finish, h, finish_modelFault], ha⟩

end

/-! ## The result in MATC and its shape in MDIMC (R182 to R185) -/

section
variable {s : State} {C : Mat}

/-- The result's rectangle of MATC holds the result. -/
theorem State.byteAt_storeResult_same (hc : C.cols ≤ 256) {r c : Nat} (hr : r < C.rows) (hcc : c < C.cols) :
    (s.storeResult C).byteAt .matC ⟨r, c⟩ = some (C.entry r c) := by
  have hblock := State.byteAt_writeBlock_same (s := s) (space := .matC) (by decide) (List.nodup_range (n := C.rows))
    (col0 := 0) (A := C) (by omega) (by rwa [List.length_range]) hcc
  rw [List.getD_eq_getElem _ _ (by rwa [List.length_range]), List.getElem_range, Nat.zero_add] at hblock
  exact hblock

theorem State.byteAt_storeResult_other (hc : C.cols ≤ 256) {a : Addr} (ha : legalAddr s.lmax .matC a = true)
    (hout : ¬ (a.row < C.rows ∧ a.col < C.cols)) : (s.storeResult C).byteAt .matC a = s.byteAt .matC a :=
  State.byteAt_writeBlock_other (s := s) (by decide) (by omega) (State.legalAddr_col ha) (by simpa using hout)

/-- ROWS and COLS in the word of a dimension register (10_state.md R37). -/
theorem Dims.word_ofNat {r c : Nat} (hr : r ≤ 256) (hc : c ≤ 256) :
    Dims.word ⟨BitVec.ofNat 9 r, BitVec.ofNat 9 c⟩ = BitVec.ofNat 32 (c * 2 ^ 16 + r) := by
  have hor : r ||| c <<< 16 = c * 65536 + r := by
    rw [Nat.or_comm, ← Nat.shiftLeft_add_eq_or_of_lt (by omega), Nat.shiftLeft_eq]
  apply BitVec.eq_of_toNat_eq
  simp (disch := omega) [Dims.word, pairWord, fieldAt, Nat.mod_eq_of_lt, hor]

/-- A matrix command that stores its result succeeds, and this is all it changes (R183, R185). -/
theorem storeResult_succeeds {i : Instr} (h : ruleOf i s = .ok (s.storeResult C)) (hr : C.rows ≤ 256)
    (hc : C.cols ≤ 256) :
    ∃ t, SucceedsTo i s t ∧ (∀ r c, r < C.rows → c < C.cols → t.byteAt .matC ⟨r, c⟩ = some (C.entry r c))
      ∧ (∀ a, legalAddr s.lmax .matC a = true → ¬ (a.row < C.rows ∧ a.col < C.cols) →
          t.byteAt .matC a = s.byteAt .matC a)
      ∧ t.regWord 21 = BitVec.ofNat 32 (C.cols * 2 ^ 16 + C.rows) ∧ Frame [2, 21] [.matC] s t := by
  have hdone := frame_completeOk (s.storeResult C)
  have hbyte := hdone.byteAt_eq (space := .matC) (by simp)
  have hcfg : (s.storeResult C).regs.status.cfgValid = s.regs.status.cfgValid := by
    simp [State.storeResult, State.writeBlock]
  refine ⟨_, succeedsTo_of_rule h hcfg, fun r c hrr hcc => ?_, fun a ha hout => ?_, Dims.word_ofNat hr hc,
    ((frame_storeResult s C).mono (by simp) (by simp)).trans (hdone.mono (by simp) (by simp))⟩
  · rw [hbyte, State.byteAt_storeResult_same hc hrr hcc]
  · rw [hbyte, State.byteAt_storeResult_other hc ha hout]

end

/-! ## MAT_MUL (R182) -/

section
variable {s : State}

/-- With its dimensions accepted MAT_MUL is its reads, the product, and the store. -/
theorem ruleOf_matMul (hA : DimsOk s.regs.mdima) (hB : DimsOk s.regs.mdimb)
    (hd : s.regs.mdima.cols = s.regs.mdimb.rows) : ruleOf .matMul s = (do
      let A ← s.bank .matA s.regs.mdima
      let B ← s.bank .matB s.regs.mdimb
      let C ← matMul A B
      .ok (s.storeResult C)) := by
  have hlegal : (s.regs.mdima.legal && s.regs.mdimb.legal) = true := by simp [Dims.legal_iff, hA, hB]
  rw [ruleOf, matMulRule, require_ok hlegal, ok_bind, require_ok (by simpa using hd), ok_bind]

theorem matMul_dimensions_fail (h : ¬ (DimsOk s.regs.mdima ∧ DimsOk s.regs.mdimb)) : FailsWith .matMul s 2 := by
  have hlegal : (s.regs.mdima.legal && s.regs.mdimb.legal) = false := by
    rwa [Bool.eq_false_iff, ne_eq, Bool.and_eq_true, Dims.legal_iff, Dims.legal_iff]
  exact failsWith_of_rule (e := .shapeMismatch) (by rw [ruleOf, matMulRule, require_error hlegal, error_bind])

theorem matMul_mismatch_fails (hA : DimsOk s.regs.mdima) (hB : DimsOk s.regs.mdimb)
    (hd : s.regs.mdima.cols ≠ s.regs.mdimb.rows) : FailsWith .matMul s 2 := by
  have hlegal : (s.regs.mdima.legal && s.regs.mdimb.legal) = true := by simp [Dims.legal_iff, hA, hB]
  refine failsWith_of_rule (e := .shapeMismatch) ?_
  rw [ruleOf, matMulRule, require_ok hlegal, ok_bind, require_error (by simpa using hd), error_bind]

theorem matMul_stopsUnwritten (hA : DimsOk s.regs.mdima) (hB : DimsOk s.regs.mdimb)
    (hd : s.regs.mdima.cols = s.regs.mdimb.rows)
    (h : ∃ r c, (r < s.regs.mdima.rows.toNat ∧ c < s.regs.mdima.cols.toNat ∧ s.byteAt .matA ⟨r, c⟩ = none)
      ∨ (r < s.regs.mdimb.rows.toNat ∧ c < s.regs.mdimb.cols.toNat ∧ s.byteAt .matB ⟨r, c⟩ = none)) :
    StopsUnwritten .matMul s := by
  have hrule := ruleOf_matMul hA hB hd
  rcases s.bank_cases .matA hA with ⟨A, hbankA, hfullA⟩ | ⟨a, hbankA, hnone⟩
  · rcases s.bank_cases .matB hB with ⟨B, hbankB, hfullB⟩ | ⟨a, hbankB, hnone⟩
    · obtain ⟨r, c, ⟨hr, hc, hnone⟩ | ⟨hr, hc, hnone⟩⟩ := h
      · exact absurd hnone (hfullA r c hr hc)
      · exact absurd hnone (hfullB r c hr hc)
    · rw [hbankA, ok_bind, hbankB, error_bind] at hrule
      exact stopsUnwritten_of_rule hrule hnone
  · rw [hbankA, error_bind] at hrule
    exact stopsUnwritten_of_rule hrule hnone

end

/-- Settles O41: the checks in the rule's order, then the reads, and the product stored. -/
theorem matMulRule_holds : Obligations.MatMulRule := by
  refine ⟨by decide, fun s => ⟨matMul_dimensions_fail, matMul_mismatch_fails, fun ar ac bc hA hB har hac hbr hbc => ?_⟩⟩
  have hd : s.regs.mdima.cols = s.regs.mdimb.rows := BitVec.eq_of_toNat_eq (hac.trans hbr.symm)
  refine ⟨fun h => matMul_stopsUnwritten hA hB hd (by rwa [har, hac, hbr, hbc]), fun A B hbytesA hbytesB => ?_⟩
  subst har hac hbc
  have hrule := ruleOf_matMul hA hB hd
  have hbankB := State.bank_ok hB (hbr ▸ hbytesB)
  rw [State.bank_ok hA hbytesA, ok_bind, hbankB, ok_bind, matMul, requireSpec_ok (by simpa using hbr.symm), ok_bind,
    ok_bind] at hrule
  obtain ⟨-, hrows, -, -⟩ := hA
  obtain ⟨-, -, -, hcols⟩ := hB
  obtain ⟨t, hsucc, hsame, hother, hshape, hframe⟩ := storeResult_succeeds hrule hrows hcols
  refine ⟨t, hsucc, fun r c hr hc => ?_, hother, hshape, hframe⟩
  rw [hsame r c hr hc, Mat.entry_mul _ _ hr hc]
  refine congrArg some (xorSum_congr fun i (hi : i < s.regs.mdima.cols.toNat) => ?_)
  rw [Mat.entry_of _ hr hi, Mat.entry_of _ (hbr.symm ▸ hi) hc]

/-! ## MAT_INV (R184) -/

section
variable {s : State}

/-- With its dimension accepted MAT_INV is its read, the inversion, and the store. -/
theorem ruleOf_matInv (hA : DimsOk s.regs.mdima) (hd : s.regs.mdima.rows = s.regs.mdima.cols) :
    ruleOf .matInv s = (do
      let A ← s.bank .matA s.regs.mdima
      let R ← matInvert A
      .ok (s.storeResult R)) := by
  rw [ruleOf, matInvRule, require_ok (Dims.legal_iff.2 hA), ok_bind, require_ok (by simpa using hd), ok_bind]

theorem matInv_dimension_fails (h : ¬ DimsOk s.regs.mdima) : FailsWith .matInv s 2 :=
  failsWith_of_rule (e := .shapeMismatch)
    (by rw [ruleOf, matInvRule, require_error (Dims.legal_eq_false h), error_bind])

theorem matInv_not_square_fails (hA : DimsOk s.regs.mdima) (hd : s.regs.mdima.rows ≠ s.regs.mdima.cols) :
    FailsWith .matInv s 2 := by
  refine failsWith_of_rule (e := .shapeMismatch) ?_
  rw [ruleOf, matInvRule, require_ok (Dims.legal_iff.2 hA), ok_bind, require_error (by simpa using hd), error_bind]

theorem matInv_stopsUnwritten (hA : DimsOk s.regs.mdima) (hd : s.regs.mdima.rows = s.regs.mdima.cols)
    (h : ∃ r c, r < s.regs.mdima.rows.toNat ∧ c < s.regs.mdima.cols.toNat ∧ s.byteAt .matA ⟨r, c⟩ = none) :
    StopsUnwritten .matInv s := by
  have hrule := ruleOf_matInv hA hd
  rcases s.bank_cases .matA hA with ⟨A, hbank, hfull⟩ | ⟨a, hbank, hnone⟩
  · obtain ⟨r, c, hr, hc, hnone⟩ := h
    exact absurd hnone (hfull r c hr hc)
  · rw [hbank, error_bind] at hrule
    exact stopsUnwritten_of_rule hrule hnone

end

/-- Settles O42: the checks in the rule's order, then the read and R179's elimination, and its answer stored. -/
theorem matInvRule_holds : Obligations.MatInvRule := by
  refine ⟨by decide, fun s => ⟨matInv_dimension_fails, matInv_not_square_fails, fun n hA hrows hcols => ?_⟩⟩
  have hd : s.regs.mdima.rows = s.regs.mdima.cols := BitVec.eq_of_toNat_eq (hrows.trans hcols.symm)
  refine ⟨fun h => matInv_stopsUnwritten hA hd (by rwa [hrows, hcols]), fun A hbytes => ?_⟩
  have hrule := ruleOf_matInv hA hd
  rw [State.bank_ok (f := A) hA (by rwa [hrows, hcols]), ok_bind, hrows, hcols] at hrule
  obtain ⟨hpos, hle, -, -⟩ := hA
  rw [hrows] at hpos hle
  rw [matInvert_eq (A := Mat.of n n A) rfl hpos] at hrule
  refine ⟨fun hnone => ?_, fun D hD => ?_⟩
  · rw [hnone, error_bind] at hrule
    exact failsWith_of_rule hrule
  · rw [hD, ok_bind] at hrule
    obtain ⟨hDrows, hDcols, -⟩ := invert_solves hD
    have hstored := storeResult_succeeds hrule (hDrows ▸ hle) (hDcols ▸ hle)
    rwa [hDrows, hDcols] at hstored

end Sys2Proof.Machine

/-! # Coding loop family: the loop nests, the index lists, the kernels, MV_CODE and MV_CHECK -/

namespace Sys2Proof.Machine

/-! ## Loop nests (43_coding_loop.md R210) -/

section
variable {n r c o b nIn nOut cnt : Nat} {α : Type}

theorem Mat.update_of (f : Nat → Nat → Byte) (o b : Nat) (v : Byte) :
    (Mat.of r c f).update o b v = Mat.of r c fun i j => if (o, b) = (i, j) then v else f i j := by
  simp only [Mat.of, Mat.update, Mat.mk.injEq, true_and]
  refine List.ext_getElem (by simp) fun i hi hi' => ?_
  rw [List.length_map, List.length_range] at hi'
  rcases eq_or_ne o i with rfl | hne
  · exact List.ext_getElem (by simp [hi']) fun j _ _ => by simp [List.getElem_set, hi']
  · simp [hne]

/-- What one visit of input `i` does to the accumulator of output `o` at byte `b`. -/
def accumulate (R X : Mat) (o b : Nat) (acc : Byte) (i : Nat) : Byte :=
  if i = 0 then gfMul (R.entry o i) (X.entry i b) else acc ^^^ gfMul (R.entry o i) (X.entry i b)

/-- One visit changes one accumulator. -/
theorem visit_of (method : Method) (R X : Mat) (f : Nat → Nat → Byte) (p : Nat × Nat × Nat) :
    visit method R X (Mat.of r c f) p
      = Mat.of r c fun o b => if p.2 = (o, b) then accumulate R X o b (f o b) p.1 else f o b := by
  rw [visit, Mat.update_of]
  refine Mat.of_congr fun o b ho hb => ?_
  obtain ⟨i, o', b'⟩ := p
  by_cases hp : (o', b') = (o, b)
  · obtain ⟨rfl, rfl⟩ := Prod.mk.inj hp
    simp [accumulate, mulBy_eq, Mat.entry_of f ho hb]
  · simp [hp]

/-- A run of visits is, for each accumulator, the run of its own visits. -/
theorem foldl_visit_of (method : Method) (R X : Mat) (l : List (Nat × Nat × Nat)) (f : Nat → Nat → Byte) :
    l.foldl (visit method R X) (Mat.of r c f)
      = Mat.of r c fun o b => ((l.filter (·.2 = (o, b))).map (·.1)).foldl (accumulate R X o b) (f o b) := by
  induction l generalizing f with
  | nil => rfl
  | cons p l ih =>
    rw [List.foldl_cons, visit_of, ih]
    refine Mat.of_congr fun o b _ _ => ?_
    by_cases hp : p.2 = (o, b) <;> simp [hp]

/-- Over an axis of which one position is kept, that position's part is left. -/
theorem flatMap_range_ite (ho : o < n) (f : Nat → List α) :
    (List.range n).flatMap (fun k => if k = o then f k else []) = f o := by
  induction n with
  | zero => omega
  | succ n ih =>
    rw [List.range_succ, List.flatMap_append, List.flatMap_singleton]
    rcases eq_or_ne n o with rfl | hne
    · rw [if_pos rfl, List.flatMap_eq_nil_iff.2 fun k hk => if_neg (List.mem_range.1 hk).ne, List.nil_append]
    · rw [if_neg hne, List.append_nil, ih (by omega)]

theorem flatMap_ite {β : Type} (p : Prop) [Decidable p] (l : List β) (f : β → List α) :
    l.flatMap (fun x => if p then f x else []) = if p then l.flatMap f else [] := by
  split <;> simp

/-- Every loop nest visits each accumulator once per input, in the inputs' order. -/
theorem visits_at (order : LoopOrder) (ho : o < nOut) (hb : b < cnt) :
    (visits order nIn nOut cnt).filter (·.2 = (o, b)) = (List.range nIn).map fun i => (i, o, b) := by
  cases order <;>
    simp only [visits, List.map_eq_flatMap, List.filter_flatMap, List.filter_cons, List.filter_nil, Prod.mk.injEq,
      decide_eq_true_eq, ite_and, flatMap_ite, flatMap_range_ite ho, flatMap_range_ite hb]

end

theorem foldl_accumulate (R X : Mat) (o b n : Nat) : (List.range n).foldl (accumulate R X o b) 0#8
    = xorSum n fun i => gfMul (R.entry o i) (X.entry i b) := by
  induction n with
  | zero => rfl
  | succ n ih =>
    rw [List.range_succ, List.foldl_append, ih, List.foldl_cons, List.foldl_nil, accumulate, xorSum]
    split
    next hn => simp [hn, xorSum]
    next => rfl

/-- Settles O47: each accumulator is visited once per input, in order, whatever the nest. -/
theorem loopNestsComputeTheProduct : Obligations.LoopNestsComputeTheProduct := by
  intro order method R X hd _
  rw [scheduled, Mat.zero, foldl_visit_of]
  refine Mat.of_congr fun o b ho hb => ?_
  rw [visits_at order ho hb, List.map_map, ← hd, ← foldl_accumulate]
  simp [Function.comp_def]

/-! ## Operand checks (R203, R204, R208) -/

section
variable {s : State} {b : Nat}

theorem countsOk_iff : s.regs.mvcnt.legal = true ↔ CountsOk s := by simp [Counts.legal, CountsOk, and_assoc]

theorem rangeOk_iff : rangeLegal s.lmax s.regs.off s.regs.cnt s.regs.slen.toNat = true ↔ RangeOk s := by
  simp only [rangeLegal, Bool.and_eq_true, decide_eq_true_eq, and_assoc]
  rfl

theorem tempOk_iff : tempLegal s.lmax s.regs.off s.regs.cnt s.regs.tlen.toNat = true ↔ TempOk s := by
  simp only [tempLegal, Bool.and_eq_true, decide_eq_true_eq]
  rfl

theorem RangeOk.checkRange (h : RangeOk s) : s.checkRange = .ok () := checkRange_ok.2 (rangeOk_iff.2 h)

theorem checkRange_fails (h : ¬ RangeOk s) : s.checkRange = .error (.error .rangeError) :=
  checkRange_error (Bool.eq_false_iff.2 fun hl => h (rangeOk_iff.1 hl))

theorem checkTemp_ok {useTemp : Bool} (h : useTemp = true → TempOk s) : s.checkTemp useTemp = .ok () := by
  refine require_ok ?_
  cases useTemp with
  | false => rfl
  | true => exact tempOk_iff.2 (h rfl)

theorem checkTemp_fails (h : ¬ TempOk s) : s.checkTemp true = .error (.error .rangeError) :=
  require_error (Bool.eq_false_iff.2 fun hl => h (tempOk_iff.1 hl))

/-- The byte range starts at `off` and has `cnt` bytes. -/
theorem RangeOk.inRange_iff (h : RangeOk s) :
    InRange s b ↔ s.regs.off.toNat ≤ b ∧ b < s.regs.off.toNat + s.regs.cnt.toNat := by
  obtain ⟨-, hoff, hcnt, -⟩ := h
  simp only [InRange, Regs.off, Regs.cnt]
  omega

theorem RangeOk.inRange_add (h : RangeOk s) {c : Nat} (hc : c < s.regs.cnt.toNat) :
    InRange s (s.regs.off.toNat + c) := h.inRange_iff.2 ⟨by omega, by omega⟩

theorem RangeOk.exists_add (h : RangeOk s) (hb : InRange s b) :
    ∃ c < s.regs.cnt.toNat, b = s.regs.off.toNat + c := by
  obtain ⟨hlo, hhi⟩ := h.inRange_iff.1 hb
  exact ⟨b - s.regs.off.toNat, by omega, by omega⟩

theorem cnt_ne_zero (h : 0 < sint32 s.regs.count) : s.regs.cnt.toNat ≠ 0 := by
  simp only [Regs.cnt]
  omega

theorem count_pos {c : Nat} (hc : c < s.regs.cnt.toNat) : 0 < sint32 s.regs.count := by
  simp only [Regs.cnt] at hc
  omega

end

/-! ## Parts of a rule that stop on an unwritten byte (40_command_protocol.md R127) -/

section
variable {s : State} {α β : Type} {x : Except Stop α}

/-- A part of a rule stops at a byte that holds `none`. -/
def State.Stops (s : State) (x : Except Stop α) : Prop :=
  ∃ space a, x = .error (.fault (.unwrittenRead space a)) ∧ s.byteAt space a = none

theorem State.Stops.bind (h : s.Stops x) (f : α → Except Stop β) : s.Stops (x >>= f) := by
  obtain ⟨space, a, rfl, hnone⟩ := h
  exact ⟨space, a, rfl, hnone⟩

theorem State.Stops.stopsUnwritten {i : Instr} (h : s.Stops (ruleOf i s)) : StopsUnwritten i s := by
  obtain ⟨space, a, hrule, hnone⟩ := h
  exact stopsUnwritten_of_rule hrule hnone

/-- A part that only reads has its operands or stops, so a rule stops when all that follows the part does. -/
theorem State.stops_bind (hx : (∃ a, x = .ok a) ∨ s.Stops x) {f : α → Except Stop β}
    (h : ∀ a, x = .ok a → s.Stops (f a)) : s.Stops (x >>= f) := by
  rcases hx with ⟨a, hx⟩ | hx
  · rw [hx, ok_bind]
    exact h a hx
  · exact hx.bind f

section
variable {space : Space} {rows : List Nat} {col0 cols : Nat}

theorem State.readBlock_cases (hr : rows ≠ []) (hc : cols ≠ 0) :
    (∃ A, s.readBlock space rows col0 cols = .ok A) ∨ s.Stops (s.readBlock space rows col0 cols) := by
  cases h : s.readBlock space rows col0 cols with
  | ok A => exact .inl ⟨A, rfl⟩
  | error e =>
    obtain ⟨r, -, c, -, hnone, rfl⟩ :=
      State.readBlock_error (List.length_pos_iff.2 hr) (Nat.one_le_iff_ne_zero.2 hc) h
    exact .inr ⟨_, _, rfl, hnone⟩

theorem State.readBlock_stops {r c : Nat} (hr : r ∈ rows) (hc : c < cols)
    (hnone : s.byteAt space ⟨r, col0 + c⟩ = none) : s.Stops (s.readBlock space rows col0 cols) := by
  rcases s.readBlock_cases (List.ne_nil_of_mem hr) (Nat.ne_zero_of_lt hc) with ⟨A, h⟩ | h
  · exact absurd hnone (State.byteAt_of_readBlock h hr hc)
  · exact h

end

/-! ## Index lists (10_state.md R43) -/

section
variable {space : Space} {n m : Nat} {f g : Nat → Byte}

/-- The first `n` slots that an index list with entries `f` names. -/
def slots (n : Nat) (f : Nat → Byte) : List Nat := (List.range n).map fun i => (f i).toNat

@[simp] theorem length_slots : (slots n f).length = n := by simp [slots]

theorem getD_slots {i : Nat} (hi : i < n) : (slots n f).getD i 0 = (f i).toNat := by simp [slots, hi]

theorem mem_slots {r : Nat} : r ∈ slots n f ↔ ∃ i < n, r = (f i).toNat := by simp [slots, eq_comm]

theorem slots_ne_nil : slots n f ≠ [] ↔ n ≠ 0 := by simp [slots]

theorem State.readIndices_ok (h : ∀ i, i < n → s.byteAt space ⟨0, i⟩ = some (f i)) :
    s.readIndices space n = .ok (slots n f) := by
  rw [State.readIndices, State.readLine_ok fun c hc => by simpa using h c hc]
  simp [slots]

/-- Reading an index list gives its entries, which all hold values, or stops. -/
theorem State.readIndices_cases (s : State) (space : Space) (n : Nat) :
    (∃ is, s.readIndices space n = .ok is ∧ ∀ i, i < n → s.byteAt space ⟨0, i⟩ ≠ none)
      ∨ s.Stops (s.readIndices space n) := by
  unfold State.readIndices State.readLine
  split
  next e he =>
    obtain ⟨c, -, hstop⟩ := collect_eq_error he
    obtain ⟨hnone, rfl⟩ := State.memRead_error.1 hstop
    exact .inr ⟨_, _, rfl, hnone⟩
  next bs hbs =>
    refine .inl ⟨_, rfl, fun i hi => ?_⟩
    obtain ⟨v, hv⟩ := collect_ok_of_mem hbs (List.mem_range.2 hi)
    have hbyte := State.memRead_ok.1 hv
    rw [Nat.zero_add] at hbyte
    exact hbyte ▸ Option.some_ne_none v

/-- A rule that begins with both index lists stops when an entry it reads holds `none`. -/
theorem State.indices_stop (k : List Nat → List Nat → Except Stop α)
    (h : ∃ i, (i < n ∧ s.byteAt .idxIn ⟨0, i⟩ = none) ∨ (i < m ∧ s.byteAt .idxOut ⟨0, i⟩ = none)) :
    s.Stops (do
      let ins ← s.readIndices .idxIn n
      let outs ← s.readIndices .idxOut m
      k ins outs) := by
  rcases s.readIndices_cases .idxIn n with ⟨ins, hins, hfullIn⟩ | hstop
  · rw [hins, ok_bind]
    rcases s.readIndices_cases .idxOut m with ⟨outs, -, hfullOut⟩ | hstop
    · obtain ⟨i, ⟨hi, hnone⟩ | ⟨hi, hnone⟩⟩ := h
      · exact absurd hnone (hfullIn i hi)
      · exact absurd hnone (hfullOut i hi)
    · exact hstop.bind _
  · exact hstop.bind _

/-- `mv_overlap` (R205) on the two lists' entries. -/
theorem mvOverlap_slots : mvOverlap (slots n f) (slots m g) = true
    ↔ ∃ o, o < m ∧ ((∃ i, i < n ∧ g o = f i) ∨ (∃ o', o' < m ∧ o' ≠ o ∧ g o = g o')) := by
  have hnodup : (slots m g).Nodup ↔ ∀ o, o < m → ∀ o', o' < m → g o = g o' → o = o' := by
    simp only [slots, List.nodup_map_iff_inj_on List.nodup_range, List.mem_range, BitVec.toNat_inj]
  simp only [mvOverlap, Bool.or_eq_true, Bool.not_eq_true', decide_eq_false_iff_not, hnodup, List.any_eq_true,
    List.contains_iff_mem, mem_slots]
  constructor
  · rintro (⟨r, ⟨o, ho, rfl⟩, i, hi, heq⟩ | h)
    · exact ⟨o, ho, .inl ⟨i, hi, BitVec.eq_of_toNat_eq heq⟩⟩
    · push Not at h
      obtain ⟨o, ho, o', ho', heq, hne⟩ := h
      exact ⟨o, ho, .inr ⟨o', ho', hne.symm, heq⟩⟩
  · rintro ⟨o, ho, ⟨i, hi, heq⟩ | ⟨o', ho', hne, heq⟩⟩
    · exact .inl ⟨_, ⟨o, ho, rfl⟩, i, hi, congrArg BitVec.toNat heq⟩
    · exact .inr fun h => hne (h o ho o' ho' heq).symm

/-- Output slots that are no input slots and are not named twice. -/
theorem slots_apart (hin : ∀ o i, o < m → i < n → g o ≠ f i) (hout : ∀ o o', o < m → o' < m → g o = g o' → o = o') :
    (slots m g).Nodup ∧ mvOverlap (slots n f) (slots m g) = false := by
  have hover : mvOverlap (slots n f) (slots m g) = false := by
    rw [Bool.eq_false_iff, ne_eq, mvOverlap_slots]
    rintro ⟨o, ho, ⟨i, hi, heq⟩ | ⟨o', ho', hne, heq⟩⟩
    · exact hin o i ho hi heq
    · exact hne (hout o o' ho ho' heq).symm
  refine ⟨?_, hover⟩
  simpa using (Bool.or_eq_false_iff.1 hover).2

end
end

/-! ## The kernels (R200, R202) -/

theorem matMul_ok {A B : Mat} (h : A.cols = B.rows) : matMul A B = .ok (A.mul B) := by
  rw [matMul, requireSpec_ok (by simpa using h), ok_bind]

theorem Mat.mul_of {n m k : Nat} (g x : Nat → Nat → Byte) :
    (Mat.of n m g).mul (Mat.of m k x) = Mat.of n k fun o c => xorSum m fun i => gfMul (g o i) (x i c) :=
  Mat.of_congr fun _ _ ho hc => xorSum_congr fun _ hi =>
    congrArg₂ gfMul (Mat.entry_of g ho hi) (Mat.entry_of x hi hc)

theorem Mat.eqv_of {n k : Nat} {z y : Nat → Nat → Byte} :
    (Mat.of n k z).eqv (Mat.of n k y) = true ↔ ∀ o c, o < n → c < k → z o c = y o c := by
  have heqv : (Mat.of n k z).eqv (Mat.of n k y) = true ↔ Mat.of n k z = Mat.of n k y := by
    simp [Mat.eqv, Mat.of]
  rw [heqv]
  refine ⟨fun h o c ho hc => ?_, Mat.of_congr⟩
  rw [← Mat.entry_of z ho hc, h, Mat.entry_of y ho hc]

section
variable {s : State} {rows : Except Stop Mat} {ins outs : List Nat} {off cnt : Nat} {g x z : Nat → Nat → Byte}

/-- `code` stops when the rows do, or on an input byte that holds `none`. -/
theorem State.code_stops (hcnt : cnt ≠ 0) (houts : outs ≠ [])
    (hrows : (∃ R, rows = .ok R) ∨ s.Stops rows)
    (h : s.Stops rows ∨ ∃ r ∈ ins, ∃ c < cnt, s.byteAt .shard ⟨r, off + c⟩ = none) :
    s.Stops (s.code rows ins outs off cnt) := by
  rw [State.code, if_neg (by simp [hcnt, houts])]
  rcases h with h | ⟨r, hr, c, hc, hnone⟩
  · exact h.bind _
  · exact State.stops_bind hrows fun _ _ => (State.readBlock_stops hr hc hnone).bind _

/-- `check` stops as `code` does, or on an output byte that holds `none`. -/
theorem State.check_stops (hcnt : cnt ≠ 0) (hins : ins ≠ []) (houts : outs ≠ [])
    (hrows : (∃ R, rows = .ok R) ∨ s.Stops rows) (hcols : ∀ R, rows = .ok R → R.cols = ins.length)
    (h : s.Stops rows ∨ ∃ r, (r ∈ ins ∨ r ∈ outs) ∧ ∃ c < cnt, s.byteAt .shard ⟨r, off + c⟩ = none) :
    s.Stops (s.check rows ins outs off cnt) := by
  rw [State.check, if_neg (by simp [hcnt, houts])]
  rcases h with h | ⟨r, hr | hr, c, hc, hnone⟩
  · exact h.bind _
  · exact State.stops_bind hrows fun _ _ => (State.readBlock_stops hr hc hnone).bind _
  · refine State.stops_bind hrows fun R hR => State.stops_bind (State.readBlock_cases hins hcnt) fun X hX => ?_
    have hmul := matMul_ok ((hcols R hR).trans (State.readBlock_shape hX).1.symm)
    exact State.stops_bind (.inl ⟨_, hmul⟩) fun _ _ => (State.readBlock_stops hr hc hnone).bind _

/-- `code` with its operands readable puts the products in the output slots' byte range, and changes no other byte. -/
theorem State.code_product (hins : ins ≠ []) (houts : outs.Nodup) (hend : off + cnt ≤ 2 ^ 32)
    (hrows : outs ≠ [] → cnt ≠ 0 → rows = .ok (Mat.of outs.length ins.length g))
    (hX : outs ≠ [] → ∀ i, i < ins.length → ∀ c, c < cnt → s.byteAt .shard ⟨ins.getD i 0, off + c⟩ = some (x i c)) :
    ∃ t, s.code rows ins outs off cnt = .ok t
      ∧ (∀ o c, o < outs.length → c < cnt → t.byteAt .shard ⟨outs.getD o 0, off + c⟩
          = some (xorSum ins.length fun i => gfMul (g o i) (x i c)))
      ∧ ∀ a, a.col < 2 ^ 32 → ¬ (a.row ∈ outs ∧ off ≤ a.col ∧ a.col < off + cnt) →
          t.byteAt .shard a = s.byteAt .shard a := by
  by_cases hempty : cnt = 0 ∨ outs = []
  · refine ⟨s, State.code_empty hempty, fun o c ho hc => ?_, fun _ _ _ => rfl⟩
    rcases hempty with rfl | rfl
    · omega
    · simp at ho
  · obtain ⟨hcnt, hne⟩ := not_or.1 hempty
    have hblock := State.readBlock_ok (List.length_pos_iff.2 hins) (Nat.one_le_iff_ne_zero.2 hcnt) (hX hne)
    refine ⟨_, by rw [hrows hne hcnt, State.code_ok hcnt hne hblock rfl, Mat.mul_of], fun o c ho hc => ?_,
      fun a ha hout => State.byteAt_writeBlock_other (by decide) hend ha hout⟩
    rw [State.byteAt_writeBlock_same (by decide) houts hend ho hc, Mat.entry_of _ ho hc]

/-- `check` with its operands readable is true exactly when every output byte is the product. -/
theorem State.check_product (hins : ins ≠ [])
    (hrows : outs ≠ [] → cnt ≠ 0 → rows = .ok (Mat.of outs.length ins.length g))
    (hX : outs ≠ [] → ∀ i, i < ins.length → ∀ c, c < cnt → s.byteAt .shard ⟨ins.getD i 0, off + c⟩ = some (x i c))
    (hZ : ∀ o, o < outs.length → ∀ c, c < cnt → s.byteAt .shard ⟨outs.getD o 0, off + c⟩ = some (z o c)) :
    ∃ same, s.check rows ins outs off cnt = .ok same
      ∧ (same = true
          ↔ ∀ o c, o < outs.length → c < cnt → z o c = xorSum ins.length fun i => gfMul (g o i) (x i c)) := by
  by_cases hempty : cnt = 0 ∨ outs = []
  · refine ⟨true, State.check_empty hempty, iff_of_true rfl fun o c ho hc => ?_⟩
    rcases hempty with rfl | rfl
    · omega
    · simp at ho
  · obtain ⟨hcnt, hne⟩ := not_or.1 hempty
    have hcnt' := Nat.one_le_iff_ne_zero.2 hcnt
    have hblock := State.readBlock_ok (List.length_pos_iff.2 hins) hcnt' (hX hne)
    have houtputs := State.readBlock_ok (List.length_pos_iff.2 hne) hcnt' hZ
    exact ⟨_, by rw [hrows hne hcnt, State.check_ok hcnt hne hblock houtputs rfl, Mat.mul_of], Mat.eqv_of⟩

/-- A byte of TEMP after a check: none left in the byte range if TEMP was used (R208). -/
theorem State.byteAt_spoilTemp (used : Bool) (hend : off + cnt ≤ 2 ^ 32) {a : Addr} (ha : a.col < 2 ^ 32) :
    (s.spoilTemp used off cnt).byteAt .temp a
      = if used = true ∧ a.row = 0 ∧ off ≤ a.col ∧ a.col < off + cnt then none else s.byteAt .temp a := by
  cases used with
  | false => simp [State.spoilTemp]
  | true =>
    have hmem : a ∈ (List.range cnt).map (fun b => (⟨0, off + b⟩ : Addr))
        ↔ a.row = 0 ∧ off ≤ a.col ∧ a.col < off + cnt := by
      obtain ⟨row, col⟩ := a
      simp only [List.mem_map, List.mem_range, Addr.mk.injEq]
      constructor
      · rintro ⟨b, hb, rfl, rfl⟩
        omega
      · rintro ⟨rfl, hlo, hhi⟩
        exact ⟨col - off, by omega, rfl, by omega⟩
    rw [State.spoilTemp, if_pos rfl, State.byteAt_clearAll _ ?_ ha, if_congr hmem rfl rfl]
    · simp
    · simp only [List.mem_map, List.mem_range]
      rintro _ ⟨b, hb, rfl⟩
      simp only
      omega

end

/-! ## What MV_CODE and MV_CHECK share (R204 to R207) -/

/-- Counts and a byte range that the checks accept, and index lists that name the slots. -/
structure State.MvOperands (s : State) (nIn nOut : Nat) (ins outs : Nat → Byte) : Prop where
  counts : CountsOk s
  range : RangeOk s
  inCount : s.regs.mvcnt.inCount.toNat = nIn
  outCount : s.regs.mvcnt.outCount.toNat = nOut
  inSlots : ∀ i, i < nIn → s.byteAt .idxIn ⟨0, i⟩ = some (ins i)
  outSlots : ∀ o, o < nOut → s.byteAt .idxOut ⟨0, o⟩ = some (outs o)

/-- The coding matrix in MATA, as MV_CODE and MV_CHECK read it. -/
def State.mvRows (s : State) (nIn nOut : Nat) : Except Stop Mat := s.readBlock .matA (List.range nOut) 0 nIn

section
variable {s : State} {nIn nOut : Nat} {ins outs : Nat → Byte} {g : Nat → Nat → Byte}

theorem CountsOk.inCount_ne_zero (h : CountsOk s) : s.regs.mvcnt.inCount.toNat ≠ 0 := Nat.one_le_iff_ne_zero.1 h.1

theorem State.mvRows_cases (hin : nIn ≠ 0) (hout : nOut ≠ 0) :
    (∃ R, s.mvRows nIn nOut = .ok R) ∨ s.Stops (s.mvRows nIn nOut) :=
  State.readBlock_cases (by simpa using hout) hin

theorem State.mvRows_stops {o i : Nat} (ho : o < nOut) (hi : i < nIn) (hnone : s.byteAt .matA ⟨o, i⟩ = none) :
    s.Stops (s.mvRows nIn nOut) :=
  State.readBlock_stops (List.mem_range.2 ho) hi (by rwa [Nat.zero_add])

theorem State.mvRows_ok (hin : nIn ≠ 0) (hout : nOut ≠ 0)
    (h : ∀ o i, o < nOut → i < nIn → s.byteAt .matA ⟨o, i⟩ = some (g o i)) :
    s.mvRows nIn nOut = .ok (Mat.of nOut nIn g) := by
  have hblock := State.readBlock_ok (s := s) (space := .matA) (rows := List.range nOut) (col0 := 0) (f := g)
    (by simpa [Nat.one_le_iff_ne_zero] using hout) (Nat.one_le_iff_ne_zero.2 hin) fun o ho c hc => by
      rw [List.length_range] at ho
      simpa [ho] using h o c ho hc
  rwa [List.length_range] at hblock

namespace State.MvOperands

variable (h : s.MvOperands nIn nOut ins outs)
include h

theorem in_ne_zero : nIn ≠ 0 := h.inCount ▸ h.counts.inCount_ne_zero

theorem end_le : s.regs.off.toNat + s.regs.cnt.toNat ≤ 2 ^ 32 := range_le_pow h.range.checkRange

theorem readIndices_in : s.readIndices .idxIn s.regs.mvcnt.inCount.toNat = .ok (slots nIn ins) :=
  h.inCount.symm ▸ State.readIndices_ok h.inSlots

theorem readIndices_out : s.readIndices .idxOut s.regs.mvcnt.outCount.toNat = .ok (slots nOut outs) :=
  h.outCount.symm ▸ State.readIndices_ok h.outSlots

/-- Bytes given by their place in the byte range, as the kernels read them. -/
theorem byteAt_range {n : Nat} {f : Nat → Byte} {v : Nat → Nat → Byte}
    (hv : ∀ i b, i < n → InRange s b → s.byteAt .shard ⟨(f i).toNat, b⟩ = some (v i b)) :
    ∀ i, i < (slots n f).length → ∀ c, c < s.regs.cnt.toNat →
      s.byteAt .shard ⟨(slots n f).getD i 0, s.regs.off.toNat + c⟩ = some (v i (s.regs.off.toNat + c)) := by
  intro i hi c hc
  rw [length_slots] at hi
  rw [getD_slots hi]
  exact hv i _ hi (h.range.inRange_add hc)

/-- The coding matrix as the kernels take it. -/
theorem mvRows (hg : ∀ o i, o < nOut → i < nIn → 0 < sint32 s.regs.count → s.byteAt .matA ⟨o, i⟩ = some (g o i)) :
    slots nOut outs ≠ [] → s.regs.cnt.toNat ≠ 0 →
      s.mvRows nIn nOut = .ok (Mat.of (slots nOut outs).length (slots nIn ins).length g) := by
  intro hout hcnt
  rw [length_slots, length_slots]
  exact State.mvRows_ok h.in_ne_zero (slots_ne_nil.1 hout) fun o i ho hi =>
    hg o i ho hi (count_pos (Nat.pos_of_ne_zero hcnt))

end State.MvOperands

end

/-! ## MV_CODE (R206) -/

section
variable {loop : BitVec 3} {method : Method} {s : State} {nIn nOut : Nat} {ins outs : Nat → Byte}

theorem mvCode_counts_fail (h : ¬ CountsOk s) : FailsWith (.mvCode loop method) s 3 := by
  have hlegal := Bool.eq_false_iff.2 fun hl => h (countsOk_iff.1 hl)
  exact failsWith_of_rule (e := .rangeError) (by rw [ruleOf, mvCodeRule, require_error hlegal, error_bind])

theorem mvCode_range_fails (hcounts : CountsOk s) (h : ¬ RangeOk s) : FailsWith (.mvCode loop method) s 3 := by
  refine failsWith_of_rule (e := .rangeError) ?_
  rw [ruleOf, mvCodeRule, require_ok (countsOk_iff.2 hcounts), ok_bind, checkRange_fails h, error_bind]

/-- With its counts and its byte range accepted MV_CODE reads the index lists, refuses an overlap, and runs the
kernel. -/
theorem ruleOf_mvCode (hcounts : CountsOk s) (hrange : RangeOk s) : ruleOf (.mvCode loop method) s = (do
    let ins ← s.readIndices .idxIn s.regs.mvcnt.inCount.toNat
    let outs ← s.readIndices .idxOut s.regs.mvcnt.outCount.toNat
    require (!mvOverlap ins outs) .overlap
    s.code (s.mvRows ins.length outs.length) ins outs s.regs.off.toNat s.regs.cnt.toNat) := by
  rw [ruleOf, mvCodeRule, require_ok (countsOk_iff.2 hcounts), ok_bind, hrange.checkRange, ok_bind]
  rfl

theorem mvCode_index_stops (hcounts : CountsOk s) (hrange : RangeOk s)
    (h : ∃ i, (i < s.regs.mvcnt.inCount.toNat ∧ s.byteAt .idxIn ⟨0, i⟩ = none)
      ∨ (i < s.regs.mvcnt.outCount.toNat ∧ s.byteAt .idxOut ⟨0, i⟩ = none)) :
    StopsUnwritten (.mvCode loop method) s :=
  State.Stops.stopsUnwritten (ruleOf_mvCode hcounts hrange ▸ State.indices_stop _ h)

namespace State.MvOperands

variable (h : s.MvOperands nIn nOut ins outs)
include h

theorem mvCode_overlap_fails (hover : mvOverlap (slots nIn ins) (slots nOut outs) = true) :
    FailsWith (.mvCode loop method) s 9 := by
  refine failsWith_of_rule (e := .overlap) ?_
  rw [ruleOf_mvCode h.counts h.range, h.readIndices_in, ok_bind, h.readIndices_out, ok_bind,
    require_error (by rw [hover, Bool.not_true]), error_bind]

theorem ruleOf_mvCode (hover : mvOverlap (slots nIn ins) (slots nOut outs) = false) :
    ruleOf (.mvCode loop method) s
      = s.code (s.mvRows nIn nOut) (slots nIn ins) (slots nOut outs) s.regs.off.toNat s.regs.cnt.toNat := by
  rw [Machine.ruleOf_mvCode h.counts h.range, h.readIndices_in, ok_bind, h.readIndices_out, ok_bind,
    require_ok (by rw [hover, Bool.not_false]), ok_bind, length_slots, length_slots]

theorem mvCode_operand_stops (hover : mvOverlap (slots nIn ins) (slots nOut outs) = false)
    (hhole : (∃ o i, o < nOut ∧ i < nIn ∧ 0 < sint32 s.regs.count ∧ s.byteAt .matA ⟨o, i⟩ = none)
      ∨ (∃ i b, i < nIn ∧ 0 < nOut ∧ InRange s b ∧ s.byteAt .shard ⟨(ins i).toNat, b⟩ = none)) :
    StopsUnwritten (.mvCode loop method) s := by
  refine State.Stops.stopsUnwritten (h.ruleOf_mvCode hover ▸ ?_)
  rcases hhole with ⟨o, i, ho, hi, hcount, hnone⟩ | ⟨i, b, hi, hout, hb, hnone⟩
  · have hne := Nat.ne_zero_of_lt ho
    exact State.code_stops (cnt_ne_zero hcount) (slots_ne_nil.2 hne) (State.mvRows_cases h.in_ne_zero hne)
      (.inl (State.mvRows_stops ho hi hnone))
  · obtain ⟨c, hc, rfl⟩ := h.range.exists_add hb
    exact State.code_stops (Nat.ne_zero_of_lt hc) (slots_ne_nil.2 hout.ne')
      (State.mvRows_cases h.in_ne_zero hout.ne') (.inr ⟨_, mem_slots.2 ⟨i, hi, rfl⟩, c, hc, hnone⟩)

theorem mvCode_succeeds {g x : Nat → Nat → Byte} (hin : ∀ o i, o < nOut → i < nIn → outs o ≠ ins i)
    (hout : ∀ o o', o < nOut → o' < nOut → outs o = outs o' → o = o')
    (hg : ∀ o i, o < nOut → i < nIn → 0 < sint32 s.regs.count → s.byteAt .matA ⟨o, i⟩ = some (g o i))
    (hx : ∀ i b, i < nIn → 0 < nOut → InRange s b → s.byteAt .shard ⟨(ins i).toNat, b⟩ = some (x i b)) :
    ∃ t, SucceedsTo (.mvCode loop method) s t
      ∧ (∀ o b, o < nOut → InRange s b →
          t.byteAt .shard ⟨(outs o).toNat, b⟩ = some (xorSum nIn fun i => gfMul (g o i) (x i b)))
      ∧ (∀ a, legalAddr s.lmax .shard a = true → ¬ (∃ o, o < nOut ∧ a.row = (outs o).toNat ∧ InRange s a.col) →
          t.byteAt .shard a = s.byteAt .shard a)
      ∧ Frame [2] [.shard] s t := by
  obtain ⟨hnodup, hover⟩ := slots_apart hin hout
  obtain ⟨u, hcode, hproduct, hother⟩ := State.code_product (slots_ne_nil.2 h.in_ne_zero) hnodup h.end_le
    (h.mvRows hg) fun hne => h.byteAt_range fun i b hi hb => hx i b hi (Nat.pos_of_ne_zero (slots_ne_nil.1 hne)) hb
  have hrule : ruleOf (.mvCode loop method) s = .ok u := (h.ruleOf_mvCode hover).trans hcode
  have hdone := frame_completeOk u
  have hbyte := hdone.byteAt_eq (space := .shard) (by simp)
  simp only [length_slots] at hproduct
  have hcfg := (mvCodeRule_effect (i := .mvCode loop method) hrule).cfgValid rfl
  refine ⟨_, succeedsTo_of_rule hrule hcfg, fun o b ho hb => ?_,
    fun a ha hnot => ?_, (mvCodeRule_frame hrule).trans (hdone.mono (by simp) (by simp))⟩
  · obtain ⟨c, hc, rfl⟩ := h.range.exists_add hb
    rw [hbyte, ← hproduct o c ho hc, getD_slots ho]
  · rw [hbyte]
    refine hother a (State.legalAddr_col ha) fun ⟨hrow, hcol⟩ => hnot ?_
    obtain ⟨o, ho, hrow⟩ := mem_slots.1 hrow
    exact ⟨o, ho, hrow, h.range.inRange_iff.2 hcol⟩

end State.MvOperands

end

/-- Settles O45: the checks in the rule's order, then the reads, and the products stored. -/
theorem mvCodeRule_holds : Obligations.MvCodeRule := by
  refine ⟨by decide, by decide, fun loop method s => ⟨mvCode_counts_fail, mvCode_range_fails,
    fun nIn nOut hcounts hrange hnIn hnOut => ⟨fun h => ?_, fun ins outs hins houts => ?_⟩⟩⟩
  · subst hnIn hnOut
    exact mvCode_index_stops hcounts hrange h
  · have hop : s.MvOperands nIn nOut ins outs := ⟨hcounts, hrange, hnIn, hnOut, hins, houts⟩
    exact ⟨fun h => hop.mvCode_overlap_fails (mvOverlap_slots.2 h),
      fun hin hout => hop.mvCode_operand_stops (slots_apart hin hout).2,
      fun g x hin hout => hop.mvCode_succeeds hin hout⟩

/-! ## How a check ends (R207, R208) -/

/-- A check that reached its verdict succeeds, RESULT reads it, and TEMP's byte range is spoiled if it was used. -/
theorem verdict_succeeds {i : Instr} {s : State} {same used : Bool} {off cnt : Nat} (hend : off + cnt ≤ 2 ^ 32)
    (h : ruleOf i s = .ok ((s.setResult (if same then 1#8 else 0#8)).spoilTemp used off cnt)) :
    ∃ t, SucceedsTo i s t ∧ t.regWord 4 = (if same then 1#32 else 0#32)
      ∧ (∀ a, a.col < 2 ^ 32 → t.byteAt .temp a
          = if used = true ∧ a.row = 0 ∧ off ≤ a.col ∧ a.col < off + cnt then none else s.byteAt .temp a)
      ∧ Frame [2, 4] [.temp] s t := by
  have hdone := frame_completeOk ((s.setResult (if same then 1#8 else 0#8)).spoilTemp used off cnt)
  have hverdict := frame_verdict s (if same then 1#8 else 0#8) (used := used) (useTemp := true) (fun _ => rfl) off cnt
  refine ⟨_, succeedsTo_of_rule h (by simp), ?_, fun a ha => ?_,
    (hverdict.mono (by simp) (by simp)).trans (hdone.mono (by simp) (by simp))⟩
  · simp only [State.regWord, Regs.word, State.completeOk_regs, State.spoilTemp_regs, State.setResult_regs]
    cases same <;> rfl
  · rw [hdone.byteAt_eq (by simp), State.byteAt_spoilTemp used hend ha, (frame_setResult s _).byteAt_eq (by simp)]

/-! ## MV_CHECK (R207) -/

section
variable {loop : BitVec 3} {method : Method} {useTemp : Bool} {s : State} {nIn nOut : Nat} {ins outs : Nat → Byte}

theorem mvCheck_counts_fail (h : ¬ CountsOk s) : FailsWith (.mvCheck loop method useTemp) s 3 := by
  have hlegal := Bool.eq_false_iff.2 fun hl => h (countsOk_iff.1 hl)
  exact failsWith_of_rule (e := .rangeError) (by rw [ruleOf, mvCheckRule, require_error hlegal, error_bind])

theorem mvCheck_range_fails (hcounts : CountsOk s) (h : ¬ RangeOk s) :
    FailsWith (.mvCheck loop method useTemp) s 3 := by
  refine failsWith_of_rule (e := .rangeError) ?_
  rw [ruleOf, mvCheckRule, require_ok (countsOk_iff.2 hcounts), ok_bind, checkRange_fails h, error_bind]

theorem mvCheck_temp_fails (hcounts : CountsOk s) (hrange : RangeOk s) (huse : useTemp = true) (h : ¬ TempOk s) :
    FailsWith (.mvCheck loop method useTemp) s 3 := by
  subst huse
  refine failsWith_of_rule (e := .rangeError) ?_
  rw [ruleOf, mvCheckRule, require_ok (countsOk_iff.2 hcounts), ok_bind, hrange.checkRange, ok_bind,
    checkTemp_fails h, error_bind]

/-- With its checks passed MV_CHECK reads the index lists, runs the kernel, and leaves the verdict and a spoiled
TEMP. -/
theorem ruleOf_mvCheck (hcounts : CountsOk s) (hrange : RangeOk s) (htemp : useTemp = true → TempOk s) :
    ruleOf (.mvCheck loop method useTemp) s = (do
      let ins ← s.readIndices .idxIn s.regs.mvcnt.inCount.toNat
      let outs ← s.readIndices .idxOut s.regs.mvcnt.outCount.toNat
      let same ← s.check (s.mvRows ins.length outs.length) ins outs s.regs.off.toNat s.regs.cnt.toNat
      .ok ((s.setResult (if same then 1#8 else 0#8)).spoilTemp (useTemp && outs.length ≠ 0)
        s.regs.off.toNat s.regs.cnt.toNat)) := by
  rw [ruleOf, mvCheckRule, require_ok (countsOk_iff.2 hcounts), ok_bind, hrange.checkRange, ok_bind,
    checkTemp_ok htemp, ok_bind]
  rfl

theorem mvCheck_index_stops (hcounts : CountsOk s) (hrange : RangeOk s) (htemp : useTemp = true → TempOk s)
    (h : ∃ i, (i < s.regs.mvcnt.inCount.toNat ∧ s.byteAt .idxIn ⟨0, i⟩ = none)
      ∨ (i < s.regs.mvcnt.outCount.toNat ∧ s.byteAt .idxOut ⟨0, i⟩ = none)) :
    StopsUnwritten (.mvCheck loop method useTemp) s :=
  State.Stops.stopsUnwritten (ruleOf_mvCheck hcounts hrange htemp ▸ State.indices_stop _ h)

namespace State.MvOperands

variable (h : s.MvOperands nIn nOut ins outs)
include h

theorem ruleOf_mvCheck (htemp : useTemp = true → TempOk s) : ruleOf (.mvCheck loop method useTemp) s = (do
    let same ← s.check (s.mvRows nIn nOut) (slots nIn ins) (slots nOut outs) s.regs.off.toNat s.regs.cnt.toNat
    .ok ((s.setResult (if same then 1#8 else 0#8)).spoilTemp (useTemp && nOut ≠ 0)
      s.regs.off.toNat s.regs.cnt.toNat)) := by
  rw [Machine.ruleOf_mvCheck h.counts h.range htemp, h.readIndices_in, ok_bind, h.readIndices_out, ok_bind,
    length_slots, length_slots]

theorem mvCheck_operand_stops (htemp : useTemp = true → TempOk s)
    (hhole : (∃ o i, o < nOut ∧ i < nIn ∧ 0 < sint32 s.regs.count ∧ s.byteAt .matA ⟨o, i⟩ = none)
      ∨ (∃ i b, i < nIn ∧ 0 < nOut ∧ InRange s b ∧ s.byteAt .shard ⟨(ins i).toNat, b⟩ = none)
      ∨ (∃ o b, o < nOut ∧ InRange s b ∧ s.byteAt .shard ⟨(outs o).toNat, b⟩ = none)) :
    StopsUnwritten (.mvCheck loop method useTemp) s := by
  have hstop (hout : nOut ≠ 0) (hcnt : s.regs.cnt.toNat ≠ 0) := State.check_stops (s := s)
    (off := s.regs.off.toNat) hcnt (slots_ne_nil.2 h.in_ne_zero) (slots_ne_nil (f := outs).2 hout)
    (State.mvRows_cases h.in_ne_zero hout) fun R hR => by
      rw [length_slots (f := ins)]
      exact (State.readBlock_shape hR).2.1
  refine State.Stops.stopsUnwritten (h.ruleOf_mvCheck htemp ▸ State.Stops.bind ?_ _)
  rcases hhole with ⟨o, i, ho, hi, hcount, hnone⟩ | ⟨i, b, hi, hout, hb, hnone⟩ | ⟨o, b, ho, hb, hnone⟩
  · exact hstop (Nat.ne_zero_of_lt ho) (cnt_ne_zero hcount) (.inl (State.mvRows_stops ho hi hnone))
  · obtain ⟨c, hc, rfl⟩ := h.range.exists_add hb
    exact hstop hout.ne' (Nat.ne_zero_of_lt hc) (.inr ⟨_, .inl (mem_slots.2 ⟨i, hi, rfl⟩), c, hc, hnone⟩)
  · obtain ⟨c, hc, rfl⟩ := h.range.exists_add hb
    exact hstop (Nat.ne_zero_of_lt ho) (Nat.ne_zero_of_lt hc) (.inr ⟨_, .inr (mem_slots.2 ⟨o, ho, rfl⟩), c, hc, hnone⟩)

theorem mvCheck_succeeds (htemp : useTemp = true → TempOk s) {g x z : Nat → Nat → Byte}
    (hg : ∀ o i, o < nOut → i < nIn → 0 < sint32 s.regs.count → s.byteAt .matA ⟨o, i⟩ = some (g o i))
    (hx : ∀ i b, i < nIn → 0 < nOut → InRange s b → s.byteAt .shard ⟨(ins i).toNat, b⟩ = some (x i b))
    (hz : ∀ o b, o < nOut → InRange s b → s.byteAt .shard ⟨(outs o).toNat, b⟩ = some (z o b)) :
    ∃ t, SucceedsTo (.mvCheck loop method useTemp) s t
      ∧ (t.regWord 4 = 0#32 ∨ t.regWord 4 = 1#32)
      ∧ (t.regWord 4 = 1#32 ↔
          ∀ o b, o < nOut → InRange s b → z o b = xorSum nIn fun i => gfMul (g o i) (x i b))
      ∧ (useTemp = true → 0 < nOut → ∀ b, InRange s b → t.byteAt .temp ⟨0, b⟩ = none)
      ∧ (∀ a, legalAddr s.lmax .temp a = true → ¬ (useTemp = true ∧ 0 < nOut ∧ InRange s a.col) →
          t.byteAt .temp a = s.byteAt .temp a)
      ∧ Frame [2, 4] [.temp] s t := by
  obtain ⟨same, hcheck, hsame⟩ := State.check_product (slots_ne_nil.2 h.in_ne_zero) (h.mvRows hg)
    (fun hne => h.byteAt_range fun i b hi hb => hx i b hi (Nat.pos_of_ne_zero (slots_ne_nil.1 hne)) hb)
    (h.byteAt_range hz)
  have hrule := h.ruleOf_mvCheck (loop := loop) (method := method) htemp
  rw [hcheck, ok_bind] at hrule
  obtain ⟨t, hsucc, hresult, htempByte, hframe⟩ := verdict_succeeds h.end_le hrule
  simp only [length_slots] at hsame
  have hbytes : same = true ↔ ∀ o b, o < nOut → InRange s b → z o b = xorSum nIn fun i => gfMul (g o i) (x i b) := by
    refine hsame.trans ⟨fun heq o b ho hb => ?_, fun heq o c ho hc => heq o _ ho (h.range.inRange_add hc)⟩
    obtain ⟨c, hc, rfl⟩ := h.range.exists_add hb
    exact heq o c ho hc
  refine ⟨t, hsucc, ?_, ?_, fun huse hout b hb => ?_, fun a ha hnot => ?_, hframe⟩
  · rw [hresult]
    cases same <;> simp
  · rw [hresult, ← hbytes]
    cases same <;> simp
  · have hb' := h.range.inRange_iff.1 hb
    rw [htempByte _ (hb'.2.trans_le h.end_le), if_pos ⟨by simp [huse, hout.ne'], rfl, hb'⟩]
  · rw [htempByte a (State.legalAddr_col ha), if_neg ?_]
    rintro ⟨hused, -, hcol⟩
    simp only [Bool.and_eq_true, decide_eq_true_eq] at hused
    exact hnot ⟨hused.1, Nat.pos_of_ne_zero hused.2, h.range.inRange_iff.2 hcol⟩

end State.MvOperands

end

/-- Settles O46: the checks in the rule's order, then the reads, the verdict in RESULT and TEMP spoiled. -/
theorem mvCheckRule_holds : Obligations.MvCheckRule := by
  refine ⟨by decide, by decide, fun loop method useTemp s => ⟨mvCheck_counts_fail, mvCheck_range_fails,
    mvCheck_temp_fails, fun nIn nOut hcounts hrange htemp hnIn hnOut => ⟨fun h => ?_, fun ins outs hins houts => ?_⟩⟩⟩
  · subst hnIn hnOut
    exact mvCheck_index_stops hcounts hrange htemp h
  · have hop : s.MvOperands nIn nOut ins outs := ⟨hcounts, hrange, hnIn, hnOut, hins, houts⟩
    exact ⟨hop.mvCheck_operand_stops htemp, fun g x z => hop.mvCheck_succeeds htemp⟩

end Sys2Proof.Machine

/-! # Reed–Solomon family: the generator matrix, RS_CONFIG, RS_ENCODE, RS_CHECK and RS_DECODE -/

namespace Sys2Proof.Machine

/-! ## Roots of polynomials over the field -/

/-- The value at `a` of the polynomial with the given coefficients, the constant one first. -/
def polyAt (a : Byte) : List Byte → Byte
  | [] => 0#8
  | c :: p => c ^^^ gfMul a (polyAt a p)

/-- The quotient of `c :: p` by `x - b`, for any constant coefficient `c`. -/
def quotientBy (b : Byte) : List Byte → List Byte
  | [] => []
  | c :: p => polyAt b (c :: p) :: quotientBy b p

section
variable {a b c : Byte} {p : List Byte}

@[simp] theorem length_quotientBy : (quotientBy b p).length = p.length := by
  induction p with
  | nil => rfl
  | cons c p ih => rw [quotientBy, List.length_cons, ih, List.length_cons]

theorem xor_xor_xor_cancel (x y z : Byte) : x ^^^ y ^^^ (y ^^^ z) = x ^^^ z := by
  rw [BitVec.xor_assoc, ← BitVec.xor_assoc y, BitVec.xor_self, BitVec.zero_xor]

/-- Division by `x - b`: the remainder is the value at `b`. -/
theorem polyAt_xor_polyAt : polyAt a (c :: p) ^^^ polyAt b (c :: p) = gfMul (a ^^^ b) (polyAt a (quotientBy b p)) := by
  induction p generalizing c with
  | nil => simp [polyAt, quotientBy]
  | cons d p ih =>
    calc polyAt a (c :: d :: p) ^^^ polyAt b (c :: d :: p)
        = gfMul a (polyAt a (d :: p)) ^^^ gfMul b (polyAt b (d :: p)) := by
          exact (congrArg (· ^^^ _) (BitVec.xor_comm c _)).trans (xor_xor_xor_cancel _ c _)
      _ = gfMul a (polyAt a (d :: p) ^^^ polyAt b (d :: p)) ^^^ gfMul (a ^^^ b) (polyAt b (d :: p)) := by
          rw [gfMul_xor, xor_gfMul, xor_xor_xor_cancel]
      _ = gfMul (a ^^^ b) (polyAt a (quotientBy b (d :: p))) := by
          rw [ih, gfMul_assoc, gfMul_comm a, ← gfMul_assoc, ← gfMul_xor, BitVec.xor_comm (gfMul a _), quotientBy]
          rfl

theorem polyAt_of_zeros (h : ∀ d ∈ p, d = 0#8) : polyAt a p = 0#8 := by
  induction p with
  | nil => rfl
  | cons c p ih =>
    obtain ⟨hc, hp⟩ := List.forall_mem_cons.1 h
    rw [polyAt, hc, ih hp, gfMul_zero_right, BitVec.xor_self]

/-- A polynomial whose quotient is 0 is constant. -/
theorem zeros_of_quotientBy (h : ∀ d ∈ quotientBy b p, d = 0#8) : ∀ d ∈ p, d = 0#8 := by
  induction p with
  | nil => exact h
  | cons c p ih =>
    obtain ⟨hc, hq⟩ := List.forall_mem_cons.1 h
    have hp := ih hq
    rw [polyAt, polyAt_of_zeros hp, gfMul_zero_right, BitVec.xor_zero] at hc
    exact List.forall_mem_cons.2 ⟨hc, hp⟩

theorem eq_zero_of_gfMul_eq_zero (ha : a ≠ 0#8) (h : gfMul a b = 0#8) : b = 0#8 := by
  have hdiv := gfDiv_gfMul ha
  have hsome : some b = some 0#8 := by rw [← hdiv b, gfMul_comm, h, ← hdiv 0#8, gfMul_zero_left]
  exact Option.some.inj hsome

/-- A polynomial with as many distinct roots as coefficients is 0: it divides by `x - b` for each root `b`. -/
theorem zeros_of_roots {roots : List Byte} (hn : roots.Nodup) (hlen : p.length ≤ roots.length)
    (h : ∀ b ∈ roots, polyAt b p = 0#8) : ∀ d ∈ p, d = 0#8 := by
  induction roots generalizing p with
  | nil => simp [List.length_eq_zero_iff.1 (Nat.le_zero.1 hlen)]
  | cons b roots ih =>
    cases p with
    | nil => simp
    | cons c p =>
      obtain ⟨hb, hroots⟩ := List.forall_mem_cons.1 h
      obtain ⟨hmem, hn⟩ := List.nodup_cons.1 hn
      have hp := zeros_of_quotientBy (b := b) (ih hn (by simpa using hlen) fun a ha => ?_)
      · rw [polyAt, polyAt_of_zeros hp, gfMul_zero_right, BitVec.xor_zero] at hb
        exact List.forall_mem_cons.2 ⟨hb, hp⟩
      · have hne : a ^^^ b ≠ 0#8 := fun h0 => hmem (BitVec.xor_eq_zero_iff.1 h0 ▸ ha)
        refine eq_zero_of_gfMul_eq_zero hne ?_
        rw [← polyAt_xor_polyAt (c := c), hroots a ha, hb, BitVec.xor_self]

end

/-! ## Vandermonde matrices (44_reed_solomon.md R231) -/

/-- The matrix whose row `r` holds the powers of the node `a r`. -/
def powers (a : Nat → Byte) (r c : Nat) : Byte := polyPow (a r) c

/-- The node of row `r`: the Vandermonde entries of a row are its powers, in either mode. -/
def vandNode : VandMode → Nat → Byte
  | .rowPow, r => BitVec.ofNat 8 r
  | .genPow, r => expTab r

theorem vand_eq_powers (mode : VandMode) : vand mode = powers (vandNode mode) := by
  funext r c
  cases mode with
  | rowPow => exact gfExp_eq_polyPow _ _
  | genPow => rw [vand, gfExp_eq_polyPow, polyPow_two, powers, vandNode, polyPow_expTab]

/-- Nodes of distinct rows are distinct, but for row 255 under GEN_POW. -/
theorem vandNode_inj {mode : VandMode} {r r' : Nat} (hr : r < 256) (hr' : r' < 256)
    (hgen : mode = .genPow → r < 255 ∧ r' < 255) (h : vandNode mode r = vandNode mode r') : r = r' := by
  cases mode with
  | rowPow =>
    have hnat := congrArg BitVec.toNat h
    simp only [vandNode, BitVec.toNat_ofNat] at hnat
    omega
  | genPow =>
    obtain ⟨hr, hr'⟩ := hgen rfl
    have hlog := congrArg logTab h
    rw [vandNode, vandNode, logTab_expTab r hr, logTab_expTab r' hr'] at hlog
    exact Option.some.inj hlog

section
variable {k : Nat} {A : Nat → Nat → Byte} {a x : Nat → Byte}

theorem polyPow_succ_left (b : Byte) (n : Nat) : polyPow b (n + 1) = gfMul b (polyPow b n) := by
  rw [polyPow_succ, ← gfMul_eq_polyMul, gfMul_comm]

/-- A row of powers times a vector is the value of the polynomial with the vector's coefficients. -/
theorem matVec_powers (k : Nat) (a x : Nat → Byte) (r : Nat) :
    matVec k (powers a) x r = polyAt (a r) ((List.range k).map x) := by
  induction k generalizing x with
  | zero => rfl
  | succ k ih =>
    have htail : xorSum k (fun j => gfMul (powers a r (1 + j)) (x (1 + j)))
        = gfMul (a r) (matVec k (powers a) (fun j => x (j + 1)) r) := by
      rw [matVec, ← xorSum_gfMul]
      refine xorSum_congr fun j _ => ?_
      rw [powers, powers, Nat.add_comm, polyPow_succ_left, gfMul_assoc]
    have hhead : xorSum 1 (fun j => gfMul (powers a r j) (x j)) = x 0 :=
      (BitVec.zero_xor).trans (one_gfMul _)
    rw [matVec, Nat.add_comm, xorSum_add, htail, hhead, ih, Nat.add_comm, List.range_succ_eq_map]
    simp [polyAt, Function.comp_def]

/-- R179: `invert` answers a matrix exactly when A sends no vector but 0 to 0. -/
theorem exists_invert_iff : (∃ D, (Mat.of k k A).invert = some D)
    ↔ ∀ x, (∀ i, i < k → matVec k A x i = 0#8) → ∀ i, i < k → x i = 0#8 := by
  constructor
  · rintro ⟨D, hD⟩ x hx i hi
    obtain ⟨-, -, hsolves⟩ := invert_solves hD
    rw [(hsolves x fun _ => 0#8).1 hx i hi, matVec_zero]
  · intro h
    rcases invert_cases k A with ⟨D, hD, -⟩ | ⟨-, x, q, hq, hne, hx⟩
    · exact ⟨D, hD⟩
    · exact absurd (h x hx q hq) hne

/-- A square matrix of powers of distinct nodes is invertible. -/
theorem powers_invertible (ha : ∀ i j, i < k → j < k → a i = a j → i = j) :
    ∃ D, (Mat.of k k (powers a)).invert = some D := by
  refine exists_invert_iff.2 fun x hx i hi => ?_
  have hnodup : ((List.range k).map a).Nodup := by
    refine (List.nodup_map_iff_inj_on List.nodup_range).2 fun i hi j hj => ?_
    exact ha i j (List.mem_range.1 hi) (List.mem_range.1 hj)
  have hzeros := zeros_of_roots (p := (List.range k).map x) hnodup (by simp) fun b hb => by
    obtain ⟨j, hj, rfl⟩ := List.mem_map.1 hb
    rw [← matVec_powers, hx j (List.mem_range.1 hj)]
  exact hzeros _ (List.mem_map_of_mem (List.mem_range.2 hi))

end

/-! ## The generator matrix (R232, R234, R235) -/

section
variable {mode : VandMode} {k m : Nat} {G : Mat}

/-- The Vandermonde matrix's top block, which R232 inverts. -/
def topBlock (mode : VandMode) (k : Nat) : Mat := Mat.of k k (vand mode)

theorem submatrix_vandMat (mode : VandMode) (k m : Nat) :
    (vandMat mode (k + m) k).submatrix 0 0 k k = topBlock mode k :=
  Mat.of_congr fun r c hr hc => by
    rw [Nat.zero_add, Nat.zero_add]
    exact Mat.entry_of _ (by omega) (by omega)

/-- For k at least 1 `build_G` is the inversion of the top block and a product. -/
theorem buildG_eq (hk : 1 ≤ k) (mode : VandMode) (m : Nat) : buildG mode k m = match (topBlock mode k).invert with
    | none => .error (.error .singular)
    | some D => .ok ((vandMat mode (k + m) k).mul D) := by
  have hsub := matSubmatrix_ok (A := vandMat mode (k + m) k) hk (Nat.le_add_right k m) hk le_rfl
  rw [submatrix_vandMat] at hsub
  rw [buildG, hsub, ok_bind, matInvert_eq rfl hk]
  cases h : (topBlock mode k).invert with
  | none => rfl
  | some D =>
    obtain ⟨hrows, -⟩ := invert_solves h
    exact matMul_ok hrows.symm

/-- What `build_G` answers is the Vandermonde matrix times the inverse of its top block. -/
theorem buildG_eq_ok (h : buildG mode k m = .ok G) :
    1 ≤ k ∧ ∃ D, (topBlock mode k).invert = some D ∧ G = (vandMat mode (k + m) k).mul D := by
  obtain ⟨T, hT, -⟩ := bind_eq_ok.1 h
  obtain ⟨hk, -⟩ := matSubmatrix_bounds hT
  rw [buildG_eq hk] at h
  split at h
  · cases h
  · cases h
    exact ⟨hk, _, ‹_›, rfl⟩

/-- Row `r` of the generator matrix is row `r` of the Vandermonde matrix times the inverse of its top block. -/
theorem buildG_entry {D : Mat} (hD : (topBlock mode k).invert = some D) {r c : Nat} (hr : r < k + m) (hc : c < k) :
    ((vandMat mode (k + m) k).mul D).entry r c = matVec k (vand mode) (D.entry · c) r := by
  obtain ⟨-, hcols, -⟩ := invert_solves hD
  rw [Mat.entry_mul _ _ hr (hcols.symm ▸ hc)]
  exact xorSum_congr fun q hq => congrArg (gfMul · _) (Mat.entry_of _ hr hq)

/-- The first k nodes are distinct in either mode, so the top block has an inverse. -/
theorem topBlock_invertible (mode : VandMode) (hk : k ≤ 255) : ∃ D, (topBlock mode k).invert = some D := by
  rw [topBlock, vand_eq_powers]
  exact powers_invertible fun i j hi hj => vandNode_inj (by omega) (by omega) fun _ => ⟨by omega, by omega⟩

/-- The generator matrix times a vector: the top block's inverse, then the Vandermonde matrix. -/
theorem matVec_buildG {D : Mat} (hD : (topBlock mode k).invert = some D) {r : Nat} (hr : r < k + m) (x : Nat → Byte) :
    matVec k ((vandMat mode (k + m) k).mul D).entry x r = matVec k (vand mode) (matVec k D.entry x) r := by
  rw [matVec_matVec]
  exact matVec_congr (fun c hc => buildG_entry hD hr hc) fun _ _ => rfl

end

/-- Settles O49: the top block's nodes are distinct, as k is at most 255. -/
theorem generatorAlwaysExists : Obligations.GeneratorAlwaysExists := by
  intro mode k m hk hm hn
  obtain ⟨D, hD⟩ := topBlock_invertible mode (k := k) (by omega)
  exact ⟨_, by rw [buildG_eq hk, hD]⟩

/-- Settles O50: the inverse of the top block cancels the top block, on either side. -/
theorem generatorIsSystematic : Obligations.GeneratorIsSystematic := by
  intro mode k m G h
  obtain ⟨hrows, hcols⟩ := buildG_shape h
  obtain ⟨-, D, hD, rfl⟩ := buildG_eq_ok h
  obtain ⟨-, -, hsolves⟩ := invert_solves hD
  refine ⟨hrows, hcols, fun r c hr hc => ?_, fun r c hr hc => ?_⟩
  · refine (matVec_buildG hD hr (vand mode · c)).trans ?_
    rw [matVec_congr (fun _ _ => rfl) fun i hi => hsolves.mul_left hi hc, matVec_unitVec hc]
  · rw [buildG_entry hD (by omega) hc, hsolves.mul_right hr hc, unitVec]

section
variable {mode : VandMode} {k m : Nat} {G : Mat} {rows : List Nat}

theorem pick_eq (hcols : G.cols = k) (hlen : rows.length = k) :
    G.pick rows = Mat.of k k fun o c => G.entry (rows.getD o 0) c := by rw [Mat.pick, hcols, hlen]

/-- Rows of the generator matrix with distinct nodes form an invertible matrix, as those rows of the Vandermonde matrix
do. -/
theorem pick_invertible (h : buildG mode k m = .ok G) (hlen : rows.length = k) (hrows : ∀ r ∈ rows, r < k + m)
    (hnodes : ∀ i j, i < k → j < k → vandNode mode (rows.getD i 0) = vandNode mode (rows.getD j 0) → i = j) :
    ∃ D, (G.pick rows).invert = some D := by
  rw [pick_eq (buildG_shape h).2 hlen, exists_invert_iff]
  intro x hx
  obtain ⟨-, D, hD, rfl⟩ := buildG_eq_ok h
  obtain ⟨-, -, hsolves⟩ := invert_solves hD
  have hpick : ∀ o, o < k → matVec k (powers fun o => vandNode mode (rows.getD o 0)) (matVec k D.entry x) o = 0#8 := by
    intro o ho
    have hr : rows.getD o 0 < k + m := by
      rw [List.getD_eq_getElem _ _ (hlen ▸ ho)]
      exact hrows _ (List.getElem_mem _)
    rw [← hx o ho]
    refine Eq.trans ?_ (matVec_buildG hD hr x).symm
    rw [vand_eq_powers]
    rfl
  have hzero := exists_invert_iff.1 (powers_invertible hnodes) _ hpick
  intro i hi
  rw [← (hsolves (fun _ => 0#8) x).2 (fun j hj => (hzero j hj).symm) i hi, matVec_zero]

/-- A matrix with two equal rows has no inverse: row `i` of the product with one would be both unit vectors. -/
theorem invert_of_equal_rows {A : Nat → Nat → Byte} {i j : Nat} (hi : i < k) (hj : j < k) (hij : i ≠ j)
    (h : ∀ c, c < k → A i c = A j c) : (Mat.of k k A).invert = none := by
  rw [Option.eq_none_iff_forall_ne_some]
  intro D hD
  obtain ⟨-, -, hsolves⟩ := invert_solves hD
  have hrow : matVec k A (D.entry · i) i = matVec k A (D.entry · i) j :=
    xorSum_congr fun c hc => by rw [h c hc]
  rw [hsolves.mul_right hi hi, hsolves.mul_right hj hi, unitVec, unitVec, if_pos rfl, if_neg hij.symm] at hrow
  exact absurd hrow (by decide)

/-- Rows 0 and 255, whose nodes are equal under GEN_POW, and the k - 2 rows after row 0. -/
def clashingRows (k : Nat) : List Nat := 0 :: 255 :: List.range' 1 (k - 2)

theorem clashingRows_legal (hk : 2 ≤ k) (hk' : k ≤ 256) :
    (clashingRows k).length = k ∧ (clashingRows k).Nodup ∧ ∀ r ∈ clashingRows k, r < 256 := by
  refine ⟨by simp [clashingRows]; omega, ?_, fun r hr => ?_⟩
  · have hrange : (List.range' 1 (k - 2)).Nodup := List.nodup_range'
    simp only [clashingRows, List.nodup_cons, List.mem_cons, List.mem_range'_1, hrange, and_true]
    omega
  · simp only [clashingRows, List.mem_cons, List.mem_range'_1] at hr
    omega

/-- Under GEN_POW with n = 256 rows 0 and 255 of the generator matrix are equal. -/
theorem pick_clashingRows (h : buildG .genPow k m = .ok G) (hk : 2 ≤ k) (hn : k + m = 256) :
    (G.pick (clashingRows k)).invert = none := by
  obtain ⟨hlen, -⟩ := clashingRows_legal hk (by omega)
  rw [pick_eq (buildG_shape h).2 hlen]
  refine invert_of_equal_rows (i := 0) (j := 1) (by omega) (by omega) (by omega) fun c hc => ?_
  obtain ⟨-, D, hD, rfl⟩ := buildG_eq_ok h
  have hvand : ∀ q, vand .genPow 0 q = vand .genPow 255 q := fun q => by
    rw [vand_eq_powers, powers, powers, vandNode, vandNode, ← expTab_mod 255]
  refine (buildG_entry (r := 0) hD (by omega) hc).trans
    (Eq.trans ?_ (buildG_entry (r := 255) hD (by omega) hc).symm)
  exact xorSum_congr fun q _ => congrArg (gfMul · _) (hvand q)

end

/-- Settles O51: k rows with distinct nodes are invertible, and only rows 0 and 255 under GEN_POW share a node. -/
theorem anyKRowsAreInvertible : Obligations.AnyKRowsAreInvertible := by
  refine ⟨fun mode k m G rows hk hm hn hmode h hlen hnodup hrows => ?_, fun k m G hk hn h => ?_⟩
  · refine pick_invertible h hlen hrows fun i j hi hj hnode => ?_
    rcases Nat.lt_or_ge 1 k with hk1 | hk1
    · rw [List.getD_eq_getElem _ _ (hlen ▸ hi), List.getD_eq_getElem _ _ (hlen ▸ hj)] at hnode
      have hri := hrows _ (List.getElem_mem (hlen ▸ hi))
      have hrj := hrows _ (List.getElem_mem (hlen ▸ hj))
      refine (hnodup.getElem_inj_iff).1 (vandNode_inj (by omega) (by omega) (fun hgen => ?_) hnode)
      have := hmode hgen
      omega
    · omega
  · obtain ⟨hlen, hnodup, hlt⟩ := clashingRows_legal hk (by omega)
    exact ⟨clashingRows k, hlen, hnodup, hlt, pick_clashingRows h hk hn⟩

/-! ## RS_CONFIG (44_reed_solomon.md R233) -/

section
variable {s : State} {loop : BitVec 3} {method : Method} {k m : Nat} {G : Mat}

/-- A field of 9 bits read as a register. -/
theorem setWidth_ofNat_nine {n : Nat} (h : n < 2 ^ 9) : (BitVec.ofNat 9 n).setWidth 32 = BitVec.ofNat 32 n :=
  BitVec.eq_of_toNat_eq (by simp only [BitVec.toNat_setWidth, BitVec.toNat_ofNat]; omega)

/-- The word of CFGSTRAT (10_state.md R33). -/
theorem Strategy.word_eq : ∀ (loop : BitVec 3) (method : Method), Strategy.word ⟨loop, decide (method = .exp)⟩
    = BitVec.ofNat 32 (loop.toNat + if method = .exp then 8 else 0)
  | loop, .table => by revert loop; decide
  | loop, .exp => by revert loop; decide

/-- After a configuration GEN holds its matrix and nothing else. -/
theorem State.byteAt_configure (hrows : G.rows = k + m) (hcols : G.cols = k) (hk : k < 2 ^ 9) (hn : k + m < 2 ^ 9)
    (r c : Nat) : (s.configure k m loop method G).byteAt .gen ⟨r, c⟩
      = if r < k + m ∧ c < k then some (G.entry r c) else none := by
  have hholds : (s.configure k m loop method G).genHolds ⟨r, c⟩ = decide (r < k + m ∧ c < k) := by
    simp only [State.genHolds, State.configure, BitVec.toNat_ofNat, Nat.mod_eq_of_lt hk, Nat.mod_eq_of_lt hn,
      Bool.true_and, Bool.decide_and]
  by_cases hin : r < k + m ∧ c < k
  · obtain ⟨hr, hc⟩ := hin
    rw [State.byteAt, hholds, if_neg (by simp [hr, hc]), if_pos ⟨hr, hc⟩]
    exact State.read_setGen (by omega) (by omega) (by omega)
  · rw [State.byteAt, hholds, if_pos (by simpa using hin), if_neg hin]

/-- What the query registers and CFGSTRAT read after a configuration. -/
theorem State.regWord_configure (hk : k < 2 ^ 9) (hm : m < 2 ^ 9) (hn : k + m < 2 ^ 9) :
    (s.configure k m loop method G).completeOk.regWord 12 = BitVec.ofNat 32 k
      ∧ (s.configure k m loop method G).completeOk.regWord 13 = BitVec.ofNat 32 m
      ∧ (s.configure k m loop method G).completeOk.regWord 14 = BitVec.ofNat 32 (k + m)
      ∧ (s.configure k m loop method G).completeOk.regWord 15
        = BitVec.ofNat 32 (loop.toNat + if method = .exp then 8 else 0) :=
  ⟨setWidth_ofNat_nine hk, setWidth_ofNat_nine hm, setWidth_ofNat_nine hn, Strategy.word_eq loop method⟩

theorem rsConfig_range_fails (h : sint32 s.regs.kreq < 1 ∨ sint32 s.regs.mreq < 1) :
    FailsWith (.rsConfig loop method) s 3 := by
  have hcheck : (1 ≤ sint32 s.regs.kreq && 1 ≤ sint32 s.regs.mreq : Bool) = false :=
    Bool.and_eq_false_iff.2 (h.imp (fun h => decide_eq_false h.not_ge) fun h => decide_eq_false h.not_ge)
  exact failsWith_of_rule (e := .rangeError) (by rw [ruleOf, rsConfigRule, require_error hcheck, error_bind])

/-- With positive counts RS_CONFIG checks their sum, builds the generator matrix, and configures. -/
theorem ruleOf_rsConfig (hk : 1 ≤ sint32 s.regs.kreq) (hm : 1 ≤ sint32 s.regs.mreq) :
    ruleOf (.rsConfig loop method) s = (do
      require (sint32 s.regs.kreq + sint32 s.regs.mreq ≤ 256) .tooManyShards
      let G ← buildG s.params.vandMode (sint32 s.regs.kreq).toNat (sint32 s.regs.mreq).toNat
      .ok (s.configure (sint32 s.regs.kreq).toNat (sint32 s.regs.mreq).toNat loop method G)) := by
  have hcheck : (1 ≤ sint32 s.regs.kreq && 1 ≤ sint32 s.regs.mreq : Bool) = true := by simp [hk, hm]
  rw [ruleOf, rsConfigRule, require_ok hcheck, ok_bind]

theorem rsConfig_sum_fails (hk : 1 ≤ sint32 s.regs.kreq) (hm : 1 ≤ sint32 s.regs.mreq)
    (h : 256 < sint32 s.regs.kreq + sint32 s.regs.mreq) : FailsWith (.rsConfig loop method) s 1 := by
  refine failsWith_of_rule (e := .tooManyShards) ?_
  rw [ruleOf_rsConfig hk hm, require_error (decide_eq_false h.not_ge), error_bind]

end

/-- Settles O48: the checks in the rule's order, then the generator matrix in GEN and the counts in their registers. -/
theorem rsConfigRule_holds : Obligations.RsConfigRule := by
  refine ⟨by decide, by decide, fun loop method s k m hkreq hmreq => ?_⟩
  subst hkreq hmreq
  refine ⟨rsConfig_range_fails, rsConfig_sum_fails, fun hk hm hn G hG => ?_⟩
  have hrule := ruleOf_rsConfig (loop := loop) (method := method) hk hm
  rw [require_ok (decide_eq_true hn), ok_bind, hG, ok_bind] at hrule
  obtain ⟨hrows, hcols⟩ := buildG_shape hG
  rw [Int.toNat_add (by omega) (by omega)]
  have hdone := frame_completeOk (s.configure (sint32 s.regs.kreq).toNat (sint32 s.regs.mreq).toNat loop method G)
  obtain ⟨hdsc, hpsc, htsc, hstrat⟩ := State.regWord_configure (s := s) (loop := loop) (method := method) (G := G)
    (k := (sint32 s.regs.kreq).toNat) (m := (sint32 s.regs.mreq).toNat) (by omega) (by omega) (by omega)
  refine ⟨_, by rw [exec_eq_finish, hrule, finish_ok], ⟨rfl, rfl, rfl, rfl, rfl⟩, hdsc, hpsc, htsc, hstrat,
    fun r c => ?_, (frame_configure s _ _ loop method G).trans (hdone.mono (by simp) (by simp))⟩
  rw [hdone.byteAt_eq (by simp), State.byteAt_configure hrows hcols (by omega) (by omega)]

/-! ## How a Reed–Solomon command ends, and the kernel over the byte range of the registers -/

section
variable {i : Instr} {s t u : State} {rows : Except Stop Mat} {ins outs : List Nat} {g x z : Nat → Nat → Byte}

/-- A rule that ends well, of a command other than RS_CONFIG: the command succeeds, completion changes no byte, and the
command has kept to its row. -/
theorem succeedsTo_of_ok (h : ruleOf i s = .ok u) (hi : writesConfig i = false) :
    SucceedsTo i s u.completeOk ∧ (∀ space a, u.completeOk.byteAt space a = u.byteAt space a)
      ∧ Frame (2 :: writtenRegs i) (writtenMems i) s u.completeOk := by
  have hdone := frame_completeOk u
  exact ⟨succeedsTo_of_rule h ((ruleOf_effect h).cfgValid hi), fun space => hdone.byteAt_eq (by simp),
    (ruleOf_frame h).trans (hdone.mono (by simp) (by simp))⟩

theorem RangeOk.end_le (h : RangeOk s) : s.regs.off.toNat + s.regs.cnt.toNat ≤ 2 ^ 32 := range_le_pow h.checkRange

theorem RangeOk.col_lt (h : RangeOk s) {b : Nat} (hb : InRange s b) : b < 2 ^ 32 :=
  (h.inRange_iff.1 hb).2.trans_le h.end_le

/-- `code` over the byte range puts the products in the output slots, and changes no other byte. -/
theorem RangeOk.code_product (h : RangeOk s) (hregs : t.regs = s.regs) (hins : ins ≠ []) (houts : outs.Nodup)
    (hrows : outs ≠ [] → rows = .ok (Mat.of outs.length ins.length g))
    (hX : ∀ i b, i < ins.length → InRange s b → t.byteAt .shard ⟨ins.getD i 0, b⟩ = some (x i b)) :
    ∃ u, t.code rows ins outs s.regs.off.toNat s.regs.cnt.toNat = .ok u ∧ u.regs = s.regs
      ∧ (∀ o b, o < outs.length → InRange s b → u.byteAt .shard ⟨outs.getD o 0, b⟩
          = some (xorSum ins.length fun i => gfMul (g o i) (x i b)))
      ∧ ∀ a, a.col < 2 ^ 32 → ¬ (a.row ∈ outs ∧ InRange s a.col) → u.byteAt .shard a = t.byteAt .shard a := by
  obtain ⟨u, hcode, hproduct, hother⟩ := State.code_product hins houts h.end_le (fun hne _ => hrows hne)
    (x := fun i c => x i (s.regs.off.toNat + c)) fun _ i hi c hc => hX i _ hi (h.inRange_add hc)
  obtain ⟨l, rfl, -⟩ := State.code_writes hcode
  refine ⟨_, hcode, (State.writeAll_regs _ _ _).trans hregs, fun o b ho hb => ?_, fun a ha hout => hother a ha ?_⟩
  · obtain ⟨c, hc, rfl⟩ := h.exists_add hb
    exact hproduct o c ho hc
  · rwa [← h.inRange_iff]

/-- `check` over the byte range is true exactly when every output byte is the product. -/
theorem RangeOk.check_product (h : RangeOk s) (hins : ins ≠ [])
    (hrows : outs ≠ [] → rows = .ok (Mat.of outs.length ins.length g))
    (hX : ∀ i b, i < ins.length → InRange s b → s.byteAt .shard ⟨ins.getD i 0, b⟩ = some (x i b))
    (hZ : ∀ o b, o < outs.length → InRange s b → s.byteAt .shard ⟨outs.getD o 0, b⟩ = some (z o b)) :
    ∃ same, s.check rows ins outs s.regs.off.toNat s.regs.cnt.toNat = .ok same
      ∧ (same = true
          ↔ ∀ o b, o < outs.length → InRange s b → z o b = xorSum ins.length fun i => gfMul (g o i) (x i b)) := by
  obtain ⟨same, hcheck, hsame⟩ := State.check_product hins (fun hne _ => hrows hne)
    (x := fun i c => x i (s.regs.off.toNat + c)) (z := fun o c => z o (s.regs.off.toNat + c))
    (fun _ i hi c hc => hX i _ hi (h.inRange_add hc)) fun o ho c hc => hZ o _ ho (h.inRange_add hc)
  refine ⟨same, hcheck, hsame.trans ⟨fun heq o b ho hb => ?_, fun heq o c ho hc => heq o _ ho (h.inRange_add hc)⟩⟩
  obtain ⟨c, hc, rfl⟩ := h.exists_add hb
  exact heq o c ho hc

/-- A check that reached its verdict succeeds: RESULT reads the verdict, and TEMP's byte range is spoiled if it was
used. -/
theorem RangeOk.verdict_succeeds {same used : Bool} (h : RangeOk s)
    (hrule : ruleOf i s = .ok ((s.setResult (if same then 1#8 else 0#8)).spoilTemp used s.regs.off.toNat
      s.regs.cnt.toNat)) :
    ∃ t, SucceedsTo i s t ∧ (t.regWord 4 = 0#32 ∨ t.regWord 4 = 1#32) ∧ (t.regWord 4 = 1#32 ↔ same = true)
      ∧ (used = true → ∀ b, InRange s b → t.byteAt .temp ⟨0, b⟩ = none)
      ∧ (∀ a, legalAddr s.lmax .temp a = true → ¬ (used = true ∧ InRange s a.col) →
          t.byteAt .temp a = s.byteAt .temp a)
      ∧ Frame [2, 4] [.temp] s t := by
  obtain ⟨t, hsucc, hresult, htemp, hframe⟩ := Machine.verdict_succeeds h.end_le hrule
  refine ⟨t, hsucc, ?_, ?_, fun huse b hb => ?_, fun a ha hnot => ?_, hframe⟩
  · rw [hresult]
    cases same <;> simp
  · rw [hresult]
    cases same <;> simp
  · rw [htemp _ (h.col_lt hb), if_pos ⟨huse, rfl, h.inRange_iff.1 hb⟩]
  · rw [htemp a (State.legalAddr_col ha), if_neg ?_]
    rintro ⟨huse, -, hcol⟩
    exact hnot ⟨huse, h.inRange_iff.2 hcol⟩

/-- `code` over the byte range stops on an input byte that holds `none`, when its rows can be read or stop. -/
theorem RangeOk.code_stops (h : RangeOk s) (houts : outs ≠ []) (hrows : (∃ R, rows = .ok R) ∨ t.Stops rows) {r b : Nat}
    (hr : r ∈ ins) (hb : InRange s b) (hnone : t.byteAt .shard ⟨r, b⟩ = none) :
    t.Stops (t.code rows ins outs s.regs.off.toNat s.regs.cnt.toNat) := by
  obtain ⟨c, hc, rfl⟩ := h.exists_add hb
  exact State.code_stops (Nat.ne_zero_of_lt hc) houts hrows (.inr ⟨r, hr, c, hc, hnone⟩)

end

/-! ## Configuration and slots (R230, R236) -/

section
variable {s : State} {i j : Nat} {rows : List Nat} {g x : Nat → Nat → Byte}

theorem rsReady_ok (h : s.regs.status.cfgValid = true) : s.rsReady = .ok () := require_ok h

theorem rsReady_fails (h : s.regs.status.cfgValid = false) : s.rsReady = .error (.error .notConfigured) :=
  require_error h

@[simp] theorem State.length_dataSlots : s.dataSlots.length = s.k := List.length_range
@[simp] theorem State.length_paritySlots : s.paritySlots.length = s.m := List.length_range'

theorem State.getD_dataSlots (h : i < s.k) : s.dataSlots.getD i 0 = i := by simp [State.dataSlots, h]

theorem State.getD_paritySlots (h : j < s.m) : s.paritySlots.getD j 0 = s.k + j := by simp [State.paritySlots, h]

theorem State.mem_dataSlots : i ∈ s.dataSlots ↔ i < s.k := List.mem_range

theorem State.mem_paritySlots : i ∈ s.paritySlots ↔ s.k ≤ i ∧ i < s.k + s.m := List.mem_range'_1

theorem State.nodup_paritySlots : s.paritySlots.Nodup := List.nodup_range'

theorem State.paritySlots_ne_nil : s.paritySlots ≠ [] ↔ 0 < s.m := by simp [State.paritySlots, Nat.pos_iff_ne_zero]

theorem State.dataSlots_ne_nil (h : 1 ≤ s.k) : s.dataSlots ≠ [] :=
  List.ne_nil_of_length_pos (State.length_dataSlots.symm ▸ h)

/-- The bytes of the data slots, as the kernels read them. -/
theorem State.byteAt_data (hx : ∀ i b, i < s.k → InRange s b → s.byteAt .shard ⟨i, b⟩ = some (x i b)) :
    ∀ i b, i < s.dataSlots.length → InRange s b → s.byteAt .shard ⟨s.dataSlots.getD i 0, b⟩ = some (x i b) := by
  intro i b hi hb
  rw [State.length_dataSlots] at hi
  rw [State.getD_dataSlots hi, hx i b hi hb]

/-- Rows of GEN whose bytes all hold values, as the kernels and the inversion take them. -/
theorem State.genRows_ok (hk : 1 ≤ s.k) (hne : rows ≠ [])
    (h : ∀ o c, o < rows.length → c < s.k → s.byteAt .gen ⟨rows.getD o 0, c⟩ = some (g o c)) :
    s.genRows rows = .ok (Mat.of rows.length s.k g) :=
  State.readBlock_ok (List.length_pos_iff.2 hne) hk fun o ho c hc => by rw [Nat.zero_add, h o c ho hc]

end

/-- Configured with k at least 1, a byte range that the check accepts, and the parity rows of GEN. -/
structure State.RsOperands (s : State) (g : Nat → Nat → Byte) : Prop where
  configured : s.regs.status.cfgValid = true
  range : RangeOk s
  pos : 1 ≤ s.k
  gen : ∀ j i, j < s.m → i < s.k → s.byteAt .gen ⟨s.k + j, i⟩ = some (g j i)

section
variable {s : State} {g : Nat → Nat → Byte}

namespace State.RsOperands

variable (h : s.RsOperands g)
include h

theorem genRows (hne : s.paritySlots ≠ []) :
    s.genRows s.paritySlots = .ok (Mat.of s.paritySlots.length s.dataSlots.length g) := by
  rw [State.length_dataSlots]
  refine State.genRows_ok h.pos hne fun j c hj hc => ?_
  rw [State.length_paritySlots] at hj
  rw [State.getD_paritySlots hj, h.gen j c hj hc]

end State.RsOperands

/-! ## RS_ENCODE (R237) -/

theorem rsEncode_unconfigured_fails (h : s.regs.status.cfgValid = false) : FailsWith .rsEncode s 8 :=
  failsWith_of_rule (e := .notConfigured) (by rw [ruleOf, rsEncodeRule, rsReady_fails h, error_bind])

theorem rsEncode_range_fails (hcfg : s.regs.status.cfgValid = true) (h : ¬ RangeOk s) : FailsWith .rsEncode s 3 :=
  failsWith_of_rule (e := .rangeError)
    (by rw [ruleOf, rsEncodeRule, rsReady_ok hcfg, ok_bind, checkRange_fails h, error_bind])

/-- With its checks passed RS_ENCODE is the kernel over the parity rows. -/
theorem ruleOf_rsEncode (hcfg : s.regs.status.cfgValid = true) (hrange : RangeOk s) : ruleOf .rsEncode s
    = s.code (s.genRows s.paritySlots) s.dataSlots s.paritySlots s.regs.off.toNat s.regs.cnt.toNat := by
  rw [ruleOf, rsEncodeRule, rsReady_ok hcfg, ok_bind, hrange.checkRange, ok_bind]

namespace State.RsOperands

variable (h : s.RsOperands g)
include h

theorem rsEncode_stops (hhole : ∃ i b, i < s.k ∧ 0 < s.m ∧ InRange s b ∧ s.byteAt .shard ⟨i, b⟩ = none) :
    StopsUnwritten .rsEncode s := by
  obtain ⟨i, b, hi, hm, hb, hnone⟩ := hhole
  have hne := State.paritySlots_ne_nil.2 hm
  refine State.Stops.stopsUnwritten (ruleOf_rsEncode h.configured h.range ▸ ?_)
  exact h.range.code_stops hne (.inl ⟨_, h.genRows hne⟩) (State.mem_dataSlots.2 hi) hb hnone

theorem rsEncode_succeeds {x : Nat → Nat → Byte}
    (hx : ∀ i b, i < s.k → InRange s b → s.byteAt .shard ⟨i, b⟩ = some (x i b)) :
    ∃ t, SucceedsTo .rsEncode s t
      ∧ (∀ j b, j < s.m → InRange s b →
          t.byteAt .shard ⟨s.k + j, b⟩ = some (xorSum s.k fun i => gfMul (g j i) (x i b)))
      ∧ (∀ a, legalAddr s.lmax .shard a = true → ¬ (s.k ≤ a.row ∧ a.row < s.k + s.m ∧ InRange s a.col) →
          t.byteAt .shard a = s.byteAt .shard a)
      ∧ Frame [2] [.shard] s t := by
  obtain ⟨u, hcode, -, hproduct, hother⟩ := h.range.code_product rfl (State.dataSlots_ne_nil h.pos)
    State.nodup_paritySlots h.genRows (State.byteAt_data hx)
  obtain ⟨hsucc, hbyte, hframe⟩ := succeedsTo_of_ok ((ruleOf_rsEncode h.configured h.range).trans hcode) rfl
  simp only [State.length_dataSlots, State.length_paritySlots] at hproduct
  refine ⟨_, hsucc, fun j b hj hb => ?_, fun a ha hnot => ?_, hframe⟩
  · rw [hbyte, ← hproduct j b hj hb, State.getD_paritySlots hj]
  · rw [hbyte]
    refine hother a (State.legalAddr_col ha) fun ⟨hrow, hcol⟩ => hnot ?_
    obtain ⟨hlo, hhi⟩ := State.mem_paritySlots.1 hrow
    exact ⟨hlo, hhi, hcol⟩

end State.RsOperands

end

/-- Settles O52: the checks in the rule's order, then the data slots read and the parity stored. -/
theorem rsEncodeRule_holds : Obligations.RsEncodeRule := by
  refine ⟨by decide, fun s => ⟨rsEncode_unconfigured_fails, rsEncode_range_fails,
    fun k m g hcfg hrange hk hm hpos hgen => ?_⟩⟩
  obtain rfl : s.k = k := hk
  obtain rfl : s.m = m := hm
  have hop : s.RsOperands g := ⟨hcfg, hrange, hpos, hgen⟩
  exact ⟨hop.rsEncode_stops, fun x => hop.rsEncode_succeeds⟩

/-! ## RS_CHECK (R238) -/

section
variable {s : State} {useTemp : Bool} {g : Nat → Nat → Byte}

theorem rsCheck_unconfigured_fails (h : s.regs.status.cfgValid = false) : FailsWith (.rsCheck useTemp) s 8 :=
  failsWith_of_rule (e := .notConfigured) (by rw [ruleOf, rsCheckRule, rsReady_fails h, error_bind])

theorem rsCheck_range_fails (hcfg : s.regs.status.cfgValid = true) (h : ¬ RangeOk s) :
    FailsWith (.rsCheck useTemp) s 3 :=
  failsWith_of_rule (e := .rangeError)
    (by rw [ruleOf, rsCheckRule, rsReady_ok hcfg, ok_bind, checkRange_fails h, error_bind])

theorem rsCheck_temp_fails (hcfg : s.regs.status.cfgValid = true) (hrange : RangeOk s) (huse : useTemp = true)
    (h : ¬ TempOk s) : FailsWith (.rsCheck useTemp) s 3 := by
  subst huse
  refine failsWith_of_rule (e := .rangeError) ?_
  rw [ruleOf, rsCheckRule, rsReady_ok hcfg, ok_bind, hrange.checkRange, ok_bind, checkTemp_fails h, error_bind]

/-- With its checks passed RS_CHECK runs the kernel over the parity rows, and leaves the verdict and a spoiled TEMP. -/
theorem ruleOf_rsCheck (hcfg : s.regs.status.cfgValid = true) (hrange : RangeOk s) (htemp : useTemp = true → TempOk s) :
    ruleOf (.rsCheck useTemp) s = (do
      let same ← s.check (s.genRows s.paritySlots) s.dataSlots s.paritySlots s.regs.off.toNat s.regs.cnt.toNat
      .ok ((s.setResult (if same then 1#8 else 0#8)).spoilTemp useTemp s.regs.off.toNat s.regs.cnt.toNat)) := by
  rw [ruleOf, rsCheckRule, rsReady_ok hcfg, ok_bind, hrange.checkRange, ok_bind, checkTemp_ok htemp, ok_bind]

namespace State.RsOperands

variable (h : s.RsOperands g)
include h

theorem rsCheck_stops (htemp : useTemp = true → TempOk s)
    (hhole : (∃ i b, i < s.k ∧ 0 < s.m ∧ InRange s b ∧ s.byteAt .shard ⟨i, b⟩ = none)
      ∨ (∃ j b, j < s.m ∧ InRange s b ∧ s.byteAt .shard ⟨s.k + j, b⟩ = none)) :
    StopsUnwritten (.rsCheck useTemp) s := by
  have hstop {r b : Nat} (hm : 0 < s.m) (hr : r ∈ s.dataSlots ∨ r ∈ s.paritySlots) (hb : InRange s b)
      (hnone : s.byteAt .shard ⟨r, b⟩ = none) : StopsUnwritten (.rsCheck useTemp) s := by
    have hrows := h.genRows (State.paritySlots_ne_nil.2 hm)
    obtain ⟨c, hc, rfl⟩ := h.range.exists_add hb
    refine State.Stops.stopsUnwritten (ruleOf_rsCheck h.configured h.range htemp ▸ State.Stops.bind ?_ _)
    refine State.check_stops (Nat.ne_zero_of_lt hc) (State.dataSlots_ne_nil h.pos) (State.paritySlots_ne_nil.2 hm)
      (.inl ⟨_, hrows⟩) (fun R hR => ?_) (.inr ⟨r, hr, c, hc, hnone⟩)
    cases hrows.symm.trans hR
    rfl
  rcases hhole with ⟨i, b, hi, hm, hb, hnone⟩ | ⟨j, b, hj, hb, hnone⟩
  · exact hstop hm (.inl (State.mem_dataSlots.2 hi)) hb hnone
  · exact hstop (Nat.zero_lt_of_lt hj) (.inr (State.mem_paritySlots.2 ⟨by omega, by omega⟩)) hb hnone

theorem rsCheck_succeeds (htemp : useTemp = true → TempOk s) {x z : Nat → Nat → Byte}
    (hx : ∀ i b, i < s.k → InRange s b → s.byteAt .shard ⟨i, b⟩ = some (x i b))
    (hz : ∀ j b, j < s.m → InRange s b → s.byteAt .shard ⟨s.k + j, b⟩ = some (z j b)) :
    ∃ t, SucceedsTo (.rsCheck useTemp) s t
      ∧ (t.regWord 4 = 0#32 ∨ t.regWord 4 = 1#32)
      ∧ (t.regWord 4 = 1#32 ↔ ∀ j b, j < s.m → InRange s b → z j b = xorSum s.k fun i => gfMul (g j i) (x i b))
      ∧ (useTemp = true → ∀ b, InRange s b → t.byteAt .temp ⟨0, b⟩ = none)
      ∧ (∀ a, legalAddr s.lmax .temp a = true → ¬ (useTemp = true ∧ InRange s a.col) →
          t.byteAt .temp a = s.byteAt .temp a)
      ∧ Frame [2, 4] [.temp] s t := by
  obtain ⟨same, hcheck, hsame⟩ := h.range.check_product (State.dataSlots_ne_nil h.pos) h.genRows
    (State.byteAt_data hx) (z := z) fun j b hj hb => by
      rw [State.length_paritySlots] at hj
      rw [State.getD_paritySlots hj, hz j b hj hb]
  simp only [State.length_dataSlots, State.length_paritySlots] at hsame
  have hrule := ruleOf_rsCheck h.configured h.range htemp
  rw [hcheck, ok_bind] at hrule
  obtain ⟨t, hsucc, hbit, hverdict, hspoilt, hkept, hframe⟩ := h.range.verdict_succeeds hrule
  exact ⟨t, hsucc, hbit, hverdict.trans hsame, hspoilt, hkept, hframe⟩

end State.RsOperands

end

/-- Settles O53: the checks in the rule's order, then the reads, the verdict in RESULT and TEMP spoiled. -/
theorem rsCheckRule_holds : Obligations.RsCheckRule := by
  refine ⟨by decide, by decide, fun useTemp s => ⟨rsCheck_unconfigured_fails, rsCheck_range_fails, rsCheck_temp_fails,
    fun k m g hcfg hrange htemp hk hm hpos hgen => ?_⟩⟩
  obtain rfl : s.k = k := hk
  obtain rfl : s.m = m := hm
  have hop : s.RsOperands g := ⟨hcfg, hrange, hpos, hgen⟩
  exact ⟨hop.rsCheck_stops htemp, fun x z => hop.rsCheck_succeeds htemp⟩

/-! ## Present, chosen and missing slots (R239, R240, R242) -/

section
variable {s : State} {r : Regs} {i j k lo hi n : Nat}

theorem Regs.mem_presentList : i ∈ r.presentList n ↔ i < n ∧ r.present.getLsbD i = true := by
  simp [Regs.presentList, Regs.isPresent]

theorem Regs.mem_missingList : i ∈ r.missingList lo hi ↔ lo ≤ i ∧ i < hi ∧ r.present.getLsbD i = false := by
  have hrange : lo ≤ i ∧ i < lo + (hi - lo) ↔ lo ≤ i ∧ i < hi := by omega
  simp only [Regs.missingList, Regs.isPresent, List.mem_filter, List.mem_range'_1, Bool.not_eq_true', hrange, and_assoc]

theorem Regs.nodup_missingList : (r.missingList lo hi).Nodup := List.Nodup.filter _ List.nodup_range'

/-- The present slots below n fill `[0, n)` exactly when each slot is present. -/
theorem Regs.length_presentList : (r.presentList n).length = n ↔ ∀ i, i < n → r.present.getLsbD i = true := by
  have h := List.length_filter_eq_length_iff (l := List.range n) (p := r.isPresent)
  rw [List.length_range] at h
  simpa [Regs.presentList, Regs.isPresent] using h

theorem Regs.length_presentList_le : (r.presentList n).length ≤ n := by
  simpa [Regs.presentList] using List.length_filter_le r.isPresent (List.range n)

/-- The present slots below k stand first among the present slots. -/
theorem Regs.presentList_append (h : k ≤ n) : ∃ l, r.presentList n = r.presentList k ++ l := by
  obtain ⟨d, rfl⟩ := Nat.exists_eq_add_of_le h
  exact ⟨_, by rw [Regs.presentList, List.range_add, List.filter_append, Regs.presentList]⟩

theorem getD_mem {l : List Nat} (h : i < l.length) : l.getD i 0 ∈ l := by
  rw [List.getD_eq_getElem _ _ h]
  exact List.getElem_mem h

theorem exists_getD_of_mem {l : List Nat} (h : i ∈ l) : ∃ o < l.length, l.getD o 0 = i := by
  obtain ⟨o, ho, rfl⟩ := List.getElem_of_mem h
  exact ⟨o, ho, List.getD_eq_getElem _ _ ho⟩

theorem State.length_chosen (h : s.k ≤ (s.regs.presentList s.n).length) : s.chosen.length = s.k :=
  List.length_take_of_le h

theorem State.getD_chosen (h : j < s.k) : s.chosen.getD j 0 = (s.regs.presentList s.n).getD j 0 := by
  simp [State.chosen, h]

theorem State.mem_chosen (h : i ∈ s.chosen) : i < s.n ∧ s.regs.present.getLsbD i = true :=
  Regs.mem_presentList.1 (List.mem_of_mem_take h)

/-- The chosen slots begin with the present data slots. -/
theorem State.chosen_append (h : s.k ≤ s.n) : ∃ l, s.chosen = s.regs.presentList s.k ++ l := by
  obtain ⟨l, hl⟩ := Regs.presentList_append (r := s.regs) h
  refine ⟨l.take (s.k - (s.regs.presentList s.k).length), ?_⟩
  rw [State.chosen, hl, List.take_append, List.take_of_length_le Regs.length_presentList_le]

/-- Every present data slot is chosen. -/
theorem State.mem_chosen_of_present (h : s.k ≤ s.n) (hi : i < s.k) (hp : s.regs.present.getLsbD i = true) :
    i ∈ s.chosen := by
  obtain ⟨l, hl⟩ := State.chosen_append h
  rw [hl]
  exact List.mem_append_left _ (Regs.mem_presentList.2 ⟨hi, hp⟩)

/-- With no data slot missing the chosen slots are data slots. -/
theorem State.lt_of_mem_chosen (h : s.k ≤ (s.regs.presentList s.n).length) (hmd : s.regs.missingList 0 s.k = [])
    (hi : i ∈ s.chosen) : i < s.k := by
  obtain ⟨l, hl⟩ := State.chosen_append (h.trans Regs.length_presentList_le)
  have hfull : (s.regs.presentList s.k).length = s.k := Regs.length_presentList.2 fun j hj => by
    by_contra hp
    exact List.not_mem_nil (hmd ▸ Regs.mem_missingList.2 ⟨Nat.zero_le j, hj, by simpa using hp⟩)
  have hlen := congrArg List.length hl
  rw [State.length_chosen h, List.length_append, hfull] at hlen
  rw [hl, List.length_eq_zero_iff.1 (by omega : l.length = 0), List.append_nil] at hi
  exact (Regs.mem_presentList.1 hi).1

/-- A slot is missing among the data slots or among the parity slots. -/
theorem State.missing_parity (h : (s.regs.presentList s.n).length ≠ s.n) (hmd : s.regs.missingList 0 s.k = []) :
    s.regs.missingList s.k s.n ≠ [] := by
  intro hmp
  refine h (Regs.length_presentList.2 fun i hi => ?_)
  by_contra hp
  rcases Nat.lt_or_ge i s.k with hik | hik
  · exact List.not_mem_nil (hmd ▸ Regs.mem_missingList.2 ⟨Nat.zero_le i, hik, by simpa using hp⟩)
  · exact List.not_mem_nil (hmp ▸ Regs.mem_missingList.2 ⟨hik, hi, by simpa using hp⟩)

end

/-- Bytes that all hold values, by slot and position. -/
theorem State.exists_bytes {s : State} {slot : Nat → Nat} {p : Nat → Nat → Prop}
    (h : ∀ j b, p j b → s.byteAt .shard ⟨slot j, b⟩ ≠ none) :
    ∃ x : Nat → Nat → Byte, ∀ j b, p j b → s.byteAt .shard ⟨slot j, b⟩ = some (x j b) := by
  refine ⟨fun j b => (s.byteAt .shard ⟨slot j, b⟩).getD 0#8, fun j b hp => ?_⟩
  obtain ⟨v, hv⟩ := Option.ne_none_iff_exists'.1 (h j b hp)
  simp only [hv, Option.getD_some]

/-! ## RS_DECODE (R242) -/

section
variable {s : State}

theorem rsDecode_unconfigured_fails (h : s.regs.status.cfgValid = false) : FailsWith .rsDecode s 8 :=
  failsWith_of_rule (e := .notConfigured) (by rw [ruleOf, rsDecodeRule, rsReady_fails h, error_bind])

theorem rsDecode_range_fails (hcfg : s.regs.status.cfgValid = true) (h : ¬ RangeOk s) : FailsWith .rsDecode s 3 :=
  failsWith_of_rule (e := .rangeError)
    (by rw [ruleOf, rsDecodeRule, rsReady_ok hcfg, ok_bind, checkRange_fails h, error_bind])

theorem rsDecode_few_fails (hcfg : s.regs.status.cfgValid = true) (hrange : RangeOk s)
    (h : (s.regs.presentList s.n).length < s.k) : FailsWith .rsDecode s 4 := by
  refine failsWith_of_rule (e := .notEnoughShards) ?_
  rw [ruleOf, rsDecodeRule, rsReady_ok hcfg, ok_bind, hrange.checkRange, ok_bind,
    require_error (decide_eq_false h.not_ge), error_bind]

theorem rsDecode_all_succeeds (hcfg : s.regs.status.cfgValid = true) (hrange : RangeOk s)
    (h : s.k ≤ (s.regs.presentList s.n).length) (hall : (s.regs.presentList s.n).length = s.n) :
    SucceedsTo .rsDecode s s.completeOk := by
  refine succeedsTo_of_rule ?_ rfl
  rw [ruleOf, rsDecodeRule, rsReady_ok hcfg, ok_bind, hrange.checkRange, ok_bind, require_ok (decide_eq_true h),
    ok_bind, if_pos hall]

end

/-- What RS_DECODE does with the inverse of the chosen rows: one kernel over the missing data slots, then one over the
missing parity slots. -/
def State.restore (s : State) (D : Mat) : Except Stop State := do
  let t ← s.code (matPick D (s.regs.missingList 0 s.k)) s.chosen (s.regs.missingList 0 s.k) s.regs.off.toNat
    s.regs.cnt.toNat
  t.code (t.genRows (s.regs.missingList s.k s.n)) t.dataSlots (s.regs.missingList s.k s.n) s.regs.off.toNat
    s.regs.cnt.toNat

/-- Configured with k at least 1, a byte range that the check accepts, enough present slots but not all, and the chosen
rows of GEN. -/
structure State.DecodeOperands (s : State) (g : Nat → Nat → Byte) : Prop where
  configured : s.regs.status.cfgValid = true
  range : RangeOk s
  pos : 1 ≤ s.k
  enough : s.k ≤ (s.regs.presentList s.n).length
  missing : (s.regs.presentList s.n).length ≠ s.n
  gen : ∀ j c, j < s.k → c < s.k → s.byteAt .gen ⟨(s.regs.presentList s.n).getD j 0, c⟩ = some (g j c)

namespace State.DecodeOperands

variable {s : State} {g x gp : Nat → Nat → Byte} {D : Mat} (h : s.DecodeOperands g)
include h

theorem length_chosen : s.chosen.length = s.k := State.length_chosen h.enough

theorem k_le : s.k ≤ s.n := h.enough.trans Regs.length_presentList_le

theorem chosen_ne_nil : s.chosen ≠ [] := List.ne_nil_of_length_pos (h.length_chosen.symm ▸ h.pos)

/-- With its checks passed RS_DECODE inverts the chosen rows and restores. -/
theorem ruleOf_rsDecode : ruleOf .rsDecode s = match (Mat.of s.k s.k g).invert with
    | none => .error (.error .singular)
    | some D => s.restore D := by
  have hrows := State.genRows_ok (s := s) (rows := s.chosen) (g := g) h.pos h.chosen_ne_nil fun j c hj hc => by
    rw [h.length_chosen] at hj
    rw [State.getD_chosen hj, h.gen j c hj hc]
  rw [h.length_chosen] at hrows
  rw [ruleOf, rsDecodeRule, rsReady_ok h.configured, ok_bind, h.range.checkRange, ok_bind,
    require_ok (decide_eq_true h.enough), ok_bind, if_neg h.missing, hrows, ok_bind, matInvert_eq rfl h.pos]
  cases (Mat.of s.k s.k g).invert <;> rfl

theorem singular_fails (hnone : (Mat.of s.k s.k g).invert = none) : FailsWith .rsDecode s 5 :=
  failsWith_of_rule (e := .singular) (by rw [h.ruleOf_rsDecode, hnone])

/-- After the first kernel every data slot holds values in the byte range: a present one is chosen, and a missing one is
restored. -/
theorem restored_data {t : State}
    (hx : ∀ j b, j < s.k → InRange s b → s.byteAt .shard ⟨(s.regs.presentList s.n).getD j 0, b⟩ = some (x j b))
    (hrestored : ∀ i b, i ∈ s.regs.missingList 0 s.k → InRange s b →
      t.byteAt .shard ⟨i, b⟩ = some (xorSum s.k fun j => gfMul (D.entry i j) (x j b)))
    (hother : ∀ a, a.col < 2 ^ 32 → ¬ (a.row ∈ s.regs.missingList 0 s.k ∧ InRange s a.col) →
      t.byteAt .shard a = s.byteAt .shard a) :
    ∃ y : Nat → Nat → Byte, ∀ c b, c < s.k ∧ InRange s b → t.byteAt .shard ⟨c, b⟩ = some (y c b) := by
  refine State.exists_bytes (slot := id) fun c b ⟨hc, hb⟩ => ?_
  by_cases hp : s.regs.present.getLsbD c = true
  · obtain ⟨j, hj, rfl⟩ := exists_getD_of_mem (State.mem_chosen_of_present h.k_le hc hp)
    rw [h.length_chosen] at hj
    rw [id, hother _ (h.range.col_lt hb) fun hmem => ?_, State.getD_chosen hj, hx j b hj hb]
    · exact Option.some_ne_none _
    · rw [not_present_of_mem_missingList hmem.1] at hp
      exact absurd hp (by decide)
  · rw [id, hrestored c b (Regs.mem_missingList.2 ⟨Nat.zero_le c, hc, by simpa using hp⟩) hb]
    exact Option.some_ne_none _

/-- The second kernel restores the missing parity slots and changes no other byte. -/
theorem restore_parity {t : State} (hregs : t.regs = s.regs) (hgen : ∀ a, t.byteAt .gen a = s.byteAt .gen a)
    {y : Nat → Nat → Byte} (hy : ∀ c b, c < s.k ∧ InRange s b → t.byteAt .shard ⟨c, b⟩ = some (y c b))
    (hgp : ∀ i c, s.k ≤ i → i < s.n → s.regs.present.getLsbD i = false → c < s.k →
      s.byteAt .gen ⟨i, c⟩ = some (gp i c)) :
    ∃ u, t.code (t.genRows (s.regs.missingList s.k s.n)) t.dataSlots (s.regs.missingList s.k s.n) s.regs.off.toNat
        s.regs.cnt.toNat = .ok u
      ∧ (∀ i b, i ∈ s.regs.missingList s.k s.n → InRange s b →
          u.byteAt .shard ⟨i, b⟩ = some (xorSum s.k fun c => gfMul (gp i c) (y c b)))
      ∧ ∀ a, a.col < 2 ^ 32 → ¬ (a.row ∈ s.regs.missingList s.k s.n ∧ InRange s a.col) →
          u.byteAt .shard a = t.byteAt .shard a := by
  have hk : t.k = s.k := congrArg (fun r => r.dsc.toNat) hregs
  have hlen : t.dataSlots.length = s.k := State.length_dataSlots.trans hk
  have hrows (hne : s.regs.missingList s.k s.n ≠ []) := State.genRows_ok (s := t)
    (g := fun o c => gp ((s.regs.missingList s.k s.n).getD o 0) c) (hk.symm ▸ h.pos) hne fun o c ho hc => by
      obtain ⟨hlo, hhi, hp⟩ := Regs.mem_missingList.1 (getD_mem ho)
      rw [hgen, hgp _ c hlo hhi hp (hk ▸ hc)]
  rw [← State.length_dataSlots (s := t)] at hrows
  obtain ⟨u, hcode, -, hproduct, hother⟩ := h.range.code_product hregs (State.dataSlots_ne_nil (hk.symm ▸ h.pos))
    Regs.nodup_missingList hrows (x := y) fun c b hc hb => by
      rw [State.length_dataSlots] at hc
      rw [State.getD_dataSlots hc, hy c b ⟨hk ▸ hc, hb⟩]
  rw [hlen] at hproduct
  refine ⟨u, hcode, fun i b hi hb => ?_, hother⟩
  obtain ⟨o, ho, rfl⟩ := exists_getD_of_mem hi
  exact hproduct o b ho hb

section
variable (hD : (Mat.of s.k s.k g).invert = some D)
include hD

/-- The rows of the inverse that restore the missing data slots. -/
theorem matPick_missing (hne : s.regs.missingList 0 s.k ≠ []) :
    matPick D (s.regs.missingList 0 s.k)
      = .ok (Mat.of (s.regs.missingList 0 s.k).length s.chosen.length
          fun o c => D.entry ((s.regs.missingList 0 s.k).getD o 0) c) := by
  obtain ⟨hrows, hcols, -⟩ := invert_solves hD
  rw [matPick_ok hne fun i hi => hrows.symm ▸ mem_missingList hi, Mat.pick, hcols, h.length_chosen]

theorem rsDecode_stops
    (hhole : ∃ j b, j < s.k ∧ InRange s b ∧ s.byteAt .shard ⟨(s.regs.presentList s.n).getD j 0, b⟩ = none) :
    StopsUnwritten .rsDecode s := by
  obtain ⟨j, b, hj, hb, hnone⟩ := hhole
  have hmem : (s.regs.presentList s.n).getD j 0 ∈ s.chosen := by
    rw [← State.getD_chosen hj]
    exact getD_mem (h.length_chosen.symm ▸ hj)
  refine State.Stops.stopsUnwritten ?_
  rw [h.ruleOf_rsDecode, hD]
  by_cases hmd : s.regs.missingList 0 s.k = []
  · have hmp := State.missing_parity h.missing hmd
    have hdata := State.mem_dataSlots.2 (State.lt_of_mem_chosen h.enough hmd hmem)
    simp only [State.restore, State.code_empty (.inr hmd), ok_bind]
    exact h.range.code_stops hmp (State.readBlock_cases hmp (Nat.one_le_iff_ne_zero.1 h.pos)) hdata hb hnone
  · exact (h.range.code_stops hmd (.inl ⟨_, h.matPick_missing hD hmd⟩) hmem hb hnone).bind _

/-- The first kernel restores the missing data slots and changes no other byte. -/
theorem restore_data
    (hx : ∀ j b, j < s.k → InRange s b → s.byteAt .shard ⟨(s.regs.presentList s.n).getD j 0, b⟩ = some (x j b)) :
    ∃ t, s.code (matPick D (s.regs.missingList 0 s.k)) s.chosen (s.regs.missingList 0 s.k) s.regs.off.toNat
        s.regs.cnt.toNat = .ok t ∧ t.regs = s.regs
      ∧ (∀ i b, i ∈ s.regs.missingList 0 s.k → InRange s b →
          t.byteAt .shard ⟨i, b⟩ = some (xorSum s.k fun j => gfMul (D.entry i j) (x j b)))
      ∧ ∀ a, a.col < 2 ^ 32 → ¬ (a.row ∈ s.regs.missingList 0 s.k ∧ InRange s a.col) →
          t.byteAt .shard a = s.byteAt .shard a := by
  obtain ⟨t, hcode, hregs, hproduct, hother⟩ := h.range.code_product rfl h.chosen_ne_nil Regs.nodup_missingList
    (h.matPick_missing hD) (x := x) fun j b hj hb => by
      rw [h.length_chosen] at hj
      rw [State.getD_chosen hj, hx j b hj hb]
  rw [h.length_chosen] at hproduct
  refine ⟨t, hcode, hregs, fun i b hi hb => ?_, hother⟩
  obtain ⟨o, ho, rfl⟩ := exists_getD_of_mem hi
  exact hproduct o b ho hb

/-- RS_DECODE restores the missing data slots, then the missing parity slots from the data slots so restored, and
changes no other byte. -/
theorem rsDecode_succeeds
    (hx : ∀ j b, j < s.k → InRange s b → s.byteAt .shard ⟨(s.regs.presentList s.n).getD j 0, b⟩ = some (x j b))
    (hgp : ∀ i c, s.k ≤ i → i < s.n → s.regs.present.getLsbD i = false → c < s.k →
      s.byteAt .gen ⟨i, c⟩ = some (gp i c)) :
    ∃ t, SucceedsTo .rsDecode s t
      ∧ (∀ i b, i < s.k → s.regs.present.getLsbD i = false → InRange s b →
          t.byteAt .shard ⟨i, b⟩ = some (xorSum s.k fun j => gfMul (D.entry i j) (x j b)))
      ∧ (∀ i b, s.k ≤ i → i < s.n → s.regs.present.getLsbD i = false → InRange s b → ∀ y : Nat → Byte,
          (∀ c, c < s.k → t.byteAt .shard ⟨c, b⟩ = some (y c)) →
          t.byteAt .shard ⟨i, b⟩ = some (xorSum s.k fun c => gfMul (gp i c) (y c)))
      ∧ (∀ a, a.col < 2 ^ 32 → ¬ (a.row < s.n ∧ s.regs.present.getLsbD a.row = false ∧ InRange s a.col) →
          t.byteAt .shard a = s.byteAt .shard a)
      ∧ Frame [2] [.shard] s t := by
  obtain ⟨t, hcode, hregs, hrestored, hother⟩ := h.restore_data hD hx
  obtain ⟨y, hy⟩ := h.restored_data hx hrestored hother
  obtain ⟨u, hcode', hrestored', hother'⟩ :=
    h.restore_parity hregs ((State.code_frame hcode).byteAt_eq (by decide)) hy hgp
  have hrule : ruleOf .rsDecode s = .ok u := by
    rw [h.ruleOf_rsDecode, hD]
    simp only [State.restore, hcode, ok_bind, hcode']
  obtain ⟨hsucc, hbyte, hframe⟩ := succeedsTo_of_ok hrule rfl
  have hdata {c b : Nat} (hc : c < s.k) (hb : InRange s b) : u.byteAt .shard ⟨c, b⟩ = t.byteAt .shard ⟨c, b⟩ :=
    hother' _ (h.range.col_lt hb) fun hmem => (Regs.mem_missingList.1 hmem.1).1.not_gt hc
  refine ⟨_, hsucc, fun i b hi hp hb => ?_, fun i b hlo hhi hp hb z hz => ?_, fun a ha hnot => ?_, hframe⟩
  · rw [hbyte, hdata hi hb, hrestored i b (Regs.mem_missingList.2 ⟨Nat.zero_le i, hi, hp⟩) hb]
  · rw [hbyte, hrestored' i b (Regs.mem_missingList.2 ⟨hlo, hhi, hp⟩) hb]
    refine congrArg some (xorSum_congr fun c hc => congrArg (gfMul _) (Option.some.inj ?_))
    rw [← hz c hc, hbyte, hdata hc hb, hy c b ⟨hc, hb⟩]
  · rw [hbyte, hother' a ha fun ⟨hmem, hcol⟩ => ?_, hother a ha fun ⟨hmem, hcol⟩ => ?_]
    · exact hnot ⟨(mem_missingList hmem).trans_le h.k_le, not_present_of_mem_missingList hmem, hcol⟩
    · exact hnot ⟨mem_missingList hmem, not_present_of_mem_missingList hmem, hcol⟩

end

end State.DecodeOperands

/-- Settles O54: the checks in the rule's order, then the inversion, the reads, and the two kernels. -/
theorem rsDecodeRule_holds : Obligations.RsDecodeRule := by
  refine ⟨by decide, fun s => ⟨rsDecode_unconfigured_fails, rsDecode_range_fails, fun k n P hcfg hrange hk hn hP => ?_⟩⟩
  obtain rfl : s.k = k := hk
  obtain rfl : s.n = n := hn
  obtain rfl : P = s.regs.presentList s.n := hP
  refine ⟨rsDecode_few_fails hcfg hrange, fun henough hall => ?_, fun hpos henough hmissing g hg => ?_⟩
  · exact ⟨_, rsDecode_all_succeeds hcfg hrange henough hall, frame_completeOk s⟩
  · have hop : s.DecodeOperands g := ⟨hcfg, hrange, hpos, henough, hmissing, hg⟩
    refine ⟨hop.singular_fails, fun D hD => ⟨hop.rsDecode_stops hD, fun x gp hx hgp => ?_⟩⟩
    obtain ⟨t, hsucc, hdata, hparity, hother, hframe⟩ := hop.rsDecode_succeeds hD hx hgp
    exact ⟨t, hsucc, hdata, hparity, fun a ha => hother a (State.legalAddr_col ha), hframe⟩

/-! ## When RS_DECODE is SINGULAR (R235, R242) -/

section
variable {i : Instr} {s t u : State} {code : BitVec 4} {g : Nat → Nat → Byte}

theorem FailsWith.errcode (h : FailsWith i s code) (ht : exec i s = .next t) : t.regs.status.errcode = code := by
  obtain ⟨u, hu, ⟨-, -, -, hcode, -⟩, -⟩ := h
  cases ht.symm.trans hu
  exact hcode

theorem SucceedsTo.errcode (h : SucceedsTo i s u) (ht : exec i s = .next t) : t.regs.status.errcode = 0 := by
  obtain ⟨hu, -, -, -, hcode, -⟩ := h
  cases ht.symm.trans hu
  exact hcode

theorem StopsUnwritten.not_next (h : StopsUnwritten i s) : exec i s ≠ .next t := by
  obtain ⟨space, a, hfault, -⟩ := h
  rw [hfault]
  nofun

theorem State.nodup_chosen : s.chosen.Nodup := (List.take_sublist _ _).nodup (List.Nodup.filter _ List.nodup_range)

/-- With the inverse of the chosen rows RS_DECODE stops on an unwritten byte or succeeds. -/
theorem State.DecodeOperands.stops_or_succeeds (h : s.DecodeOperands g) {D : Mat}
    (hD : (Mat.of s.k s.k g).invert = some D) {gp : Nat → Nat → Byte}
    (hgp : ∀ i c, s.k ≤ i → i < s.n → s.regs.present.getLsbD i = false → c < s.k →
      s.byteAt .gen ⟨i, c⟩ = some (gp i c)) : StopsUnwritten .rsDecode s ∨ ∃ t, SucceedsTo .rsDecode s t := by
  by_cases hhole : ∃ j b, j < s.k ∧ InRange s b ∧ s.byteAt .shard ⟨(s.regs.presentList s.n).getD j 0, b⟩ = none
  · exact .inl (h.rsDecode_stops hD hhole)
  · obtain ⟨x, hx⟩ := State.exists_bytes (s := s) (slot := ((s.regs.presentList s.n).getD · 0))
      (p := fun j b => j < s.k ∧ InRange s b) fun j b ⟨hj, hb⟩ hnone => hhole ⟨j, b, hj, hb, hnone⟩
    obtain ⟨t, hsucc, -⟩ := h.rsDecode_succeeds hD (fun j b hj hb => hx j b ⟨hj, hb⟩) hgp
    exact .inr ⟨t, hsucc⟩

/-- A completion with ERRCODE = 5 comes of the inversion: every other end of RS_DECODE has another code. -/
theorem invert_of_errcode (hcfg : s.regs.status.cfgValid = true) (hpos : 1 ≤ s.k)
    (hg : ∀ r c, r < s.n → c < s.k → s.byteAt .gen ⟨r, c⟩ = some (g r c)) (ht : exec .rsDecode s = .next t)
    (hcode : t.regs.status.errcode = 5) :
    s.chosen.length = s.k ∧ (Mat.of s.k s.k fun j c => g (s.chosen.getD j 0) c).invert = none := by
  have hfails {code : BitVec 4} (h : FailsWith .rsDecode s code) : code = 5 := (h.errcode ht).symm.trans hcode
  have hsucceeds {u : State} (h : SucceedsTo .rsDecode s u) : (0 : BitVec 4) = 5 := (h.errcode ht).symm.trans hcode
  have hrange : RangeOk s := by
    by_contra h
    exact absurd (hfails (rsDecode_range_fails hcfg h)) (by decide)
  have henough : s.k ≤ (s.regs.presentList s.n).length := by
    by_contra h
    exact absurd (hfails (rsDecode_few_fails hcfg hrange (Nat.lt_of_not_le h))) (by decide)
  have hmissing : (s.regs.presentList s.n).length ≠ s.n := fun hall =>
    absurd (hsucceeds (rsDecode_all_succeeds hcfg hrange henough hall)) (by decide)
  have hlen := State.length_chosen henough
  have hop : s.DecodeOperands fun j c => g (s.chosen.getD j 0) c := by
    refine ⟨hcfg, hrange, hpos, henough, hmissing, fun j c hj hc => ?_⟩
    rw [← State.getD_chosen hj]
    exact hg _ c (State.mem_chosen (getD_mem (hlen.symm ▸ hj))).1 hc
  refine ⟨hlen, Option.eq_none_iff_forall_ne_some.2 fun D hD => ?_⟩
  rcases hop.stops_or_succeeds hD (gp := g) fun i c _ hi _ hc => hg i c hi hc with hstop | ⟨u, hu⟩
  · exact hstop.not_next ht
  · exact absurd (hsucceeds hu) (by decide)

end

/-- Settles O55: but for GEN_POW with n = 256 the chosen rows of the generator matrix have an inverse. -/
theorem singularOnlyUnderGenPow256 : Obligations.SingularOnlyUnderGenPow256 := by
  intro s t hinv ht hcode
  have hcfg : s.regs.status.cfgValid = true := by
    by_contra h
    have h8 := (rsDecode_unconfigured_fails (by simpa using h)).errcode ht
    exact absurd (h8.symm.trans hcode) (by decide)
  obtain ⟨hk, hm, hsum, hle, -⟩ := hinv.configured hcfg
  obtain ⟨G, hG, hbytes⟩ := hinv.genMatrix hcfg
  obtain ⟨hlen, hnone⟩ := invert_of_errcode hcfg hk hbytes ht hcode
  by_contra hcon
  have hdistinct (hgen : s.params.vandMode = .genPow) : s.regs.dsc.toNat + s.regs.psc.toNat ≤ 255 := by
    have hne : s.regs.tsc.toNat ≠ 256 := fun h => hcon ⟨hgen, h⟩
    omega
  obtain ⟨D, hD⟩ := anyKRowsAreInvertible.1 s.params.vandMode s.k s.m G s.chosen hk hm (hsum ▸ hle)
    (fun hgen => .inl (hdistinct hgen)) hG hlen State.nodup_chosen fun r hr => hsum ▸ (State.mem_chosen hr).1
  rw [pick_eq (buildG_shape hG).2 hlen] at hD
  cases hnone.symm.trans hD

/-! ## Encode, lose, decode (R247 item 2) -/

section
variable {k : Nat} {g d : Nat → Nat → Byte} {D : Mat} {slot : Nat → Nat}

/-- The inverse of the chosen rows takes the shard bytes of the chosen slots back to the data. -/
theorem restored_eq_data (hD : (Mat.of k k fun j c => g (slot j) c).invert = some D) {i : Nat} (hi : i < k)
    (b : Nat) : xorSum k (fun j => gfMul (D.entry i j) (matVec k g (d · b) (slot j))) = d i b := by
  obtain ⟨-, -, hsolves⟩ := invert_solves hD
  exact ((hsolves (d · b) _).1 (fun _ _ => rfl) i hi).symm

/-- A data shard of a systematic matrix is the data. -/
theorem matVec_systematic (hsys : ∀ r c, r < k → c < k → g r c = (if r = c then 1#8 else 0#8)) {i : Nat} (hi : i < k)
    (b : Nat) : matVec k g (d · b) i = d i b := matVec_of_unit hi fun j hj => hsys i j hi hj

end

/-- Settles O56: the inverse restores the data, and the parity rows give the parity of the data so restored. -/
theorem rsDecodeRestoresMissingShards : Obligations.RsDecodeRestoresMissingShards := by
  intro s k n P g d hcfg hrange hk hn hP hpos henough hg hsys hinvert hbytes
  obtain rfl : s.k = k := hk
  obtain rfl : s.n = n := hn
  obtain rfl : P = s.regs.presentList s.n := hP
  by_cases hall : (s.regs.presentList s.n).length = s.n
  · have hframe := frame_completeOk s
    have hkept := hframe.byteAt_eq (space := .shard) (by simp)
    refine ⟨_, rsDecode_all_succeeds hcfg hrange henough hall, fun i b hi hb => ?_, fun a _ _ => hkept a,
      hframe.mono (by simp) (by simp)⟩
    rw [hkept, hbytes i b hi (Regs.length_presentList.1 hall i hi) hb]
  · obtain ⟨D, hD⟩ := hinvert hall
    have hpresent {j : Nat} (hj : j < s.k) := Regs.mem_presentList.1 (getD_mem (hj.trans_le henough))
    have hop : s.DecodeOperands fun j c => g ((s.regs.presentList s.n).getD j 0) c :=
      ⟨hcfg, hrange, hpos, henough, hall, fun j c hj hc => hg _ c (hpresent hj).1 hc⟩
    obtain ⟨t, hsucc, hdata, hparity, hother, hframe⟩ := hop.rsDecode_succeeds hD
      (fun j b hj hb => hbytes _ b (hpresent hj).1 (hpresent hj).2 hb) (fun i c _ hi _ hc => hg i c hi hc)
    have hkept {i b : Nat} (hi : i < s.n) (hp : s.regs.present.getLsbD i = true) (hb : InRange s b) :
        t.byteAt .shard ⟨i, b⟩ = some (matVec s.k g (d · b) i) := by
      rw [hother _ (hrange.col_lt hb) fun hmissing => absurd (hp.symm.trans hmissing.2.1) (by decide)]
      exact hbytes i b hi hp hb
    have hdata_eq {i b : Nat} (hi : i < s.k) (hb : InRange s b) : t.byteAt .shard ⟨i, b⟩ = some (d i b) := by
      by_cases hp : s.regs.present.getLsbD i = true
      · rw [hkept (hi.trans_le hop.k_le) hp hb, matVec_systematic hsys hi]
      · exact (hdata i b hi (by simpa using hp) hb).trans (congrArg some (restored_eq_data hD hi b))
    refine ⟨t, hsucc, fun i b hi hb => ?_, fun a ha => hother a (State.legalAddr_col ha), hframe⟩
    by_cases hp : s.regs.present.getLsbD i = true
    · exact hkept hi hp hb
    · rcases Nat.lt_or_ge i s.k with hik | hik
      · rw [hdata_eq hik hb, ← matVec_systematic (d := d) hsys hik]
        rfl
      · exact hparity i b hik hi (by simpa using hp) hb (d · b) fun c hc => hdata_eq hc hb

/-! ## Encode, then check or encode again (R247 items 3 and 6) -/

section
variable {s t u : State} {space : Space} {rows : Except Stop Mat} {ins outs slots : List Nat} {off cnt col0 cols : Nat}

theorem collect_congr {α β ε : Type} {f f' : α → Except ε β} {l : List α} (h : ∀ a ∈ l, f a = f' a) :
    collect f l = collect f' l := by
  induction l with
  | nil => rfl
  | cons a l ih => rw [collect, collect, h a List.mem_cons_self, ih fun b hb => h b (List.mem_cons_of_mem _ hb)]

/-- Reading a block depends on its bytes alone. -/
theorem State.readBlock_congr
    (h : ∀ r ∈ slots, ∀ c < cols, t.byteAt space ⟨r, col0 + c⟩ = s.byteAt space ⟨r, col0 + c⟩) :
    t.readBlock space slots col0 cols = s.readBlock space slots col0 cols := by
  have hlines : collect (fun r => t.readLine space r col0 cols) slots
      = collect (fun r => s.readLine space r col0 cols) slots :=
    collect_congr fun r hr => collect_congr fun c hc => by
      rw [State.memRead, State.memRead, h r hr c (List.mem_range.1 hc)]
  rw [State.readBlock, State.readBlock, hlines]

/-- After `code` wrote outputs that are no inputs, `check` with the same operands is true, and `code` again changes
nothing. -/
theorem State.code_again (hcode : s.code rows ins outs off cnt = .ok u) (hend : off + cnt ≤ 2 ^ 32)
    (hrows : ∀ R, rows = .ok R → R.rows = outs.length) (hnodup : outs.Nodup) (hapart : ∀ r ∈ ins, r ∉ outs)
    (ht : ∀ a, t.byteAt .shard a = u.byteAt .shard a) :
    t.check rows ins outs off cnt = .ok true
      ∧ ∃ v, t.code rows ins outs off cnt = .ok v ∧ ∀ a, a.col < 2 ^ 32 → v.byteAt .shard a = t.byteAt .shard a := by
  rcases State.code_eq_ok hcode with ⟨hempty, -⟩ | ⟨hcnt, hne, R, X, rfl, hX, hd, rfl⟩
  · exact ⟨State.check_empty hempty, t, State.code_empty hempty, fun _ _ => rfl⟩
  · obtain ⟨-, hXcols, -⟩ := State.readBlock_shape hX
    have hRrows := hrows R rfl
    have hcnt' := Nat.one_le_iff_ne_zero.2 hcnt
    have hend' : off + (R.mul X).cols ≤ 2 ^ 32 := by rwa [Mat.mul_cols, hXcols]
    have hXt : t.readBlock .shard ins off cnt = .ok X := by
      refine (State.readBlock_congr fun r hr c hc => ?_).trans hX
      rw [ht, State.byteAt_writeBlock_other (by decide) hend' (by simp only; omega) fun hin => hapart r hr hin.1]
    have hout {o c : Nat} (ho : o < outs.length) (hc : c < cnt) :
        t.byteAt .shard ⟨outs.getD o 0, off + c⟩ = some ((R.mul X).entry o c) := by
      rw [ht, State.byteAt_writeBlock_same (by decide) hnodup hend' ho (by rwa [Mat.mul_cols, hXcols])]
    have hZ := State.readBlock_ok (List.length_pos_iff.2 hne) hcnt' fun o ho c hc => hout ho hc
    refine ⟨?_, _, State.code_ok hcnt hne hXt hd, fun a ha => ?_⟩
    · have hproduct : Mat.of outs.length cnt (R.mul X).entry = R.mul X := by
        have hentry := Mat.of_entry (matMul_wf (matMul_ok hd) (hRrows ▸ List.length_pos_iff.2 hne) (hXcols ▸ hcnt'))
        rwa [Mat.mul_rows, Mat.mul_cols, hRrows, hXcols] at hentry
      rw [State.check_ok hcnt hne hXt hZ hd, ← hproduct]
      exact congrArg _ (Mat.eqv_of.2 fun o c ho hc => Mat.entry_of _ ho hc)
    · by_cases hin : a.row ∈ outs ∧ off ≤ a.col ∧ a.col < off + (R.mul X).cols
      · obtain ⟨row, col⟩ := a
        obtain ⟨hrow, hlo, hhi⟩ := hin
        obtain ⟨o, ho, rfl⟩ := exists_getD_of_mem hrow
        obtain ⟨c, rfl⟩ := Nat.exists_eq_add_of_le hlo
        have hc : c < (R.mul X).cols := Nat.lt_of_add_lt_add_left hhi
        rw [State.byteAt_writeBlock_same (by decide) hnodup hend' ho hc, hout ho (by rwa [Mat.mul_cols, hXcols] at hc)]
      · exact State.byteAt_writeBlock_other (by decide) hend' ha hin

/-- What the Reed–Solomon commands take from the registers: the counts, the byte range and the configuration. -/
structure SameCodeword (s t : State) : Prop where
  configured : t.regs.status.cfgValid = s.regs.status.cfgValid
  k : t.k = s.k
  m : t.m = s.m
  off : t.regs.off = s.regs.off
  cnt : t.regs.cnt = s.regs.cnt
  range : RangeOk s → RangeOk t

/-- The kernel and completion change none of it. -/
theorem sameCodeword_of_code (h : s.code rows ins outs off cnt = .ok u) : SameCodeword s u.completeOk := by
  obtain ⟨l, rfl, -⟩ := State.code_writes h
  constructor <;> simp [Status.succeeded, State.k, State.m, Regs.off, Regs.cnt, RangeOk, State.lmax]

/-- After an RS_ENCODE that succeeded its kernel finds the parity right, and run again changes no byte of SHARD. -/
theorem rsEncode_again (h : ruleOf .rsEncode s = .ok u) (hrange : RangeOk s) :
    u.completeOk.check (u.completeOk.genRows u.completeOk.paritySlots) u.completeOk.dataSlots
        u.completeOk.paritySlots u.completeOk.regs.off.toNat u.completeOk.regs.cnt.toNat = .ok true
      ∧ ∃ v, u.completeOk.code (u.completeOk.genRows u.completeOk.paritySlots) u.completeOk.dataSlots
          u.completeOk.paritySlots u.completeOk.regs.off.toNat u.completeOk.regs.cnt.toNat = .ok v
        ∧ ∀ a, a.col < 2 ^ 32 → v.byteAt .shard a = u.completeOk.byteAt .shard a := by
  obtain ⟨-, hcode⟩ := rsEncodeRule_eq_code h
  obtain ⟨-, hk, hm, hoff, hcnt, -⟩ := sameCodeword_of_code hcode
  have hdata : u.completeOk.dataSlots = s.dataSlots := congrArg List.range hk
  have hparity : u.completeOk.paritySlots = s.paritySlots := by rw [State.paritySlots, State.paritySlots, hk, hm]
  have hgen : u.completeOk.genRows s.paritySlots = s.genRows s.paritySlots := by
    rw [State.genRows, State.genRows, hk]
    refine State.readBlock_congr fun r _ c _ => ?_
    rw [(frame_completeOk u).byteAt_eq (by simp), (State.code_frame hcode).byteAt_eq (by simp)]
  rw [hdata, hparity, hoff, hcnt, hgen]
  exact State.code_again hcode hrange.end_le (fun R hR => (State.readBlock_shape hR).1) State.nodup_paritySlots
    (fun r hr hr' => (State.mem_paritySlots.1 hr').1.not_gt (State.mem_dataSlots.1 hr))
    ((frame_completeOk u).byteAt_eq (by simp))

theorem rsEncode_checks (h : ruleOf .rsEncode s = .ok u) : s.regs.status.cfgValid = true ∧ RangeOk s := by
  obtain ⟨_, hready, -⟩ := bind_eq_ok.1 h
  exact ⟨require_eq_ok.1 hready, rangeOk_iff.1 (checkRange_ok.1 (rsEncodeRule_eq_code h).1)⟩

end

/-- Settles O57: an encode that succeeded leaves the parity the kernel computes, in slots it does not read. -/
theorem encodeThenCheckAgrees : Obligations.EncodeThenCheckAgrees := by
  intro s t ht herr
  rcases exec_next ht with ⟨u, hu, rfl⟩ | ⟨e, -, rfl⟩
  · obtain ⟨hready, hlegal⟩ := rsEncode_checks hu
    obtain ⟨hcheck, v, hv, hsame⟩ := rsEncode_again hu hlegal
    have hword := sameCodeword_of_code (rsEncodeRule_eq_code hu).2
    have hcfg := hword.configured.trans hready
    have hrange := hword.range hlegal
    rw [← ruleOf_rsEncode hcfg hrange] at hv
    refine ⟨fun useTemp htemp => ?_, ?_⟩
    · have hrule := ruleOf_rsCheck hcfg hrange htemp
      rw [hcheck, ok_bind] at hrule
      obtain ⟨w, hsucc, -, hverdict, -, -, hframe⟩ := hrange.verdict_succeeds hrule
      exact ⟨w, hsucc, hverdict.2 rfl, hframe⟩
    · obtain ⟨hsucc, hbyte, hregs, hmems, -⟩ := succeedsTo_of_ok hv rfl
      refine ⟨_, hsucc, hregs, fun space a ha => ?_⟩
      by_cases hspace : space = .shard
      · subst hspace
        rw [hbyte, hsame a (State.legalAddr_col ha)]
      · exact hmems space (by simpa [writtenMems] using hspace) a
  · exact absurd herr (by simp [Status.failed])

end Sys2Proof.Machine

/-! # Exceptions family: what an error writes, no broken precondition, the interrupt line -/

namespace Sys2Proof.Machine

/-! ## Errors (60_exceptions.md R273) -/

/-- Settles O10: a rule that ends well clears ERR, so ERR = 1 is `State.raiseError`, which writes STATUS alone. -/
theorem errorsChangeOnlyStatus : Obligations.ErrorsChangeOnlyStatus := by
  intro i s t h herr
  rcases exec_next h with ⟨u, -, rfl⟩ | ⟨e, -, rfl⟩
  · exact absurd herr (by simp [Status.succeeded])
  · obtain ⟨-, hcode⟩ := e.code_legal
    exact ⟨rfl, rfl, hcode, rfl, frame_raiseError s e⟩

/-! ## The preconditions of the matrix primitives (42_matrix.md R172) -/

/-- A part of a rule does not end in the model fault SpecBug. -/
def NoSpecBug {α : Type} (x : Except Stop α) : Prop := ∀ what, x ≠ .error (.fault (.specBug what))

section
variable {α β : Type} {x : Except Stop α} {s : State}

theorem noSpecBug_ok (a : α) : NoSpecBug (.ok a) := nofun

theorem noSpecBug_error (e : ErrCode) : NoSpecBug (.error (.error e) : Except Stop α) := nofun

theorem noSpecBug_require (ok : Bool) (e : ErrCode) : NoSpecBug (require ok e) := by
  unfold require
  split
  · exact noSpecBug_ok ()
  · exact noSpecBug_error e

/-- A sequence keeps the preconditions when each part does, given what the parts before it answered. -/
theorem NoSpecBug.bind (hx : NoSpecBug x) {f : α → Except Stop β} (hf : ∀ a, x = .ok a → NoSpecBug (f a)) :
    NoSpecBug (x >>= f) := by
  intro what h
  rcases bind_eq_error.1 h with h | ⟨a, ha, h⟩
  · exact hx what h
  · exact hf a ha what h

/-- After a check of a rule the condition it checked holds. -/
theorem noSpecBug_require_bind {ok : Bool} {e : ErrCode} {f : Unit → Except Stop β} (hf : ok = true → NoSpecBug (f ())) :
    NoSpecBug (require ok e >>= f) :=
  (noSpecBug_require ok e).bind fun _ h => hf (require_eq_ok.1 h)

theorem State.Stops.noSpecBug (h : s.Stops x) : NoSpecBug x := by
  obtain ⟨space, a, rfl, -⟩ := h
  exact nofun

/-! ### Reads and primitives with their preconditions met -/

theorem State.readBlock_noSpecBug {space : Space} {rows : List Nat} {col0 cols : Nat} (hr : rows ≠ []) (hc : cols ≠ 0) :
    NoSpecBug (s.readBlock space rows col0 cols) := by
  rcases s.readBlock_cases hr hc with ⟨A, h⟩ | h
  · exact h ▸ noSpecBug_ok A
  · exact h.noSpecBug

theorem State.readIndices_noSpecBug (s : State) (space : Space) (n : Nat) : NoSpecBug (s.readIndices space n) := by
  rcases s.readIndices_cases space n with ⟨is, h, -⟩ | h
  · exact h ▸ noSpecBug_ok is
  · exact h.noSpecBug

theorem State.bank_noSpecBug {space : Space} {d : Dims} (hd : DimsOk d) : NoSpecBug (s.bank space d) := by
  rcases s.bank_cases space hd with ⟨A, h, -⟩ | ⟨a, h, hnone⟩
  · exact h ▸ noSpecBug_ok A
  · exact State.Stops.noSpecBug ⟨space, a, h, hnone⟩

theorem matMul_noSpecBug {A B : Mat} (h : A.cols = B.rows) : NoSpecBug (matMul A B) :=
  matMul_ok h ▸ noSpecBug_ok _

theorem matInvert_noSpecBug {A : Mat} (hs : A.rows = A.cols) (hr : 1 ≤ A.rows) : NoSpecBug (matInvert A) := by
  rw [matInvert_eq hs hr]
  split
  · exact noSpecBug_error _
  · exact noSpecBug_ok _

theorem matPick_noSpecBug {A : Mat} {is : List Nat} (hne : is ≠ []) (h : ∀ i ∈ is, i < A.rows) :
    NoSpecBug (matPick A is) :=
  matPick_ok hne h ▸ noSpecBug_ok _

theorem matPick_cols {A B : Mat} {is : List Nat} (h : matPick A is = .ok B) : B.cols = A.cols := by
  obtain ⟨_, -, h⟩ := bind_eq_ok.1 h
  cases h
  rfl

theorem buildG_noSpecBug {k : Nat} (hk : 1 ≤ k) (mode : VandMode) (m : Nat) : NoSpecBug (buildG mode k m) := by
  rw [buildG_eq hk]
  split
  · exact noSpecBug_error _
  · exact noSpecBug_ok _

end

/-! ### Kernels -/

section
variable {s : State} {rows : Except Stop Mat} {ins outs : List Nat} {off cnt : Nat}

/-- What `code` and `check` share: rows as wide as there are inputs can be multiplied by the block of the inputs. -/
theorem State.product_noSpecBug {β : Type} (hcnt : cnt ≠ 0) (hins : ins ≠ []) (hrows : NoSpecBug rows)
    (hcols : ∀ R, rows = .ok R → R.cols = ins.length) {f : Mat → Except Stop β} (hf : ∀ Y, NoSpecBug (f Y)) :
    NoSpecBug (do
      let R ← rows
      let X ← s.readBlock .shard ins off cnt
      let Y ← matMul R X
      f Y) :=
  hrows.bind fun R hR => (State.readBlock_noSpecBug hins hcnt).bind fun _ hX =>
    (matMul_noSpecBug ((hcols R hR).trans (State.readBlock_shape hX).1.symm)).bind fun Y _ => hf Y

theorem State.code_noSpecBug (hins : ins ≠ []) (hrows : outs ≠ [] → NoSpecBug rows)
    (hcols : ∀ R, rows = .ok R → R.cols = ins.length) : NoSpecBug (s.code rows ins outs off cnt) := by
  by_cases hempty : cnt = 0 ∨ outs = []
  · rw [State.code_empty hempty]
    exact noSpecBug_ok s
  · obtain ⟨hcnt, houts⟩ := not_or.1 hempty
    rw [State.code, if_neg (by simp [hcnt, houts])]
    exact State.product_noSpecBug hcnt hins (hrows houts) hcols fun _ => noSpecBug_ok _

theorem State.check_noSpecBug (hins : ins ≠ []) (hrows : outs ≠ [] → NoSpecBug rows)
    (hcols : ∀ R, rows = .ok R → R.cols = ins.length) : NoSpecBug (s.check rows ins outs off cnt) := by
  by_cases hempty : cnt = 0 ∨ outs = []
  · rw [State.check_empty hempty]
    exact noSpecBug_ok true
  · obtain ⟨hcnt, houts⟩ := not_or.1 hempty
    rw [State.check, if_neg (by simp [hcnt, houts])]
    exact State.product_noSpecBug hcnt hins (hrows houts) hcols fun _ =>
      (State.readBlock_noSpecBug houts hcnt).bind fun _ _ => noSpecBug_ok _

end

/-! ### Command rules -/

section
variable {s : State}

theorem matMulRule_noSpecBug (s : State) : NoSpecBug (matMulRule s) := by
  refine noSpecBug_require_bind fun hlegal => noSpecBug_require_bind fun hd => ?_
  obtain ⟨hA, hB⟩ := Bool.and_eq_true_iff.1 hlegal
  refine (State.bank_noSpecBug (Dims.legal_iff.1 hA)).bind fun A hbankA =>
    (State.bank_noSpecBug (Dims.legal_iff.1 hB)).bind fun B hbankB => ?_
  obtain ⟨-, hcols, -⟩ := State.readBlock_shape hbankA
  obtain ⟨hrows, -⟩ := State.readBlock_shape hbankB
  rw [List.length_range] at hrows
  have hmul : A.cols = B.rows := by rw [hcols, hrows, beq_iff_eq.1 hd]
  exact (matMul_noSpecBug hmul).bind fun _ _ => noSpecBug_ok _

theorem matInvRule_noSpecBug (s : State) : NoSpecBug (matInvRule s) := by
  refine noSpecBug_require_bind fun hlegal => noSpecBug_require_bind fun hd => ?_
  have hA := Dims.legal_iff.1 hlegal
  refine (State.bank_noSpecBug hA).bind fun A hbank => ?_
  obtain ⟨hrows, hcols, -⟩ := State.readBlock_shape hbank
  rw [List.length_range] at hrows
  have hsquare : A.rows = A.cols := by rw [hrows, hcols, beq_iff_eq.1 hd]
  exact (matInvert_noSpecBug hsquare (hrows ▸ hA.1)).bind fun _ _ => noSpecBug_ok _

theorem State.mvRows_noSpecBug {ins outs : List Nat} (hins : ins ≠ []) (houts : outs ≠ []) :
    NoSpecBug (s.mvRows ins.length outs.length) :=
  State.readBlock_noSpecBug (by simpa using houts) (by simpa using hins)

/-- An index list has as many entries as were asked for. -/
theorem State.readIndices_length {space : Space} {n : Nat} {is : List Nat} (h : s.readIndices space n = .ok is) :
    is.length = n := by
  unfold State.readIndices at h
  split at h
  · cases h
  · cases h
    rw [List.length_map, collect_length ‹_›, List.length_range]

/-- A legal input count is at least 1 (43_coding_loop.md R204). -/
theorem State.inSlots_ne_nil (hcounts : s.regs.mvcnt.legal = true) {ins : List Nat}
    (h : s.readIndices .idxIn s.regs.mvcnt.inCount.toNat = .ok ins) : ins ≠ [] :=
  List.ne_nil_of_length_pos (State.readIndices_length h ▸ (countsOk_iff.1 hcounts).1)

theorem mvCodeRule_noSpecBug (s : State) : NoSpecBug (mvCodeRule s) := by
  refine noSpecBug_require_bind fun hcounts => noSpecBug_require_bind fun _ =>
    (s.readIndices_noSpecBug _ _).bind fun ins hin => (s.readIndices_noSpecBug _ _).bind fun outs _ =>
    noSpecBug_require_bind fun _ => ?_
  have hins := State.inSlots_ne_nil hcounts hin
  exact State.code_noSpecBug hins (State.mvRows_noSpecBug hins) fun R hR => (State.readBlock_shape hR).2.1

theorem mvCheckRule_noSpecBug (useTemp : Bool) (s : State) : NoSpecBug (mvCheckRule useTemp s) := by
  refine noSpecBug_require_bind fun hcounts => noSpecBug_require_bind fun _ => noSpecBug_require_bind fun _ =>
    (s.readIndices_noSpecBug _ _).bind fun ins hin => (s.readIndices_noSpecBug _ _).bind fun outs _ => ?_
  have hins := State.inSlots_ne_nil hcounts hin
  exact (State.check_noSpecBug hins (State.mvRows_noSpecBug hins) fun R hR => (State.readBlock_shape hR).2.1).bind
    fun _ _ => noSpecBug_ok _

theorem rsConfigRule_noSpecBug (loop : BitVec 3) (method : Method) (s : State) :
    NoSpecBug (rsConfigRule loop method s) := by
  refine noSpecBug_require_bind fun hcounts => noSpecBug_require_bind fun _ => ?_
  simp only [Bool.and_eq_true, decide_eq_true_eq] at hcounts
  exact (buildG_noSpecBug (by omega) _ _).bind fun _ _ => noSpecBug_ok _

theorem State.genRows_noSpecBug (hk : 1 ≤ s.k) {rows : List Nat} (hne : rows ≠ []) : NoSpecBug (s.genRows rows) :=
  State.readBlock_noSpecBug hne (Nat.one_le_iff_ne_zero.1 hk)

/-- A row of GEN has an element for each data slot. -/
theorem State.genRows_cols {rows : List Nat} {R : Mat} (h : s.genRows rows = .ok R) : R.cols = s.dataSlots.length := by
  rw [State.length_dataSlots]
  exact (State.readBlock_shape h).2.1

theorem rsEncodeRule_noSpecBug (hk : s.regs.status.cfgValid = true → 1 ≤ s.k) : NoSpecBug (rsEncodeRule s) :=
  noSpecBug_require_bind fun hcfg => noSpecBug_require_bind fun _ =>
    State.code_noSpecBug (State.dataSlots_ne_nil (hk hcfg)) (State.genRows_noSpecBug (hk hcfg))
      fun _ => State.genRows_cols

theorem rsCheckRule_noSpecBug (useTemp : Bool) (hk : s.regs.status.cfgValid = true → 1 ≤ s.k) :
    NoSpecBug (rsCheckRule useTemp s) :=
  noSpecBug_require_bind fun hcfg => noSpecBug_require_bind fun _ => noSpecBug_require_bind fun _ =>
    (State.check_noSpecBug (State.dataSlots_ne_nil (hk hcfg)) (State.genRows_noSpecBug (hk hcfg))
      fun _ => State.genRows_cols).bind fun _ _ => noSpecBug_ok _

/-- With an inverse of k rows and k columns in hand RS_DECODE's two kernels multiply matrices that fit. -/
theorem State.restore_noSpecBug {D : Mat} (hk : 1 ≤ s.k) (hchosen : s.chosen.length = s.k) (hrows : D.rows = s.k)
    (hcols : D.cols = s.k) : NoSpecBug (s.restore D) := by
  have hne : s.chosen ≠ [] := List.ne_nil_of_length_pos (hchosen.symm ▸ hk)
  have hpick (hmd : s.regs.missingList 0 s.k ≠ []) : NoSpecBug (matPick D (s.regs.missingList 0 s.k)) :=
    matPick_noSpecBug hmd fun i hi => hrows.symm ▸ mem_missingList hi
  refine (State.code_noSpecBug hne hpick fun R hR => by rw [matPick_cols hR, hcols, hchosen]).bind fun t ht => ?_
  obtain ⟨l, rfl, -⟩ := State.code_writes ht
  have hkt : 1 ≤ (s.writeAll .shard l).k := by rwa [State.k, State.writeAll_regs]
  exact State.code_noSpecBug (State.dataSlots_ne_nil hkt) (State.genRows_noSpecBug hkt) fun _ => State.genRows_cols

theorem rsDecodeRule_noSpecBug (hk : s.regs.status.cfgValid = true → 1 ≤ s.k) : NoSpecBug (rsDecodeRule s) := by
  refine noSpecBug_require_bind fun hcfg => noSpecBug_require_bind fun _ => noSpecBug_require_bind fun henough => ?_
  split
  · exact noSpecBug_ok s
  · have hpos := hk hcfg
    have hchosen := State.length_chosen (of_decide_eq_true henough)
    refine (State.genRows_noSpecBug hpos (List.ne_nil_of_length_pos (hchosen.symm ▸ hpos))).bind fun S hS => ?_
    obtain ⟨hSrows, hScols, -⟩ := State.readBlock_shape hS
    rw [hchosen] at hSrows
    refine (matInvert_noSpecBug (hSrows.trans hScols.symm) (hSrows.symm ▸ hpos)).bind fun D hD => ?_
    obtain ⟨hDrows, hDcols⟩ := matInvert_shape hD
    exact State.restore_noSpecBug hpos hchosen (hDrows.trans hSrows) (hDcols.trans hSrows)

/-- No command rule breaks a precondition of a matrix primitive. -/
theorem ruleOf_noSpecBug (i : Instr) (hk : s.regs.status.cfgValid = true → 1 ≤ s.k) : NoSpecBug (ruleOf i s) := by
  cases i with
  | nop | gfAdd | gfSub | gfMul method => exact noSpecBug_ok _
  | gfDiv | gfLog =>
    rw [ruleOf]
    split
    · exact noSpecBug_error _
    · exact noSpecBug_ok _
  | gfExp | gfAlog => exact noSpecBug_require_bind fun _ => noSpecBug_ok _
  | matMul => exact matMulRule_noSpecBug s
  | matInv => exact matInvRule_noSpecBug s
  | mvCode loop method => exact mvCodeRule_noSpecBug s
  | mvCheck loop method useTemp => exact mvCheckRule_noSpecBug useTemp s
  | rsConfig loop method => exact rsConfigRule_noSpecBug loop method s
  | rsEncode => exact rsEncodeRule_noSpecBug hk
  | rsCheck useTemp => exact rsCheckRule_noSpecBug useTemp hk
  | rsDecode => exact rsDecodeRule_noSpecBug hk

end

/-! ### Host accesses raise the faults of the ports only (20_memory.md R61 to R67) -/

section
variable {s : State} {what : String}

theorem hostRegRead_ne_specBug {j : Nat} : hostRegRead s j ≠ .error (.specBug what) := by
  unfold hostRegRead
  split_ifs <;> nofun

theorem hostRegWrite_ne_specBug {j : Nat} {w : Word} : hostRegWrite s j w ≠ .error (.specBug what) := by
  unfold hostRegWrite
  split_ifs <;> nofun

theorem hostMemRead_ne_specBug {space : Space} {a : Addr} : hostMemRead s space a ≠ .error (.specBug what) := by
  unfold hostMemRead
  cases s.byteAt space a <;> split_ifs <;> nofun

theorem hostMemWrite_ne_specBug {space : Space} {a : Addr} {v : Byte} :
    hostMemWrite s space a v ≠ .error (.specBug what) := by
  unfold hostMemWrite
  split_ifs <;> nofun

theorem busRegIndex_ne_specBug {p : Platform} {addr size : Nat} :
    busRegIndex p addr size ≠ .error (.specBug what) := by
  unfold busRegIndex
  split_ifs <;> nofun

theorem busByteRead_ne_specBug {addr : Nat} : busByteRead s addr ≠ .error (.specBug what) := by
  unfold busByteRead
  split
  · nofun
  · split
    · nofun
    · exact hostMemRead_ne_specBug

theorem busByteWrite_ne_specBug {addr : Nat} {v : Byte} : busByteWrite s addr v ≠ .error (.specBug what) := by
  unfold busByteWrite
  split
  · nofun
  · split
    · nofun
    · exact hostMemWrite_ne_specBug

theorem busWriteBytes_ne_specBug {addr value : Nat} {l : List Nat} :
    busWriteBytes s addr value l ≠ .error (.specBug what) := by
  induction l generalizing s with
  | nil => nofun
  | cons k rest ih =>
    intro h
    simp only [busWriteBytes] at h
    split at h
    · cases h
      exact busByteWrite_ne_specBug ‹_›
    · exact ih h

theorem hostBusRead_ne_specBug {addr size : Nat} : hostBusRead s addr size ≠ .error (.specBug what) := by
  intro h
  unfold hostBusRead at h
  split at h
  · cases h
  · split at h
    · split at h
      · cases h
        exact busRegIndex_ne_specBug ‹_›
      · split at h <;> cases h
        exact hostRegRead_ne_specBug ‹_›
    · split at h <;> cases h
      obtain ⟨k, -, hbyte⟩ := collect_eq_error ‹_›
      exact busByteRead_ne_specBug hbyte

theorem hostBusWrite_ne_specBug {addr size value : Nat} : hostBusWrite s addr size value ≠ .error (.specBug what) := by
  intro h
  unfold hostBusWrite at h
  split at h
  · cases h
  · split at h
    · split at h
      · cases h
        exact busRegIndex_ne_specBug ‹_›
      · exact hostRegWrite_ne_specBug h
    · exact busWriteBytes_ne_specBug h

theorem hostAccess_ne_specBug (a : HostAccess) : hostAccess s a ≠ .error (.specBug what) := by
  intro h
  cases a <;> simp only [hostAccess] at h <;> split at h <;> cases h
  -- The accesses in the order of their constructors.
  · exact hostRegRead_ne_specBug ‹_›
  · exact hostRegWrite_ne_specBug ‹_›
  · exact hostMemRead_ne_specBug ‹_›
  · exact hostMemWrite_ne_specBug ‹_›
  · exact hostBusRead_ne_specBug ‹_›
  · exact hostBusWrite_ne_specBug ‹_›

end

/-! ### Where the fault of a step comes from -/

section
variable {s : State} {f : Fault}

/-- The Unit's step faults only where the rule of a command does. -/
theorem unitStep_fault (h : unitStep s = .fault f) : ∃ i, ruleOf i s = .error (.fault f) := by
  unfold unitStep at h
  split at h
  · split at h
    · exact ⟨_, finish_fault ((exec_eq_finish _ _).symm.trans h)⟩
    · cases h
  · cases h

/-- A host's step faults only where its access does. -/
theorem hostStep_fault {k : Nat} (h : hostStep k s = .fault f) : ∃ a, hostAccess s a = .error f := by
  unfold hostStep at h
  split at h
  · cases h
  · split at h
    · cases h
    · split at h
      all_goals
        split at h <;> cases h
        exact ⟨_, ‹_›⟩
    · split at h <;> cases h

/-- A step from a state without records faults only where the agent that has the turn does. -/
theorem step_fault (hf : s.faults = []) (h : step s = .fault f) :
    unitStep s.popTurn = .fault f ∨ ∃ k, hostStep k s.popTurn = .fault f := by
  simp only [step, hf] at h
  split at h
  · exact .inl h
  · exact .inr ⟨_, h⟩
  · cases h

end

/-- Settles O19: a command's rule meets the preconditions of the primitives it calls, and no host access calls one. -/
theorem noStepRaisesSpecBug : Obligations.NoStepRaisesSpecBug := by
  intro s what hf hk h
  rcases step_fault hf h with hunit | ⟨k, hhost⟩
  · obtain ⟨i, hrule⟩ := unitStep_fault hunit
    exact ruleOf_noSpecBug (s := s.popTurn) i hk what hrule
  · obtain ⟨a, haccess⟩ := hostStep_fault hhost
    exact hostAccess_ne_specBug a haccess

/-! ## The interrupt line (60_exceptions.md R281) -/

section
variable {s t u : State}

/-- No command rule writes CTRL. -/
theorem RuleEffect.irqEn {i : Instr} (he : RuleEffect i s u) : u.regs.irqEn = s.regs.irqEn := by
  cases he with
  | shards l _ => rw [State.writeAll_regs]
  | result v used off cnt => rw [State.spoilTemp_regs, State.setResult_regs]
  | matrix C _ _ => simp [State.storeResult, State.writeBlock]
  | config k m loop method G _ _ _ => simp [State.configure]

/-- A completion, with or without an error, leaves the line at IRQ_EN, since it sets DONE. -/
theorem exec_irq {i : Instr} (h : exec i s = .next t) : t.irq = s.regs.irqEn := by
  rcases exec_next h with ⟨u, hu, rfl⟩ | ⟨e, -, rfl⟩
  · exact (ruleOf_effect hu).irqEn
  · rfl

theorem unitStep_irq (hb : s.busy = true) (h : unitStep s = .next t) : t.irq = s.regs.irqEn := by
  rcases unitStep_next h with ⟨hidle, -⟩ | ⟨-, i, -, he⟩ | ⟨-, -, rfl⟩
  · exact absurd (hb.symm.trans hidle) (by decide)
  · exact exec_irq he
  · rfl

/-- The line after a register write that only stores. -/
theorem irq_hostWrite (s : State) (j : Nat) (w : Word) : State.irq { s with regs := s.regs.hostWrite j w }
    = ((if j = 2 then s.regs.status.hostWrite w else s.regs.status).done
        && if j = 1 then w.getLsbD 0 else s.regs.irqEn) := by
  rw [State.irq, Regs.hostWrite_status, Regs.hostWrite_irqEn]

theorem ctrlWrite_irq {w : Word} (hw : w.getLsbD 1 = false) (h : hostRegWrite s 1 w = .ok t) :
    t.irq = (s.regs.status.done && w.getLsbD 0) := by
  obtain ⟨-, ⟨h3, -⟩ | ⟨-, hsrst, -⟩ | ⟨-, rfl⟩⟩ := hostRegWrite_ok h
  · exact absurd h3 (by decide)
  · exact absurd (hw.symm.trans hsrst) (by decide)
  · exact irq_hostWrite s 1 w

theorem statusWrite_irq {w : Word} (h : hostRegWrite s 2 w = .ok t) : t.irq = (s.irq && !w.getLsbD 1) := by
  obtain ⟨-, ⟨h3, -⟩ | ⟨h1, -⟩ | ⟨-, rfl⟩⟩ := hostRegWrite_ok h
  · exact absurd h3 (by decide)
  · exact absurd h1 (by decide)
  · rw [irq_hostWrite, if_pos rfl, if_neg (by decide), Status.hostWrite_eq, Bool.and_right_comm]
    rfl

theorem cmdWrite_irq {w : Word} (h : hostRegWrite s 3 w = .ok t) : t.irq = false := by
  obtain ⟨-, ⟨-, -, rfl⟩ | ⟨h1, -⟩ | ⟨h3, -⟩⟩ := hostRegWrite_ok h
  · rfl
  · exact absurd h1 (by decide)
  · exact absurd rfl h3

theorem otherWrite_irq {j : Nat} {w : Word} (h : hostRegWrite s j w = .ok t) (h1 : j ≠ 1) (h2 : j ≠ 2) (h3 : j ≠ 3) :
    t.irq = s.irq := by
  obtain ⟨-, ⟨hcmd, -⟩ | ⟨hctrl, -⟩ | ⟨-, rfl⟩⟩ := hostRegWrite_ok h
  · exact absurd hcmd h3
  · exact absurd hctrl h1
  · rw [irq_hostWrite, if_neg h2, if_neg h1, State.irq]

theorem hostMemWrite_irq {space : Space} {a : Addr} {v : Byte} (h : hostMemWrite s space a v = .ok t) :
    t.irq = s.irq := by
  obtain ⟨-, -, ⟨-, rfl⟩ | ⟨-, rfl⟩⟩ := hostMemWrite_ok h
  all_goals rfl

end

/-- Settles O22: completion sets DONE, each write to CTRL, STATUS or CMD and reset act on DONE or IRQ_EN, and no other
write does. -/
theorem interruptLine : Obligations.InterruptLine :=
  ⟨fun _ => rfl, fun _ _ => unitStep_irq, fun _ _ _ => ctrlWrite_irq, fun _ _ _ => statusWrite_irq,
    fun _ _ _ => cmdWrite_irq, fun _ => rfl, fun _ _ _ _ => otherWrite_irq, fun _ _ _ _ _ => hostMemWrite_irq⟩

end Sys2Proof.Machine

/-! # Reset and hazards family: both resets, the end of a configuration, accesses while a command is in flight -/

namespace Sys2Proof.Machine

/-! ## Reset (70_reset_and_hazards.md R300) -/

theorem resetValues_afterReset (s : State) : ResetValues s.afterReset := resetValues_of rfl rfl

theorem step_hwReset {s : State} (hf : s.faults = []) (ht : s.nextTurn = .hwReset) :
    step s = .next s.popTurn.afterReset := by simp [step, hf, ht]

/-- Settles O13: a CTRL write with SRST and the platform's turn are both `State.afterReset`. -/
theorem resetFromBothSources : Obligations.ResetFromBothSources := fun s =>
  ⟨fun _ => hostRegWrite_srst s, step_hwReset, resetValues_afterReset s, rfl, rfl⟩

/-! ## The end of a configuration (R303) -/

section
variable {s t u : State}

/-! A host access writes the registers through the register port only: a byte write has no effect on them. -/

theorem hostMemWrite_regs {space : Space} {a : Addr} {v : Byte} (h : hostMemWrite s space a v = .ok t) :
    t.regs = s.regs := by
  obtain ⟨-, -, ⟨-, rfl⟩ | ⟨-, rfl⟩⟩ := hostMemWrite_ok h
  all_goals rfl

theorem busByteWrite_regs {addr : Nat} {v : Byte} (h : busByteWrite s addr v = .ok t) : t.regs = s.regs := by
  unfold busByteWrite at h
  split at h
  · cases h
  · split at h
    · cases h
    · exact hostMemWrite_regs h

theorem busWriteBytes_regs {addr value : Nat} {l : List Nat} (h : busWriteBytes s addr value l = .ok t) :
    t.regs = s.regs := by
  induction l generalizing s with
  | nil => cases h; rfl
  | cons k l ih =>
    rw [busWriteBytes] at h
    split at h
    · cases h
    · exact (ih h).trans (busByteWrite_regs ‹_›)

theorem hostBusWrite_regs {addr size value : Nat} (h : hostBusWrite s addr size value = .ok t) :
    (∃ j w, hostRegWrite s j w = .ok t) ∨ t.regs = s.regs := by
  unfold hostBusWrite at h
  split at h
  · cases h
  · split at h
    · split at h
      · cases h
      · exact .inl ⟨_, _, h⟩
    · exact .inr (busWriteBytes_regs h)

theorem hostAccess_regs {a : HostAccess} {v : Option Nat} (h : hostAccess s a = .ok (t, v)) :
    (∃ j w, hostRegWrite s j w = .ok t) ∨ t.regs = s.regs := by
  cases a with
  | regRead j | memRead space b | busRead addr size =>
    simp only [hostAccess] at h
    split at h <;> cases h
    exact .inr rfl
  | regWrite j w =>
    simp only [hostAccess] at h
    split at h <;> cases h
    exact .inl ⟨j, w, ‹_›⟩
  | memWrite space b x =>
    simp only [hostAccess] at h
    split at h <;> cases h
    exact .inr (hostMemWrite_regs ‹_›)
  | busWrite addr size value =>
    simp only [hostAccess] at h
    split at h <;> cases h
    exact hostBusWrite_regs ‹_›

/-! What each agent's step does to CFG_VALID: only reset clears it. -/

/-- CFG_VALID stays 1, or the unit has been reset. -/
def ConfiguredOrReset (s t : State) : Prop :=
  (s.regs.status.cfgValid = true → t.regs.status.cfgValid = true) ∨ t.regs = Regs.reset ∧ t.mems = Mems.empty

theorem configuredOrReset_of_cfgValid (h : t.regs.status.cfgValid = s.regs.status.cfgValid) : ConfiguredOrReset s t :=
  .inl h.trans

theorem configuredOrReset_afterReset (s : State) : ConfiguredOrReset s s.afterReset := .inr ⟨rfl, rfl⟩

theorem hostRegWrite_configuredOrReset {j : Nat} {w : Word} (h : hostRegWrite s j w = .ok t) :
    ConfiguredOrReset s t := by
  obtain ⟨-, ⟨-, -, rfl⟩ | ⟨-, -, rfl⟩ | ⟨-, rfl⟩⟩ := hostRegWrite_ok h
  · exact configuredOrReset_of_cfgValid rfl
  · exact configuredOrReset_afterReset s
  · exact configuredOrReset_of_cfgValid (Regs.hostWrite_cfgValid _ _ _)

theorem hostAccess_configuredOrReset {a : HostAccess} {v : Option Nat} (h : hostAccess s a = .ok (t, v)) :
    ConfiguredOrReset s t := by
  rcases hostAccess_regs h with ⟨j, w, hw⟩ | hregs
  · exact hostRegWrite_configuredOrReset hw
  · exact configuredOrReset_of_cfgValid (by rw [hregs])

theorem hostStep_configuredOrReset {k : Nat} (h : hostStep k s = .next t) : ConfiguredOrReset s t := by
  rcases hostStep_next h with rfl | ⟨a, u, v, q, ha, rfl⟩ | ⟨q, rfl⟩
  · exact configuredOrReset_of_cfgValid rfl
  · exact (hostAccess_configuredOrReset ha : ConfiguredOrReset s u)
  · exact configuredOrReset_of_cfgValid rfl

/-- The one effect that writes CFG_VALID sets it. -/
theorem RuleEffect.stays_configured {i : Instr} (he : RuleEffect i s u) (hs : s.regs.status.cfgValid = true) :
    u.regs.status.cfgValid = true := by
  cases he with
  | shards l _ => rwa [State.writeAll_regs]
  | result v used off cnt => rwa [State.spoilTemp_regs, State.setResult_regs]
  | matrix C _ _ => simpa [State.storeResult, State.writeBlock] using hs
  | config k m loop method G _ _ _ => rfl

theorem exec_stays_configured {i : Instr} (h : exec i s = .next t) (hs : s.regs.status.cfgValid = true) :
    t.regs.status.cfgValid = true := by
  rcases exec_next h with ⟨u, hu, rfl⟩ | ⟨e, -, rfl⟩
  · exact (ruleOf_effect hu).stays_configured hs
  · exact hs

theorem unitStep_stays_configured (h : unitStep s = .next t) (hs : s.regs.status.cfgValid = true) :
    t.regs.status.cfgValid = true := by
  rcases unitStep_next h with ⟨-, rfl⟩ | ⟨-, i, -, he⟩ | ⟨-, -, rfl⟩
  · exact hs
  · exact exec_stays_configured he hs
  · exact hs

theorem step_configuredOrReset (h : step s = .next t) : ConfiguredOrReset s t := by
  obtain ⟨-, ⟨-, hs⟩ | ⟨k, -, hs⟩ | ⟨-, rfl⟩⟩ := step_next h
  · exact .inl (unitStep_stays_configured (s := s.popTurn) hs)
  · exact (hostStep_configuredOrReset hs : ConfiguredOrReset s.popTurn t)
  · exact configuredOrReset_afterReset s.popTurn

end

/-- Settles O15: a step keeps CFG_VALID = 1 or is a reset, and a failed RS_CONFIG is `State.raiseError`. -/
theorem configurationEndsOnlyAtReset : Obligations.ConfigurationEndsOnlyAtReset := by
  refine ⟨fun s t h hs ht => ?_, fun loop method s t h herr => ?_⟩
  · rcases step_configuredOrReset h with hstays | ⟨hregs, hmems⟩
    · exact absurd (hstays hs) (by simp [ht])
    · exact resetValues_of hregs hmems
  · obtain ⟨-, -, -, hcfg, hframe⟩ := errorsChangeOnlyStatus _ s t h herr
    exact ⟨hcfg, hframe⟩

/-! ## Accesses while a command is in flight (R310) -/

section
variable {s : State} {j : Nat} {w : Word} {space : Space} {a : Addr}

theorem readableWhileBusy_iff : readableWhileBusy j = true ↔ j = 0 ∨ j = 2 ∨ j = 30 := by
  simp [readableWhileBusy, or_assoc]

theorem hostRegRead_busy (hb : s.busy = true) (hj : j < 32) : hostRegRead s j =
    if j = 0 ∨ j = 2 ∨ j = 30 then .ok (s.regWord j) else .error (.hostAccessWhileBusy (.reg j)) := by
  rw [hostRegRead, if_neg (by omega), hb, Bool.true_and]
  by_cases hr : readableWhileBusy j = true
  · rw [if_neg (by simp [hr]), if_pos (readableWhileBusy_iff.1 hr)]
  · rw [if_pos (by simpa using hr), if_neg (mt readableWhileBusy_iff.2 hr)]

/-- A CTRL write is a reset or stores IRQ_EN, whatever BUSY is. -/
theorem hostRegWrite_ctrl (s : State) (w : Word) : ∃ t, hostRegWrite s 1 w = .ok t := by
  cases hsrst : w.getLsbD 1 with
  | true => exact ⟨_, hostRegWrite_srst s hsrst⟩
  | false =>
    obtain ⟨t, ht, -⟩ := (controlAndStatusWrites s w).1 hsrst
    exact ⟨t, ht⟩

theorem hostRegWrite_status (s : State) (w : Word) : ∃ t, hostRegWrite s 2 w = .ok t := by
  obtain ⟨-, t, ht, -⟩ := controlAndStatusWrites s w
  exact ⟨t, ht⟩

theorem hostRegWrite_busy (hb : s.busy = true) (hj : j < 32) (h1 : j ≠ 1) (h2 : j ≠ 2) (h3 : j ≠ 3) :
    hostRegWrite s j w = .error (.hostAccessWhileBusy (.reg j)) := by
  have hfixed : writableWhileBusy j = false := by simp [writableWhileBusy, h1, h2]
  rw [hostRegWrite, if_neg (by omega), if_neg h3, if_pos (by simp [hb, hfixed])]

theorem hostMemRead_busy (hb : s.busy = true) (ha : legalAddr s.lmax space a = true) :
    hostMemRead s space a = .error (.hostAccessWhileBusy (.mem space a)) := by
  simp [hostMemRead, ha, hb]

theorem hostMemWrite_busy {v : Byte} (hb : s.busy = true) (ha : legalAddr s.lmax space a = true) :
    hostMemWrite s space a v = .error (.hostAccessWhileBusy (.mem space a)) := by
  simp [hostMemWrite, ha, hb]

end

/-- Settles O23: CTRL and STATUS writes do not look at BUSY, and every other port tests it before it acts. -/
theorem accessWhileBusy : Obligations.AccessWhileBusy := fun s hb =>
  ⟨fun _ => hostRegRead_busy hb,
    fun w => ⟨hostRegWrite_ctrl s w, hostRegWrite_status s w, hostRegWrite_cmd_busy hb w⟩,
    fun _ _ => hostRegWrite_busy hb, fun _ _ ha => ⟨hostMemRead_busy hb ha, fun _ => hostMemWrite_busy hb ha⟩⟩

end Sys2Proof.Machine
